-- ==== Sys2Proof/Word.lean ====
section
/-! DEFINITION. The widths of spec/00_scope.md R13: every value of HDRPARSE is an unsigned number of a stated width. -/

namespace Sys2Proof

/-- A byte of the frame buffer (R11). -/
abbrev Byte := BitVec 8

/-- `u4` of R13: the nibble-packed fields. -/
abbrev U4 := BitVec 4

/-- `u16` of R13. -/
abbrev U16 := BitVec 16

/-- `u32` of R13: offsets, lengths, `seq` and `ack`. -/
abbrev U32 := BitVec 32

end Sys2Proof
end

