-- ==== Sys2Proof/Syntax.lean ====
section
/-! DEFINITION. The headers of spec/30_encoding.md R57 to R59 and the instructions: one constructor for each of the
twenty rows of spec/opcode_table.json, the ten operations of R66 and the ten wire rows of R68. -/

namespace Sys2Proof

/-- A 6-byte register or field (R29): a sequence of six bytes, `b0` at the lowest buffer offset. -/
structure Mac where
  b0 : Byte
  b1 : Byte
  b2 : Byte
  b3 : Byte
  b4 : Byte
  b5 : Byte
deriving DecidableEq, Repr

/-- A 4-byte register or field (R30): a sequence of four bytes, `b0` at the lowest buffer offset. -/
structure Ipv4Addr where
  b0 : Byte
  b1 : Byte
  b2 : Byte
  b3 : Byte
deriving DecidableEq, Repr

/-- The EthernetHeader of R29 and R57. -/
structure EthernetHeader where
  destMac   : Mac
  srcMac    : Mac
  etherType : U16
deriving DecidableEq, Repr

/-- The Ipv4Header of R30 and R58: its eleven fields, `flags/offset` kept whole. -/
structure Ipv4Header where
  version        : U4
  headerLenWords : U4
  tos            : Byte
  totalLen       : U16
  id             : U16
  flagsFrag      : U16
  ttl            : Byte
  protocol       : Byte
  checksum       : U16
  srcAddr        : Ipv4Addr
  dstAddr        : Ipv4Addr
deriving DecidableEq, Repr

/-- The TcpHeader of R31 and R59: its nine fields. The reserved nibble of byte 12 is in no register. -/
structure TcpHeader where
  srcPort         : U16
  dstPort         : U16
  seq             : U32
  ack             : U32
  dataOffsetWords : U4
  flags           : Byte
  window          : U16
  checksum        : U16
  urgentPtr       : U16
deriving DecidableEq, Repr

/-- The rows of spec/opcode_table.json. A wire row carries the header that matched it: its fields are the operands
of the row's effect; the TCP rows carry the reserved nibble of byte 12 too, so that no bit of a header is dropped. -/
inductive Instr where
  /-- `CUR.READ_U8` (R75) -/
  | curReadU8
  /-- `CUR.READ_U16_BE` (R76) -/
  | curReadU16Be
  /-- `CUR.READ_U32_BE` (R77) -/
  | curReadU32Be
  /-- `CUR.READ_BYTES n` (R78) -/
  | curReadBytes (n : U32)
  /-- `CUR.REMAINING` (R79) -/
  | curRemaining
  /-- `CUR.ADVANCE n` (R80) -/
  | curAdvance (n : U32)
  /-- `ETH.READ` (R83) -/
  | ethRead
  /-- `IP4.READ` (R86) -/
  | ip4Read
  /-- `TCP.READ` (R95) -/
  | tcpRead
  /-- `FRAME.DECODE` (R103) -/
  | frameDecode
  /-- `ETH.IPV4` (R106) -/
  | ethIpv4 (h : EthernetHeader)
  /-- `ETH.OTHER` (R106) -/
  | ethOther (h : EthernetHeader)
  /-- `IP4.IHL_0_3` (R88) -/
  | ip4Ihl03 (h : Ipv4Header)
  /-- `IP4.IHL_4` (R88) -/
  | ip4Ihl4 (h : Ipv4Header)
  /-- `IP4.V4_TCP` (R108) -/
  | ip4V4Tcp (h : Ipv4Header)
  /-- `IP4.V4_OTHER` (R108) -/
  | ip4V4Other (h : Ipv4Header)
  /-- `IP4.NOT_V4` (R89) -/
  | ip4NotV4 (h : Ipv4Header)
  /-- `TCP.DOFF_0_3` (R98) -/
  | tcpDoff03 (h : TcpHeader) (reserved : U4)
  /-- `TCP.DOFF_4` (R98) -/
  | tcpDoff4 (h : TcpHeader) (reserved : U4)
  /-- `TCP.OK` (R99) -/
  | tcpOk (h : TcpHeader) (reserved : U4)
deriving DecidableEq, Repr

end Sys2Proof
end

