-- ==== Sys2Proof/Machine/Operands.lean ====
section
/-! DEFINITION. Field assembly (spec/30_encoding.md R60, R61; spec/20_memory.md R45): how a field's value is made
from buffer bytes, and back, and the scaled header lengths. -/

namespace Sys2Proof.Machine

/-- A `u16` field: `B[a] * 256 + B[a+1]`, the byte at the lower offset more significant (R60 b). -/
def be16 (b0 b1 : Byte) : U16 := b0 ++ b1

/-- A `u32` field: `B[a] * 2^24 + B[a+1] * 2^16 + B[a+2] * 2^8 + B[a+3]` (R60 c). -/
def be32 (b0 b1 b2 b3 : Byte) : U32 := be16 b0 b1 ++ be16 b2 b3

/-- The high nibble of a byte read once: `b >> 4` (R60 e). -/
def highNibble (b : Byte) : U4 := (b >>> 4).setWidth 4

/-- The low nibble of a byte read once: `b & 0x0F` (R60 e). -/
def lowNibble (b : Byte) : U4 := (b &&& 0x0F#8).setWidth 4

/-- The byte whose high nibble is `hi` and whose low nibble is `lo`. -/
def packNibbles (hi lo : U4) : Byte := hi ++ lo

/-- The two bytes of a `u16`, most significant first (R45). -/
def bytes16 (v : U16) : List Byte := [(v >>> 8).setWidth 8, v.setWidth 8]

/-- The four bytes of a `u32`, most significant first (R45). -/
def bytes32 (v : U32) : List Byte :=
  [(v >>> 24).setWidth 8, (v >>> 16).setWidth 8, (v >>> 8).setWidth 8, v.setWidth 8]

/-- Header byte length: `words * 4` (R61). -/
def headerBytes (words : U4) : Nat := words.toNat * 4

/-- Option byte length: `(words - 5) * 4`, formed only after `words ≥ 5` was seen (R61). -/
def optionBytes (words : U4) : Nat := (words.toNat - 5) * 4

/-- The six bytes of a view as a 6-byte value, element 0 first (R29). `CUR.READ_BYTES 6` always gives six. -/
def macOf (bs : List Byte) : Mac :=
  ⟨bs.getD 0 0, bs.getD 1 0, bs.getD 2 0, bs.getD 3 0, bs.getD 4 0, bs.getD 5 0⟩

/-- The four bytes of a view as a 4-byte value, element 0 first (R30). `CUR.READ_BYTES 4` always gives four. -/
def addrOf (bs : List Byte) : Ipv4Addr :=
  ⟨bs.getD 0 0, bs.getD 1 0, bs.getD 2 0, bs.getD 3 0⟩

/-- The byte sequence of a 6-byte value (R29). -/
def macBytes (m : Mac) : List Byte := [m.b0, m.b1, m.b2, m.b3, m.b4, m.b5]

/-- The byte sequence of a 4-byte value (R30). -/
def addrBytes (a : Ipv4Addr) : List Byte := [a.b0, a.b1, a.b2, a.b3]

end Sys2Proof.Machine
end

