-- ==== Sys2Proof/Config.lean ====
section
/-! DEFINITION. What is fixed for this hardware (spec/00_scope.md R9, R10). There is no
free value: a read to which the spec gives no meaning yields none (spec/90_conflicts.md C7). -/

namespace Sys2Proof.Config

/-- `ETH_HLEN` (R9). -/
abbrev ethHlen : Nat := 14

/-- `ETHERTYPE_IPV4` (R9). -/
abbrev ethertypeIpv4 : U16 := 0x0800#16

/-- `IP_FIXED_LEN` (R9). -/
abbrev ipFixedLen : Nat := 20

/-- `IP_MIN_WORDS` (R9). -/
abbrev ipMinWords : Nat := 5

/-- `IP_MAX_WORDS` (R9). -/
abbrev ipMaxWords : Nat := 15

/-- `IPPROTO_TCP` (R9). -/
abbrev ipprotoTcp : Byte := 6#8

/-- `TCP_FIXED_LEN` (R9; spec/90_conflicts.md C2: 20, not the source's 14). -/
abbrev tcpFixedLen : Nat := 20

/-- `TCP_MIN_WORDS` (R9). -/
abbrev tcpMinWords : Nat := 5

/-- `TCP_MAX_WORDS` (R9). -/
abbrev tcpMaxWords : Nat := 15

/-- `WORD` (R9): bytes per header-length word. -/
abbrev wordBytes : Nat := 4

/-- The IPv4 version the invariant of R36 item 3 and the check of R89 name. -/
abbrev ipVersion : U4 := 4#4

/-- `PREVIEW_CAP` at reset (R10, R39). -/
abbrev previewCapReset : U32 := 20#32

/-- `MAX_CAPLEN` (R10). -/
abbrev maxCaplen : Nat := 2 ^ 32 - 1

end Sys2Proof.Config
end

