-- ==== Sys2Proof/WellFormed.lean ====
section
/-! DEFINITION. When an instruction is one the table has: a wire row holds only a header that the row, and no row of
smaller priority, matches (spec/30_encoding.md R63, R68). The operations of R66 have no ill-formed operand. -/

namespace Sys2Proof

/-- The row's own condition on the header's fields, together with the failure of the rows tried before it (R68). -/
def Instr.wf : Instr → Bool
  | .curReadU8 => true
  | .curReadU16Be => true
  | .curReadU32Be => true
  | .curReadBytes _ => true
  | .curRemaining => true
  | .curAdvance _ => true
  | .ethRead => true
  | .ip4Read => true
  | .tcpRead => true
  | .frameDecode => true
  | .ethIpv4 h => decide (h.etherType = Config.ethertypeIpv4)
  | .ethOther h => decide (h.etherType ≠ Config.ethertypeIpv4)
  | .ip4Ihl03 h => decide (h.headerLenWords.toNat < 4)
  | .ip4Ihl4 h => decide (h.headerLenWords.toNat = 4)
  | .ip4V4Tcp h =>
    decide (5 ≤ h.headerLenWords.toNat ∧ h.version = Config.ipVersion ∧ h.protocol = Config.ipprotoTcp)
  | .ip4V4Other h =>
    decide (5 ≤ h.headerLenWords.toNat ∧ h.version = Config.ipVersion ∧ h.protocol ≠ Config.ipprotoTcp)
  | .ip4NotV4 h => decide (5 ≤ h.headerLenWords.toNat ∧ h.version ≠ Config.ipVersion)
  | .tcpDoff03 h _ => decide (h.dataOffsetWords.toNat < 4)
  | .tcpDoff4 h _ => decide (h.dataOffsetWords.toNat = 4)
  | .tcpOk h _ => decide (5 ≤ h.dataOffsetWords.toNat)

end Sys2Proof
end

