-- ==== Sys2Proof/Decode.lean ====
section
/-! DEFINITION. From bytes to an instruction and back. The spec gives the operations a 4-bit index and no binary
encoding (spec/30_encoding.md R66), and the wire rows a pattern over a header's bytes (R68). Here an instruction's
first byte says its format (log entry 2): high nibble 0 is an operation with its index in the low nibble, followed by
four big-endian bytes where the operation has the operand `n`; 0x10, 0x20 and 0x30 stand before an Ethernet, IPv4 or
TCP header of 14, 20 or 20 bytes. Every other first byte is refused. -/

namespace Sys2Proof

open Sys2Proof.Machine

/-- The Ethernet format of R57, and what follows it. -/
def ethOfBytes : List Byte → Option (EthernetHeader × List Byte)
  | d0 :: d1 :: d2 :: d3 :: d4 :: d5 :: s0 :: s1 :: s2 :: s3 :: s4 :: s5 :: t0 :: t1 :: rest =>
    some (⟨⟨d0, d1, d2, d3, d4, d5⟩, ⟨s0, s1, s2, s3, s4, s5⟩, be16 t0 t1⟩, rest)
  | _ => none

/-- The fixed portion of the IPv4 format of R58, and what follows it. -/
def ip4OfBytes : List Byte → Option (Ipv4Header × List Byte)
  | b0 :: tos :: l0 :: l1 :: i0 :: i1 :: f0 :: f1 :: ttl :: proto :: c0 :: c1 ::
      s0 :: s1 :: s2 :: s3 :: d0 :: d1 :: d2 :: d3 :: rest =>
    some (⟨highNibble b0, lowNibble b0, tos, be16 l0 l1, be16 i0 i1, be16 f0 f1, ttl, proto, be16 c0 c1,
      ⟨s0, s1, s2, s3⟩, ⟨d0, d1, d2, d3⟩⟩, rest)
  | _ => none

/-- The fixed portion of the TCP format of R59 with the reserved nibble of byte 12, and what follows it. -/
def tcpOfBytes : List Byte → Option ((TcpHeader × U4) × List Byte)
  | p0 :: p1 :: q0 :: q1 :: s0 :: s1 :: s2 :: s3 :: a0 :: a1 :: a2 :: a3 ::
      b12 :: fl :: w0 :: w1 :: c0 :: c1 :: u0 :: u1 :: rest =>
    some ((⟨be16 p0 p1, be16 q0 q1, be32 s0 s1 s2 s3, be32 a0 a1 a2 a3, highNibble b12, fl, be16 w0 w1,
      be16 c0 c1, be16 u0 u1⟩, lowNibble b12), rest)
  | _ => none

/-- The operand `n` of `CUR.READ_BYTES` and `CUR.ADVANCE`, and what follows it. -/
def u32OfBytes : List Byte → Option (U32 × List Byte)
  | b0 :: b1 :: b2 :: b3 :: rest => some (be32 b0 b1 b2 b3, rest)
  | _ => none

/-- The row of format ETH that a header matches, rows tried by priority (R68). -/
def ethRow (h : EthernetHeader) : Instr :=
  if h.etherType = Config.ethertypeIpv4 then .ethIpv4 h else .ethOther h

/-- The row of format IP4 that a header matches, rows tried by priority (R68): the mask 0c of the first row keeps the
two high bits of `header_len_words`. -/
def ip4Row (h : Ipv4Header) : Instr :=
  if h.headerLenWords &&& 0xC#4 = 0#4 then .ip4Ihl03 h
  else if h.headerLenWords = 4#4 then .ip4Ihl4 h
  else if h.version = Config.ipVersion ∧ h.protocol = Config.ipprotoTcp then .ip4V4Tcp h
  else if h.version = Config.ipVersion then .ip4V4Other h
  else .ip4NotV4 h

/-- The row of format TCP that a header matches, rows tried by priority (R68). -/
def tcpRow (h : TcpHeader) (reserved : U4) : Instr :=
  if h.dataOffsetWords &&& 0xC#4 = 0#4 then .tcpDoff03 h reserved
  else if h.dataOffsetWords = 4#4 then .tcpDoff4 h reserved
  else .tcpOk h reserved

/-- The instruction at the front of `bs` and the bytes after it; none where the first byte is none of the formats or
too few bytes follow it. -/
def decode : List Byte → Option (Instr × List Byte)
  | [] => none
  | tag :: rest =>
    match tag.toNat with
    | 0x00 => some (.curReadU8, rest)
    | 0x01 => some (.curReadU16Be, rest)
    | 0x02 => some (.curReadU32Be, rest)
    | 0x03 => (u32OfBytes rest).map fun p => (.curReadBytes p.1, p.2)
    | 0x04 => some (.curRemaining, rest)
    | 0x05 => (u32OfBytes rest).map fun p => (.curAdvance p.1, p.2)
    | 0x06 => some (.ethRead, rest)
    | 0x07 => some (.ip4Read, rest)
    | 0x08 => some (.tcpRead, rest)
    | 0x09 => some (.frameDecode, rest)
    | 0x10 => (ethOfBytes rest).map fun p => (ethRow p.1, p.2)
    | 0x20 => (ip4OfBytes rest).map fun p => (ip4Row p.1, p.2)
    | 0x30 => (tcpOfBytes rest).map fun p => (tcpRow p.1.1 p.1.2, p.2)
    | _ => none

/-- The 14 bytes of an Ethernet header (R57). -/
def ethBytes (h : EthernetHeader) : List Byte :=
  macBytes h.destMac ++ macBytes h.srcMac ++ bytes16 h.etherType

/-- The 20 bytes of an IPv4 header's fixed portion (R58). -/
def ip4Bytes (h : Ipv4Header) : List Byte :=
  [packNibbles h.version h.headerLenWords, h.tos] ++ bytes16 h.totalLen ++ bytes16 h.id ++ bytes16 h.flagsFrag ++
    [h.ttl, h.protocol] ++ bytes16 h.checksum ++ addrBytes h.srcAddr ++ addrBytes h.dstAddr

/-- The 20 bytes of a TCP header's fixed portion (R59). -/
def tcpBytes (h : TcpHeader) (reserved : U4) : List Byte :=
  bytes16 h.srcPort ++ bytes16 h.dstPort ++ bytes32 h.seq ++ bytes32 h.ack ++
    [packNibbles h.dataOffsetWords reserved, h.flags] ++ bytes16 h.window ++ bytes16 h.checksum ++
    bytes16 h.urgentPtr

/-- The bytes of an instruction: the operation's index of R66 with its operand, or the format byte and the header. -/
def encode : Instr → List Byte
  | .curReadU8 => [0x00#8]
  | .curReadU16Be => [0x01#8]
  | .curReadU32Be => [0x02#8]
  | .curReadBytes n => 0x03#8 :: bytes32 n
  | .curRemaining => [0x04#8]
  | .curAdvance n => 0x05#8 :: bytes32 n
  | .ethRead => [0x06#8]
  | .ip4Read => [0x07#8]
  | .tcpRead => [0x08#8]
  | .frameDecode => [0x09#8]
  | .ethIpv4 h => 0x10#8 :: ethBytes h
  | .ethOther h => 0x10#8 :: ethBytes h
  | .ip4Ihl03 h => 0x20#8 :: ip4Bytes h
  | .ip4Ihl4 h => 0x20#8 :: ip4Bytes h
  | .ip4V4Tcp h => 0x20#8 :: ip4Bytes h
  | .ip4V4Other h => 0x20#8 :: ip4Bytes h
  | .ip4NotV4 h => 0x20#8 :: ip4Bytes h
  | .tcpDoff03 h r => 0x30#8 :: tcpBytes h r
  | .tcpDoff4 h r => 0x30#8 :: tcpBytes h r
  | .tcpOk h r => 0x30#8 :: tcpBytes h r

/-- The `k` bytes of a number, byte 0 its least significant: how decodeTableWord's argument numbers them. -/
def bytesOfWord (k w : Nat) : List Byte :=
  (List.range k).map fun i => BitVec.ofNat 8 (w >>> (8 * i))

/-- A table word as the bytes the decoder is given, with zeros above it (log entry 3). A row of 112 bits is an
Ethernet header and one of 160 bits is read as an IPv4 header, each with its format byte put before it; any other
width is the instruction's own bytes, format byte first. -/
def tableWordBytes (nbits w : Nat) : List Byte :=
  if nbits = 112 then 0x10#8 :: bytesOfWord 14 w
  else if nbits = 160 then 0x20#8 :: bytesOfWord 20 w
  else bytesOfWord 21 w

/-- The instruction the decoder reads from a word of spec/opcode_table.json. -/
def decodeTableWord (nbits w : Nat) : Option Instr :=
  (decode (tableWordBytes nbits w)).map Prod.fst

/-- The bytes of exactly the one instruction that stands in a table word (all of them where none is decoded). -/
def oneInstrBytes (nbits w : Nat) : List Byte :=
  match decode (tableWordBytes nbits w) with
  | some (_, rest) => (tableWordBytes nbits w).take ((tableWordBytes nbits w).length - rest.length)
  | none => tableWordBytes nbits w

/-- A wire row of spec/opcode_table.json as the table prints it (R68): `match` (here `pattern`) and `mask` over the
header's bytes, byte 0 first. -/
structure WireRow where
  mnemonic : String
  pattern  : List Byte
  mask     : List Byte
deriving DecidableEq, Repr

/-- A header matches a row when `(header AND mask) = match` (R68). -/
def rowMatches (header : List Byte) (row : WireRow) : Bool :=
  decide (List.zipWith (· &&& ·) header row.mask = row.pattern)

/-- The rows of format ETH in ascending priority. -/
def ethTable : List WireRow :=
  [⟨"ETH.IPV4",
     [0x00, 0x00, 0x00, 0x00, 0x00, 0x00, 0x00, 0x00, 0x00, 0x00, 0x00, 0x00, 0x08, 0x00],
     [0x00, 0x00, 0x00, 0x00, 0x00, 0x00, 0x00, 0x00, 0x00, 0x00, 0x00, 0x00, 0xff, 0xff]⟩,
   ⟨"ETH.OTHER",
     [0x00, 0x00, 0x00, 0x00, 0x00, 0x00, 0x00, 0x00, 0x00, 0x00, 0x00, 0x00, 0x00, 0x00],
     [0x00, 0x00, 0x00, 0x00, 0x00, 0x00, 0x00, 0x00, 0x00, 0x00, 0x00, 0x00, 0x00, 0x00]⟩]

/-- The rows of format IP4 in ascending priority. -/
def ip4Table : List WireRow :=
  [⟨"IP4.IHL_0_3",
     [0x00, 0x00, 0x00, 0x00, 0x00, 0x00, 0x00, 0x00, 0x00, 0x00, 0x00, 0x00, 0x00, 0x00, 0x00, 0x00, 0x00, 0x00, 0x00, 0x00],
     [0x0c, 0x00, 0x00, 0x00, 0x00, 0x00, 0x00, 0x00, 0x00, 0x00, 0x00, 0x00, 0x00, 0x00, 0x00, 0x00, 0x00, 0x00, 0x00, 0x00]⟩,
   ⟨"IP4.IHL_4",
     [0x04, 0x00, 0x00, 0x00, 0x00, 0x00, 0x00, 0x00, 0x00, 0x00, 0x00, 0x00, 0x00, 0x00, 0x00, 0x00, 0x00, 0x00, 0x00, 0x00],
     [0x0f, 0x00, 0x00, 0x00, 0x00, 0x00, 0x00, 0x00, 0x00, 0x00, 0x00, 0x00, 0x00, 0x00, 0x00, 0x00, 0x00, 0x00, 0x00, 0x00]⟩,
   ⟨"IP4.V4_TCP",
     [0x40, 0x00, 0x00, 0x00, 0x00, 0x00, 0x00, 0x00, 0x00, 0x06, 0x00, 0x00, 0x00, 0x00, 0x00, 0x00, 0x00, 0x00, 0x00, 0x00],
     [0xf0, 0x00, 0x00, 0x00, 0x00, 0x00, 0x00, 0x00, 0x00, 0xff, 0x00, 0x00, 0x00, 0x00, 0x00, 0x00, 0x00, 0x00, 0x00, 0x00]⟩,
   ⟨"IP4.V4_OTHER",
     [0x40, 0x00, 0x00, 0x00, 0x00, 0x00, 0x00, 0x00, 0x00, 0x00, 0x00, 0x00, 0x00, 0x00, 0x00, 0x00, 0x00, 0x00, 0x00, 0x00],
     [0xf0, 0x00, 0x00, 0x00, 0x00, 0x00, 0x00, 0x00, 0x00, 0x00, 0x00, 0x00, 0x00, 0x00, 0x00, 0x00, 0x00, 0x00, 0x00, 0x00]⟩,
   ⟨"IP4.NOT_V4",
     [0x00, 0x00, 0x00, 0x00, 0x00, 0x00, 0x00, 0x00, 0x00, 0x00, 0x00, 0x00, 0x00, 0x00, 0x00, 0x00, 0x00, 0x00, 0x00, 0x00],
     [0x00, 0x00, 0x00, 0x00, 0x00, 0x00, 0x00, 0x00, 0x00, 0x00, 0x00, 0x00, 0x00, 0x00, 0x00, 0x00, 0x00, 0x00, 0x00, 0x00]⟩]

/-- The rows of format TCP in ascending priority. -/
def tcpTable : List WireRow :=
  [⟨"TCP.DOFF_0_3",
     [0x00, 0x00, 0x00, 0x00, 0x00, 0x00, 0x00, 0x00, 0x00, 0x00, 0x00, 0x00, 0x00, 0x00, 0x00, 0x00, 0x00, 0x00, 0x00, 0x00],
     [0x00, 0x00, 0x00, 0x00, 0x00, 0x00, 0x00, 0x00, 0x00, 0x00, 0x00, 0x00, 0xc0, 0x00, 0x00, 0x00, 0x00, 0x00, 0x00, 0x00]⟩,
   ⟨"TCP.DOFF_4",
     [0x00, 0x00, 0x00, 0x00, 0x00, 0x00, 0x00, 0x00, 0x00, 0x00, 0x00, 0x00, 0x40, 0x00, 0x00, 0x00, 0x00, 0x00, 0x00, 0x00],
     [0x00, 0x00, 0x00, 0x00, 0x00, 0x00, 0x00, 0x00, 0x00, 0x00, 0x00, 0x00, 0xf0, 0x00, 0x00, 0x00, 0x00, 0x00, 0x00, 0x00]⟩,
   ⟨"TCP.OK",
     [0x00, 0x00, 0x00, 0x00, 0x00, 0x00, 0x00, 0x00, 0x00, 0x00, 0x00, 0x00, 0x00, 0x00, 0x00, 0x00, 0x00, 0x00, 0x00, 0x00],
     [0x00, 0x00, 0x00, 0x00, 0x00, 0x00, 0x00, 0x00, 0x00, 0x00, 0x00, 0x00, 0x00, 0x00, 0x00, 0x00, 0x00, 0x00, 0x00, 0x00]⟩]

/-- The mnemonic of spec/opcode_table.json an instruction stands for. -/
def Instr.mnemonic : Instr → String
  | .curReadU8 => "CUR.READ_U8"
  | .curReadU16Be => "CUR.READ_U16_BE"
  | .curReadU32Be => "CUR.READ_U32_BE"
  | .curReadBytes _ => "CUR.READ_BYTES"
  | .curRemaining => "CUR.REMAINING"
  | .curAdvance _ => "CUR.ADVANCE"
  | .ethRead => "ETH.READ"
  | .ip4Read => "IP4.READ"
  | .tcpRead => "TCP.READ"
  | .frameDecode => "FRAME.DECODE"
  | .ethIpv4 _ => "ETH.IPV4"
  | .ethOther _ => "ETH.OTHER"
  | .ip4Ihl03 _ => "IP4.IHL_0_3"
  | .ip4Ihl4 _ => "IP4.IHL_4"
  | .ip4V4Tcp _ => "IP4.V4_TCP"
  | .ip4V4Other _ => "IP4.V4_OTHER"
  | .ip4NotV4 _ => "IP4.NOT_V4"
  | .tcpDoff03 _ _ => "TCP.DOFF_0_3"
  | .tcpDoff4 _ _ => "TCP.DOFF_4"
  | .tcpOk _ _ => "TCP.OK"

end Sys2Proof
end

