-- ==== Sys2Proof/Machine/State.lean ====
section
/-! DEFINITION. The state of HDRPARSE (spec/10_state.md), the reasons a step can stop, and the state after reset (R39). -/

namespace Sys2Proof.Machine

/-- The nine values of `PHASE` (R24), HDRPARSE's program counter. -/
inductive Phase where
  | idle | s1 | s2 | s3 | s4 | s5 | s6 | s7 | done
deriving DecidableEq, Repr

/-- The cursor's only error (R74). -/
inductive CursorError where
  | outOfBounds
deriving DecidableEq, Repr

/-- The seven reasons of R26 and R123, in the source's order. -/
inductive SkipReason where
  | tooShortForEthernet | notIpv4 | tooShortForIp | invalidIpHeaderLength | notTcp | tooShortForTcp
  | invalidTcpHeaderLength
deriving DecidableEq, Repr

/-- Registers 5 to 31 (R29 to R33) when they hold values. Step 7 writes all of them together (R111) and a start
command or a skip empties all of them together (R35), so they hold values all at once or not at all. -/
structure Record where
  eth           : EthernetHeader
  ip            : Ipv4Header
  tcp           : TcpHeader
  payloadOff    : U32
  payloadLen    : U32
  previewLen    : U32
  capturedTotal : U32
deriving DecidableEq, Repr

/-- The values `FRAME.DECODE` holds between its steps (R83, R86, R95, R110). -/
structure Held where
  eth        : EthernetHeader
  ip         : Ipv4Header
  tcp        : TcpHeader
  payloadLen : U32
deriving DecidableEq, Repr

/-- Nothing held: every field zero (log entry 1). -/
def Held.empty : Held :=
  { eth := ⟨⟨0, 0, 0, 0, 0, 0⟩, ⟨0, 0, 0, 0, 0, 0⟩, 0⟩
    ip := ⟨0, 0, 0, 0, 0, 0, 0, 0, 0, ⟨0, 0, 0, 0⟩, ⟨0, 0, 0, 0⟩⟩
    tcp := ⟨0, 0, 0, 0, 0, 0, 0, 0, 0⟩
    payloadLen := 0 }

/-- What an operation handed to its caller: the "returns" and "can fail with" columns of R66. -/
inductive Ret where
  /-- no operation has returned since reset or the last start -/
  | none
  /-- `CUR.READ_U8` -/
  | u8 (v : Byte)
  /-- `CUR.READ_U16_BE` -/
  | u16 (v : U16)
  /-- `CUR.READ_U32_BE` and `CUR.REMAINING` -/
  | u32 (v : U32)
  /-- `CUR.READ_BYTES n`: the view (offset, n) and the bytes it shows -/
  | view (off n : U32) (bytes : List Byte)
  /-- `CUR.ADVANCE n`, which returns nothing -/
  | ok
  /-- `ETH.READ` -/
  | eth (h : EthernetHeader)
  /-- `IP4.READ` -/
  | ip4 (h : Ipv4Header)
  /-- `TCP.READ` -/
  | tcp (h : TcpHeader)
  /-- a cursor operation failed with `OutOfBounds` -/
  | outOfBounds
  /-- a reader failed with the reason -/
  | skip (r : SkipReason)
deriving DecidableEq, Repr

/-- A stop with a fault. The spec treats no behaviour of HDRPARSE as a fault (spec/93_implementation_defined.md). -/
inductive Fault where
  /-- `MemRead` outside `[0, c.len)`, which has no meaning (R42). Raised by `memRead` alone; every caller's bounds
  test stands before it, so no step raises it. SAFE: the machine stops. -/
  | readBeyondCaplen
deriving DecidableEq, Repr

/-- A stop by refusal: what the spec gives no meaning. -/
inductive Refusal where
  /-- An instruction that has no meaning in this model yet; raised by `exec`'s arms alone. SAFE. -/
  | notModelled (mnemonic : String)
  /-- Issued bytes that are no instruction (R66, log entry 2); raised by `step`. SAFE. -/
  | reservedEncoding
  /-- A start command while `BUSY = 1` (U1, R145); raised by `FRAME.DECODE` and by the host's write of `CTRL`. SAFE. -/
  | startWhileBusy
  /-- A write of an input register while `BUSY = 1` (U2, R145); raised by the host port. SAFE. -/
  | writeWhileBusy
  /-- A write of a byte of `B[0 .. caplen)` during a decode (U3, R144); raised by the host port. SAFE. -/
  | bufferWriteWhileBusy
  /-- A read below `caplen` of a byte the host never filled (U4, R141); raised by `memRead`. SAFE. -/
  | unfilledFrameByte
  /-- A host read of a register or field that holds no value (U5, R35, R146); raised by the host port. SAFE. -/
  | readOfNoValue
deriving DecidableEq, Repr

/-- Everything the spec gives the machine, and the frame buffer it reads. -/
structure State where
  /-- `PHASE` (R24) -/
  phase      : Phase
  /-- `CTRL.START` (R23). The bit does not stay set: the host's write of 1, refused unless `PHASE` is `IDLE` or `DONE`,
  is accepted at once (R24, R104), and the acceptance clears it (log entry 7) -/
  ctrlStart  : Bool
  /-- `CAPLEN` (R23) -/
  caplen     : U32
  /-- `WIRELEN` (R23) -/
  wirelen    : U32
  /-- `PREVIEW_CAP` (R23) -/
  previewCap : U32
  /-- `c.len` (R25): the `CAPLEN` sampled at the start -/
  curLen     : U32
  /-- `c.off` (R25) -/
  curOff     : U32
  /-- the `PREVIEW_CAP` sampled at the start (R103 `cap`, R104) -/
  capLatch   : U32
  /-- `eth`, `ip`, `tcp` and `payload_len` between the steps (R83, R86, R95, R110) -/
  held       : Held
  /-- `STATUS.OUTCOME` (R26): true is 1, `Decoded` -/
  outcome    : Bool
  /-- `STATUS.REASON` (R26): none is code 0 -/
  reason     : Option SkipReason
  /-- registers 5 to 31 (R33): none is `⊥` in all of them -/
  record     : Option Record
  /-- the frame buffer `B` (R40): the bytes the host has filled, by offset -/
  mem        : List Host.Cell
  /-- what the last issued operation returned (R66); the model's own field (log entry 4) -/
  ret        : Ret
  /-- the bytes of operations issued outside the fixed control sequence; the model's own field (log entry 2) -/
  issue      : List Byte
deriving DecidableEq, Repr

/-- The machine right after reset (R39). `c.off`, `c.len`, the latch and the held values have no reset value in the
spec and are zero here (log entry 1). -/
def State.reset : State :=
  { phase := .idle
    ctrlStart := false
    caplen := 0
    wirelen := 0
    previewCap := Config.previewCapReset
    curLen := 0
    curOff := 0
    capLatch := 0
    held := Held.empty
    outcome := false
    reason := none
    record := none
    mem := []
    ret := .none
    issue := [] }

end Sys2Proof.Machine
end

