-- ==== Sys2Proof/Machine/Flags.lean ====
section
/-! DEFINITION. The `STATUS` register and the reason codes (spec/10_state.md R26, spec/60_exceptions.md R124). -/

namespace Sys2Proof.Machine

/-- The code of a reason (R124). -/
def SkipReason.code : SkipReason → BitVec 3
  | .tooShortForEthernet => 1
  | .notIpv4 => 2
  | .tooShortForIp => 3
  | .invalidIpHeaderLength => 4
  | .notTcp => 5
  | .tooShortForTcp => 6
  | .invalidTcpHeaderLength => 7

/-- The code of `REASON`: 0 is `None` (R124). -/
def reasonCode : Option SkipReason → BitVec 3
  | none => 0
  | some r => r.code

/-- `PHASE` is one of `S1` to `S7` (R26). -/
def Phase.busy : Phase → Bool
  | .idle => false
  | .s1 => true
  | .s2 => true
  | .s3 => true
  | .s4 => true
  | .s5 => true
  | .s6 => true
  | .s7 => true
  | .done => false

/-- `STATUS.BUSY` (R26). -/
def busy (s : State) : Bool := s.phase.busy

/-- `STATUS.DONE` (R26). -/
def isDone (s : State) : Bool := decide (s.phase = .done)

/-- Bits 5:2 of `STATUS`: `REASON` in 5:3, `OUTCOME` in 2 (R26). -/
def statusFields (s : State) : BitVec 4 := reasonCode s.reason ++ BitVec.ofBool s.outcome

/-- `STATUS` from its parts; bits 31:6 read as 0 (R26). -/
def statusFrom (fields : BitVec 4) (done busy : Bool) : U32 :=
  (0#26 ++ fields ++ BitVec.ofBool done ++ BitVec.ofBool busy : BitVec 32)

/-- What the whole of `STATUS` holds (R26). -/
def statusWord (s : State) : U32 := statusFrom (statusFields s) (isDone s) (busy s)

end Sys2Proof.Machine
end

