-- ==== Sys2Proof/Machine/Ops.lean ====
section
/-! DEFINITION. The operations shared by the meanings: the frame buffer and `MemRead` (spec/20_memory.md), the result
of an operation and `or fail` (spec/00_scope.md R16), the cursor's bounds law (spec/40_bytecursor.md R70, R71), the
start of a decode (R104) and its two ends, `Skipped(r)` and `Decoded` (R17, R127, R111). -/

namespace Sys2Proof.Machine

/-! ### The frame buffer -/

/-- The buffer's canonical form: offsets strictly rising, every one below 2^32 (R40). -/
def Memory.wf : List Host.Cell → Bool
  | [] => true
  | [c] => decide (c.1 < 2 ^ 32)
  | c :: d :: m => decide (c.1 < d.1) && Memory.wf (d :: m)

/-- `B[a]`; none where the host has filled nothing (U4). -/
def Memory.read : List Host.Cell → Nat → Option Byte
  | [], _ => none
  | c :: m, a => if c.1 = a then some c.2 else Memory.read m a

/-- The buffer with byte `b` at offset `a`, in canonical form. Only the host writes it (R43). -/
def Memory.write : List Host.Cell → Nat → Byte → List Host.Cell
  | [], a, b => [(a, b)]
  | c :: m, a, b =>
    if a < c.1 then (a, b) :: c :: m
    else if a = c.1 then (a, b) :: m
    else c :: Memory.write m a b

/-- The buffer with `bs` placed from offset `a` on. -/
def Memory.fill (m : List Host.Cell) : Nat → List Byte → List Host.Cell
  | _, [] => m
  | a, b :: bs => Memory.write (Memory.fill m (a + 1) bs) a b

/-- `B[a .. a+n)` in buffer order; none if one of the bytes was never filled. -/
def readSpan (m : List Host.Cell) (a : Nat) : Nat → Option (List Byte)
  | 0 => some []
  | n + 1 =>
    match Memory.read m a, readSpan m (a + 1) n with
    | some b, some bs => some (b :: bs)
    | _, _ => none

/-! ### The result of an operation -/

/-- How an operation ends: it succeeds with a value, fails with an error (R16), or the machine stops. The state is the
one the operation leaves, on a failure too. -/
inductive Run (ε α : Type) where
  | value (v : α) (s : State)
  | fail (e : ε) (s : State)
  | fault (f : Fault)
  | refused (r : Refusal)
deriving DecidableEq, Repr

/-- `x <- op; …`: go on with the value; a failure ends the caller with the same error (R16). -/
def Run.bind {ε α β : Type} (x : Run ε α) (k : α → State → Run ε β) : Run ε β :=
  match x with
  | .value v s => k v s
  | .fail e s => .fail e s
  | .fault f => .fault f
  | .refused r => .refused r

/-- `x <- op or fail e'` (R16). -/
def Run.orFail {ε ε' α : Type} (x : Run ε α) (e' : ε') : Run ε' α :=
  match x with
  | .value v s => .value v s
  | .fail _ s => .fail e' s
  | .fault f => .fault f
  | .refused r => .refused r

/-- The operation as an instruction of its own: what it returns goes to `ret`. -/
def Run.finish {ε α : Type} (x : Run ε α) (onValue : α → Ret) (onFail : ε → Ret) :
    Host.Outcome State Fault Refusal :=
  match x with
  | .value v s => .next { s with ret := onValue v }
  | .fail e s => .next { s with ret := onFail e }
  | .fault f => .fault f
  | .refused r => .refused r

/-- A cursor error as a returned value. -/
def cursorRet : CursorError → Ret
  | .outOfBounds => .outOfBounds

/-! ### The cursor -/

/-- `c.len - c.off` (R79). -/
def remaining (s : State) : Nat := s.curLen.toNat - s.curOff.toNat

/-- `MemRead(addr, n)` (R42): without a meaning outside `[0, c.len)`, and refused where the host filled no byte. -/
def memRead {ε : Type} (addr n : Nat) (s : State) : Run ε (List Byte) :=
  if s.curLen.toNat < addr + n then .fault .readBeyondCaplen
  else
    match readSpan s.mem addr n with
    | some bs => .value bs s
    | none => .refused .unfilledFrameByte

/-- `c.off <- c.off + n` (R71). -/
def moveCursor (n : Nat) (s : State) : State :=
  { s with curOff := BitVec.ofNat 32 (s.curOff.toNat + n) }

/-- The bounds law (R70) in the form `c.off + n > c.len`, and then the `n` bytes, the cursor moved past them (R71). -/
def takeBytes (n : Nat) (s : State) : Run CursorError (List Byte) :=
  if s.curLen.toNat < s.curOff.toNat + n then .fail .outOfBounds s
  else (memRead s.curOff.toNat n s).bind fun bs s => .value bs (moveCursor n s)

/-- The bounds law (R70) and the move alone: the skipped bytes are not read (R80). -/
def skipBytes (n : Nat) (s : State) : Run CursorError Unit :=
  if s.curLen.toNat < s.curOff.toNat + n then .fail .outOfBounds s
  else .value () (moveCursor n s)

/-! ### The start of a decode and its two ends -/

/-- A start command accepted (R104): `CAPLEN` and `PREVIEW_CAP` sampled, registers 5 to 31 emptied, the cursor made
anew, `PHASE <- S1`. This is also how the machine goes on after a skip; there is no other return (R129). Whether
the host filled the bytes below `CAPLEN` (R141) is not looked at here (DESIGN CHOICE, log entry 17). -/
def accept (s : State) : State :=
  { s with
    phase := .s1
    ctrlStart := false
    curLen := s.caplen
    curOff := 0
    capLatch := s.previewCap
    held := Held.empty
    record := none
    ret := .none }

/-- `IDLE` and `DONE` (R104, R138): accept a start command where `CTRL.START` is set, else do nothing. The host's write
of 1 goes through it, so that no command is ever left standing. -/
def await (s : State) : Host.Outcome State Fault Refusal :=
  if s.ctrlStart then .next (accept s) else .next s

/-- `Skipped(r)` (R17, R127): the one entry every failure of a decode takes. The held values are dropped. -/
def skipped (r : SkipReason) (s : State) : State :=
  { s with
    phase := .done
    held := Held.empty
    outcome := false
    reason := some r
    record := none }

/-- `min(cap, payload_len)` (R117). -/
def previewLength (cap payloadLen : U32) : U32 := if cap ≤ payloadLen then cap else payloadLen

/-- The record step 7 writes (R111). -/
def recordOf (s : State) : Record :=
  { eth := s.held.eth
    ip := s.held.ip
    tcp := s.held.tcp
    payloadOff := s.curOff
    payloadLen := s.held.payloadLen
    previewLen := previewLength s.capLatch s.held.payloadLen
    capturedTotal := s.curLen }

/-- `Decoded` with every result register written (R17, R111). -/
def decoded (s : State) : State :=
  { s with
    phase := .done
    held := Held.empty
    outcome := true
    reason := none
    record := some (recordOf s) }

end Sys2Proof.Machine
end

