-- ==== Sys2Proof/Machine/Cursor.lean ====
section
/-! DEFINITION. The six ByteCursor operations (spec/40_bytecursor.md R75 to R80), each as the typed operation the
readers call and as an instruction. -/

namespace Sys2Proof.Machine

/-- `CUR.READ_U8` (R75). -/
def readU8 (s : State) : Run CursorError Byte :=
  (takeBytes 1 s).bind fun bs s => .value (bs.getD 0 0) s

/-- `CUR.READ_U16_BE` (R76). -/
def readU16Be (s : State) : Run CursorError U16 :=
  (takeBytes 2 s).bind fun bs s => .value (be16 (bs.getD 0 0) (bs.getD 1 0)) s

/-- `CUR.READ_U32_BE` (R77). -/
def readU32Be (s : State) : Run CursorError U32 :=
  (takeBytes 4 s).bind fun bs s => .value (be32 (bs.getD 0 0) (bs.getD 1 0) (bs.getD 2 0) (bs.getD 3 0)) s

/-- `CUR.READ_BYTES n` (R78). -/
def readBytes (n : Nat) (s : State) : Run CursorError (List Byte) := takeBytes n s

/-- `CUR.REMAINING` (R79). -/
def remainingWord (s : State) : U32 := BitVec.ofNat 32 (remaining s)

/-- `CUR.ADVANCE n` (R80). -/
def advance (n : Nat) (s : State) : Run CursorError Unit := skipBytes n s

/-- The instruction `CUR.READ_U8` (R75). -/
def execCurReadU8 (s : State) : Host.Outcome State Fault Refusal :=
  (readU8 s).finish Ret.u8 cursorRet

/-- The instruction `CUR.READ_U16_BE` (R76). -/
def execCurReadU16Be (s : State) : Host.Outcome State Fault Refusal :=
  (readU16Be s).finish Ret.u16 cursorRet

/-- The instruction `CUR.READ_U32_BE` (R77). -/
def execCurReadU32Be (s : State) : Host.Outcome State Fault Refusal :=
  (readU32Be s).finish Ret.u32 cursorRet

/-- The instruction `CUR.READ_BYTES n` (R78): the view `(c.off, n)` and its bytes. -/
def execCurReadBytes (n : U32) (s : State) : Host.Outcome State Fault Refusal :=
  (readBytes n.toNat s).finish (Ret.view s.curOff n) cursorRet

/-- The instruction `CUR.REMAINING` (R79). -/
def execCurRemaining (s : State) : Host.Outcome State Fault Refusal :=
  .next { s with ret := .u32 (remainingWord s) }

/-- The instruction `CUR.ADVANCE n` (R80). -/
def execCurAdvance (n : U32) (s : State) : Host.Outcome State Fault Refusal :=
  (advance n.toNat s).finish (fun _ => Ret.ok) cursorRet

end Sys2Proof.Machine
end

