-- ==== Sys2Proof/Machine/Ethernet.lean ====
section
/-! DEFINITION. The EthernetHeaderReader (spec/41_ethernet.md R82, R83) and the wire rows of format ETH (R106). -/

namespace Sys2Proof.Machine

/-- `ETH.READ` (R83). An `OutOfBounds` would become `TooShortForEthernet`; none can arise (R125). -/
def readEthernet (s : State) : Run SkipReason EthernetHeader :=
  if remaining s < Config.ethHlen then .fail .tooShortForEthernet s
  else
    ((readBytes 6 s).orFail .tooShortForEthernet).bind fun dst s =>
    ((readBytes 6 s).orFail .tooShortForEthernet).bind fun src s =>
    ((readU16Be s).orFail .tooShortForEthernet).bind fun ty s =>
    .value { destMac := macOf dst, srcMac := macOf src, etherType := ty } s

/-- The instruction `ETH.READ` (R83). -/
def execEthRead (s : State) : Host.Outcome State Fault Refusal :=
  (readEthernet s).finish Ret.eth Ret.skip

/-- `ETH.IPV4`: after the length check, go on with step 3 at the end of the 14-byte header (R106). -/
def execEthIpv4 (h : EthernetHeader) (s : State) : Host.Outcome State Fault Refusal :=
  if s.curLen.toNat < Config.ethHlen then .next (skipped .tooShortForEthernet s)
  else .next { s with phase := .s3, curOff := BitVec.ofNat 32 Config.ethHlen, held := { s.held with eth := h } }

/-- `ETH.OTHER`: after the length check, `Skipped(NotIpv4)`; no field of the header is looked at (R106). -/
def execEthOther (_h : EthernetHeader) (s : State) : Host.Outcome State Fault Refusal :=
  if s.curLen.toNat < Config.ethHlen then .next (skipped .tooShortForEthernet s)
  else .next (skipped .notIpv4 s)

end Sys2Proof.Machine
end

