-- ==== Sys2Proof/Machine/Ipv4.lean ====
section
/-! DEFINITION. The Ipv4HeaderReader (spec/42_ipv4.md R85 to R91) and the wire rows of format IP4 (R88, R89, R108). -/

namespace Sys2Proof.Machine

/-- The nine reads of the fixed portion after byte 0 (R90), every `OutOfBounds` made `TooShortForIp` (R125). -/
def readIpv4Fixed (version headerLenWords : U4) (s : State) : Run SkipReason Ipv4Header :=
  ((readU8 s).orFail .tooShortForIp).bind fun tos s =>
  ((readU16Be s).orFail .tooShortForIp).bind fun totalLen s =>
  ((readU16Be s).orFail .tooShortForIp).bind fun id s =>
  ((readU16Be s).orFail .tooShortForIp).bind fun flagsFrag s =>
  ((readU8 s).orFail .tooShortForIp).bind fun ttl s =>
  ((readU8 s).orFail .tooShortForIp).bind fun protocol s =>
  ((readU16Be s).orFail .tooShortForIp).bind fun checksum s =>
  ((readBytes 4 s).orFail .tooShortForIp).bind fun src s =>
  ((readBytes 4 s).orFail .tooShortForIp).bind fun dst s =>
  .value
    { version := version, headerLenWords := headerLenWords, tos := tos, totalLen := totalLen, id := id,
      flagsFrag := flagsFrag, ttl := ttl, protocol := protocol, checksum := checksum, srcAddr := addrOf src,
      dstAddr := addrOf dst } s

/-- The option skip (R91): one `CUR.ADVANCE` if `header_len_words > 5`, none otherwise. -/
def skipIpv4Options (ip : Ipv4Header) (s : State) : Run SkipReason Ipv4Header :=
  if Config.ipMinWords < ip.headerLenWords.toNat then
    ((advance (optionBytes ip.headerLenWords) s).orFail .tooShortForIp).bind fun _ s => .value ip s
  else .value ip s

/-- `IP4.READ` (R86): the first byte, its split (R87), the length check (R88), the version check (R89), the fixed
portion (R90), the option skip (R91). -/
def readIpv4 (s : State) : Run SkipReason Ipv4Header :=
  if remaining s < 1 then .fail .tooShortForIp s
  else
    ((readU8 s).orFail .tooShortForIp).bind fun b0 s =>
    if (lowNibble b0).toNat < Config.ipMinWords then .fail .invalidIpHeaderLength s
    else if highNibble b0 ≠ Config.ipVersion then .fail .notIpv4 s
    else (readIpv4Fixed (highNibble b0) (lowNibble b0) s).bind skipIpv4Options

/-- The instruction `IP4.READ` (R86). -/
def execIp4Read (s : State) : Host.Outcome State Fault Refusal :=
  (readIpv4 s).finish Ret.ip4 Ret.skip

/-- The rows decided by byte 0 alone: `TooShortForIp` if there is no byte 0, else the row's reason. -/
def byteZeroRow (r : SkipReason) (s : State) : Host.Outcome State Fault Refusal :=
  if s.curLen.toNat < Config.ethHlen + 1 then .next (skipped .tooShortForIp s)
  else .next (skipped r s)

/-- `IP4.IHL_0_3`: `Skipped(InvalidIpHeaderLength)` (R88). -/
def execIp4Ihl03 (_h : Ipv4Header) (s : State) : Host.Outcome State Fault Refusal :=
  byteZeroRow .invalidIpHeaderLength s

/-- `IP4.IHL_4`: `Skipped(InvalidIpHeaderLength)` (R88). -/
def execIp4Ihl4 (_h : Ipv4Header) (s : State) : Host.Outcome State Fault Refusal :=
  byteZeroRow .invalidIpHeaderLength s

/-- The offset just past the IPv4 header: `14 + 4 * header_len_words` (R85). -/
def ip4End (h : Ipv4Header) : Nat := Config.ethHlen + headerBytes h.headerLenWords

/-- `IP4.V4_TCP`: the whole header must lie within `caplen`; then go on with step 5 past the options (R108). -/
def execIp4V4Tcp (h : Ipv4Header) (s : State) : Host.Outcome State Fault Refusal :=
  if s.curLen.toNat < ip4End h then .next (skipped .tooShortForIp s)
  else .next { s with phase := .s5, curOff := BitVec.ofNat 32 (ip4End h), held := { s.held with ip := h } }

/-- `IP4.V4_OTHER`: the whole header must lie within `caplen`; then `Skipped(NotTcp)` (R108). -/
def execIp4V4Other (h : Ipv4Header) (s : State) : Host.Outcome State Fault Refusal :=
  if s.curLen.toNat < ip4End h then .next (skipped .tooShortForIp s)
  else .next (skipped .notTcp s)

/-- `IP4.NOT_V4`: `Skipped(NotIpv4)`, decided by byte 0 alone (R89). -/
def execIp4NotV4 (_h : Ipv4Header) (s : State) : Host.Outcome State Fault Refusal :=
  byteZeroRow .notIpv4 s

end Sys2Proof.Machine
end

