-- ==== Sys2Proof/Machine/Tcp.lean ====
section
/-! DEFINITION. The TcpHeaderReader (spec/43_tcp.md R94 to R99) and the wire rows of format TCP (R98, R99). -/

namespace Sys2Proof.Machine

/-- The nine reads of the fixed portion (R95), every `OutOfBounds` made `TooShortForTcp` (R125). The reserved low
nibble of byte 12 is discarded (R97). -/
def readTcpFixed (s : State) : Run SkipReason TcpHeader :=
  ((readU16Be s).orFail .tooShortForTcp).bind fun srcPort s =>
  ((readU16Be s).orFail .tooShortForTcp).bind fun dstPort s =>
  ((readU32Be s).orFail .tooShortForTcp).bind fun seq s =>
  ((readU32Be s).orFail .tooShortForTcp).bind fun ack s =>
  ((readU8 s).orFail .tooShortForTcp).bind fun b12 s =>
  ((readU8 s).orFail .tooShortForTcp).bind fun flags s =>
  ((readU16Be s).orFail .tooShortForTcp).bind fun window s =>
  ((readU16Be s).orFail .tooShortForTcp).bind fun checksum s =>
  ((readU16Be s).orFail .tooShortForTcp).bind fun urgentPtr s =>
  .value
    { srcPort := srcPort, dstPort := dstPort, seq := seq, ack := ack, dataOffsetWords := highNibble b12,
      flags := flags, window := window, checksum := checksum, urgentPtr := urgentPtr } s

/-- The option skip (R99): one `CUR.ADVANCE` if `data_offset_words > 5`, none otherwise. -/
def skipTcpOptions (tcp : TcpHeader) (s : State) : Run SkipReason TcpHeader :=
  if Config.tcpMinWords < tcp.dataOffsetWords.toNat then
    ((advance (optionBytes tcp.dataOffsetWords) s).orFail .tooShortForTcp).bind fun _ s => .value tcp s
  else .value tcp s

/-- `TCP.READ` (R95): the 20-byte test (R96), the nine reads, the range check (R98), the option skip (R99). -/
def readTcp (s : State) : Run SkipReason TcpHeader :=
  if remaining s < Config.tcpFixedLen then .fail .tooShortForTcp s
  else
    (readTcpFixed s).bind fun tcp s =>
    if tcp.dataOffsetWords.toNat < Config.tcpMinWords then .fail .invalidTcpHeaderLength s
    else skipTcpOptions tcp s

/-- The instruction `TCP.READ` (R95). -/
def execTcpRead (s : State) : Host.Outcome State Fault Refusal :=
  (readTcp s).finish Ret.tcp Ret.skip

/-- `t`, the frame offset of the TCP header: `14 + 4 * IP_HLW` of the IPv4 header held (R31). -/
def tcpStart (s : State) : Nat := ip4End s.held.ip

/-- The rows that end in `InvalidTcpHeaderLength` once the fixed portion is present. -/
def dataOffsetRow (s : State) : Host.Outcome State Fault Refusal :=
  if s.curLen.toNat < tcpStart s + Config.tcpFixedLen then .next (skipped .tooShortForTcp s)
  else .next (skipped .invalidTcpHeaderLength s)

/-- `TCP.DOFF_0_3`: `Skipped(InvalidTcpHeaderLength)` (R98). -/
def execTcpDoff03 (_h : TcpHeader) (_reserved : U4) (s : State) : Host.Outcome State Fault Refusal :=
  dataOffsetRow s

/-- `TCP.DOFF_4`: `Skipped(InvalidTcpHeaderLength)` (R98). -/
def execTcpDoff4 (_h : TcpHeader) (_reserved : U4) (s : State) : Host.Outcome State Fault Refusal :=
  dataOffsetRow s

/-- The offset just past the TCP header: `t + 4 * data_offset_words` (R94). -/
def tcpEnd (h : TcpHeader) (s : State) : Nat := tcpStart s + headerBytes h.dataOffsetWords

/-- `TCP.OK`: the fixed portion and then the options must lie within `caplen`; then steps 6 and 7, `Decoded` (R99,
R110, R111). -/
def execTcpOk (h : TcpHeader) (_reserved : U4) (s : State) : Host.Outcome State Fault Refusal :=
  if s.curLen.toNat < tcpStart s + Config.tcpFixedLen then .next (skipped .tooShortForTcp s)
  else if s.curLen.toNat < tcpEnd h s then .next (skipped .tooShortForTcp s)
  else
    .next (decoded
      { s with
        curOff := BitVec.ofNat 32 (tcpEnd h s)
        held := { s.held with tcp := h, payloadLen := BitVec.ofNat 32 (s.curLen.toNat - tcpEnd h s) } })

end Sys2Proof.Machine
end

