-- ==== Sys2Proof/Machine/Frame.lean ====
section
/-! DEFINITION. `FRAME.DECODE` (spec/44_framedecoder.md R103) as one operation, and the seven steps of the fixed
control sequence (R104 to R111) as `PHASE` takes them one by one. -/

namespace Sys2Proof.Machine

/-- `or Skipped(r)` (R103): a reader's failure is the frame's result, its value goes on. -/
def Run.orSkipped {α : Type} (x : Run SkipReason α) (k : α → State → Host.Outcome State Fault Refusal) :
    Host.Outcome State Fault Refusal :=
  match x with
  | .value v s => k v s
  | .fail r s => .next (skipped r s)
  | .fault f => .fault f
  | .refused r => .refused r

/-- `payload_len = caplen - 14 - 4 * ihl - 4 * doff` (R103 step 6, R110). -/
def payloadLength (s : State) (ip : Ipv4Header) (tcp : TcpHeader) : U32 :=
  BitVec.ofNat 32
    (s.curLen.toNat - Config.ethHlen - headerBytes ip.headerLenWords - headerBytes tcp.dataOffsetWords)

/-- Steps 1 to 7 of R103 in one go, from a state that has just accepted a start. -/
def decodeFrame (s : State) : Host.Outcome State Fault Refusal :=
  (readEthernet s).orSkipped fun eth s =>
  if eth.etherType ≠ Config.ethertypeIpv4 then .next (skipped .notIpv4 s)
  else
    (readIpv4 s).orSkipped fun ip s =>
    if ip.protocol ≠ Config.ipprotoTcp then .next (skipped .notTcp s)
    else
      (readTcp s).orSkipped fun tcp s =>
      .next (decoded
        { s with held := { eth := eth, ip := ip, tcp := tcp, payloadLen := payloadLength s ip tcp } })

/-- The instruction `FRAME.DECODE` (R103): refused while a decode is in progress (U1, R145), otherwise the start
(R104) and the seven steps. DESIGN CHOICE (log entry 17): a start with `CAPLEN` beyond the bytes the host filled (U4,
R141) is not refused as such. The decode stops at the first unfilled byte it reads, and one that reads none, the gap
lying in options, payload or behind an early skip, ends as it would with that gap filled. -/
def execFrameDecode (s : State) : Host.Outcome State Fault Refusal :=
  if busy s then .refused .startWhileBusy else decodeFrame (accept s)

/-- Step 1 (R105). -/
def step1 (s : State) : Host.Outcome State Fault Refusal :=
  (readEthernet s).orSkipped fun h s => .next { s with phase := .s2, held := { s.held with eth := h } }

/-- The effect of the wire row of format ETH that a header matches. -/
def runEthRow (h : EthernetHeader) (s : State) : Host.Outcome State Fault Refusal :=
  if h.etherType = Config.ethertypeIpv4 then execEthIpv4 h s else execEthOther h s

/-- Step 2 (R106): the held Ethernet header picks its wire row. -/
def step2 (s : State) : Host.Outcome State Fault Refusal := runEthRow s.held.eth s

/-- Step 3 (R107). -/
def step3 (s : State) : Host.Outcome State Fault Refusal :=
  (readIpv4 s).orSkipped fun h s => .next { s with phase := .s4, held := { s.held with ip := h } }

/-- Step 4 (R108): the held IPv4 header, which step 3 found to be version 4 with a legal length, picks its wire row. -/
def step4 (s : State) : Host.Outcome State Fault Refusal :=
  if s.held.ip.protocol = Config.ipprotoTcp then execIp4V4Tcp s.held.ip s else execIp4V4Other s.held.ip s

/-- Step 5 (R109). -/
def step5 (s : State) : Host.Outcome State Fault Refusal :=
  (readTcp s).orSkipped fun h s => .next { s with phase := .s6, held := { s.held with tcp := h } }

/-- Step 6 (R110): `payload_len` is `CUR.REMAINING` at this point. -/
def step6 (s : State) : Host.Outcome State Fault Refusal :=
  .next { s with phase := .s7, held := { s.held with payloadLen := remainingWord s } }

/-- Step 7 (R111). -/
def step7 (s : State) : Host.Outcome State Fault Refusal := .next (decoded s)

/-- The fixed control sequence (R24, R53): the step `PHASE` names. -/
def controlStep (s : State) : Host.Outcome State Fault Refusal :=
  match s.phase with
  | .idle => await s
  | .s1 => step1 s
  | .s2 => step2 s
  | .s3 => step3 s
  | .s4 => step4 s
  | .s5 => step5 s
  | .s6 => step6 s
  | .s7 => step7 s
  | .done => await s

end Sys2Proof.Machine
end

