-- ==== Sys2Proof/Machine/Dispatch.lean ====
section
/-! DEFINITION. One arm per row of spec/opcode_table.json. -/

namespace Sys2Proof.Machine

/-- The effect of one instruction. -/
def exec (i : Instr) (s : State) : Host.Outcome State Fault Refusal :=
  match i with
  | .curReadU8 => Sys2Proof.Machine.execCurReadU8 s
  | .curReadU16Be => Sys2Proof.Machine.execCurReadU16Be s
  | .curReadU32Be => Sys2Proof.Machine.execCurReadU32Be s
  | .curReadBytes n => Sys2Proof.Machine.execCurReadBytes n s
  | .curRemaining => Sys2Proof.Machine.execCurRemaining s
  | .curAdvance n => Sys2Proof.Machine.execCurAdvance n s
  | .ethRead => Sys2Proof.Machine.execEthRead s
  | .ip4Read => Sys2Proof.Machine.execIp4Read s
  | .tcpRead => Sys2Proof.Machine.execTcpRead s
  | .frameDecode => Sys2Proof.Machine.execFrameDecode s
  | .ethIpv4 h => Sys2Proof.Machine.execEthIpv4 h s
  | .ethOther h => Sys2Proof.Machine.execEthOther h s
  | .ip4Ihl03 h => Sys2Proof.Machine.execIp4Ihl03 h s
  | .ip4Ihl4 h => Sys2Proof.Machine.execIp4Ihl4 h s
  | .ip4V4Tcp h => Sys2Proof.Machine.execIp4V4Tcp h s
  | .ip4V4Other h => Sys2Proof.Machine.execIp4V4Other h s
  | .ip4NotV4 h => Sys2Proof.Machine.execIp4NotV4 h s
  | .tcpDoff03 h reserved => Sys2Proof.Machine.execTcpDoff03 h reserved s
  | .tcpDoff4 h reserved => Sys2Proof.Machine.execTcpDoff4 h reserved s
  | .tcpOk h reserved => Sys2Proof.Machine.execTcpOk h reserved s

end Sys2Proof.Machine
end

