-- ==== Sys2Proof/Machine/Step.lean ====
section
/-! DEFINITION. One step of the machine. -/

namespace Sys2Proof.Machine

/-- One step: an issued operation if one stands in `issue` (log entry 2), else the step of the fixed control sequence
that `PHASE` names (R24). On the hardware itself `issue` is always empty. -/
def step (s : State) : Host.Outcome State Fault Refusal :=
  match s.issue with
  | [] => controlStep s
  | b :: bs =>
    match decode (b :: bs) with
    | some (i, rest) => exec i { s with issue := rest }
    | none => .refused .reservedEncoding

/-- `s` with the one instruction of a table word issued next (log entry 3). -/
def State.withFetchWord (s : State) (nbits w : Nat) : State := { s with issue := oneInstrBytes nbits w }

end Sys2Proof.Machine
end

