-- ==== Sys2Proof/Machine/HostPort.lean ====
section
/-! DEFINITION. What the host can do to HDRPARSE between its steps (spec/10_state.md R23, R27, R28, R33 to R35;
spec/70_reset_and_hazards.md R139, R141 to R147): write an input register, give a start command, fill the frame
buffer, assert reset, and read a register. A host error (R130) is refused and changes nothing. -/

namespace Sys2Proof.Machine

/-- The host-written registers other than `CTRL` (R23). -/
inductive InputReg where
  | caplen | wirelen | previewCap
deriving DecidableEq, Repr

/-- What the host can do to the state. -/
inductive HostAction where
  /-- a write of `CTRL` (R23); bit 0 is `START` (DESIGN CHOICE, log entry 15) -/
  | writeCtrl (v : U32)
  /-- a write of an input register (R23) -/
  | writeInput (r : InputReg) (v : U32)
  /-- a write of one byte of the frame buffer (R27) -/
  | writeBuffer (offset : U32) (b : Byte)
  /-- reset (R139) -/
  | assertReset
deriving DecidableEq, Repr

/-- An input register written (R23). -/
def setInput (r : InputReg) (v : U32) (s : State) : State :=
  match r with
  | .caplen => { s with caplen := v }
  | .wirelen => { s with wirelen := v }
  | .previewCap => { s with previewCap := v }

/-- Reset (R139): every piece of state at its reset value, in any phase; the frame buffer is not touched. -/
def resetState (s : State) : State := { State.reset with mem := s.mem }

/-- The host's action on the state. A start command is accepted by the write that gives it (R24, R104), so that from
this write on `BUSY = 1` and the result registers hold nothing. DESIGN CHOICE (log entry 15): `CTRL` is written as 32
bits, `START` is its bit 0, and a 1 in another bit does nothing; R23 gives `START` one bit and no position. A write
of `CTRL` while busy is refused whatever it writes (R145, log entry 8). -/
def hostAct (a : HostAction) (s : State) : Host.Outcome State Fault Refusal :=
  match a with
  | .writeCtrl v =>
    if busy s then .refused .startWhileBusy
    else if v.getLsbD 0 then await { s with ctrlStart := true }
    else .next s
  | .writeInput r v => if busy s then .refused .writeWhileBusy else .next (setInput r v s)
  | .writeBuffer offset b =>
    if busy s && decide (offset < s.curLen) then .refused .bufferWriteWhileBusy
    else .next { s with mem := Memory.write s.mem offset.toNat b }
  | .assertReset => .next (resetState s)

/-- The registers of R33, by name. -/
inductive HostReg where
  | ctrl | status | caplen | wirelen | previewCap
  | ethDst | ethSrc | ethType
  | ipVersion | ipHlw | ipTos | ipTotalLen | ipId | ipFlagsFrag | ipTtl | ipProtocol | ipChecksum | ipSrc | ipDst
  | tcpSrcPort | tcpDstPort | tcpSeq | tcpAck | tcpDoff | tcpFlags | tcpWindow | tcpChecksum | tcpUrgent
  | payloadOff | payloadLen | previewLen | capturedTotal
deriving DecidableEq, Repr

/-- The registers in the order of their numbers (R33). -/
def HostReg.all : List HostReg :=
  [.ctrl, .status, .caplen, .wirelen, .previewCap, .ethDst, .ethSrc, .ethType,
   .ipVersion, .ipHlw, .ipTos, .ipTotalLen, .ipId, .ipFlagsFrag, .ipTtl, .ipProtocol,
   .ipChecksum, .ipSrc, .ipDst, .tcpSrcPort, .tcpDstPort, .tcpSeq, .tcpAck, .tcpDoff,
   .tcpFlags, .tcpWindow, .tcpChecksum, .tcpUrgent, .payloadOff, .payloadLen, .previewLen, .capturedTotal]

/-- What a host read yields (log entry 14): a number (widened with zeros, R13), a byte sequence, single bits of which
some may yield no value, or no meaning at all. -/
inductive ReadAnswer where
  | word (v : U32)
  | bytes (bs : List Byte)
  /-- bit 0 first; none is a bit that yields no value -/
  | bits (bs : List (Option Bool))
  | refused (r : Refusal)
deriving DecidableEq, Repr

/-- A result register of a full record (R29 to R32); none for the five registers that are not in it. -/
def recordReg (r : HostReg) (rec : Record) : Option ReadAnswer :=
  match r with
  | .ctrl => none
  | .status => none
  | .caplen => none
  | .wirelen => none
  | .previewCap => none
  | .ethDst => some (.bytes (macBytes rec.eth.destMac))
  | .ethSrc => some (.bytes (macBytes rec.eth.srcMac))
  | .ethType => some (.word (rec.eth.etherType.setWidth 32))
  | .ipVersion => some (.word (rec.ip.version.setWidth 32))
  | .ipHlw => some (.word (rec.ip.headerLenWords.setWidth 32))
  | .ipTos => some (.word (rec.ip.tos.setWidth 32))
  | .ipTotalLen => some (.word (rec.ip.totalLen.setWidth 32))
  | .ipId => some (.word (rec.ip.id.setWidth 32))
  | .ipFlagsFrag => some (.word (rec.ip.flagsFrag.setWidth 32))
  | .ipTtl => some (.word (rec.ip.ttl.setWidth 32))
  | .ipProtocol => some (.word (rec.ip.protocol.setWidth 32))
  | .ipChecksum => some (.word (rec.ip.checksum.setWidth 32))
  | .ipSrc => some (.bytes (addrBytes rec.ip.srcAddr))
  | .ipDst => some (.bytes (addrBytes rec.ip.dstAddr))
  | .tcpSrcPort => some (.word (rec.tcp.srcPort.setWidth 32))
  | .tcpDstPort => some (.word (rec.tcp.dstPort.setWidth 32))
  | .tcpSeq => some (.word rec.tcp.seq)
  | .tcpAck => some (.word rec.tcp.ack)
  | .tcpDoff => some (.word (rec.tcp.dataOffsetWords.setWidth 32))
  | .tcpFlags => some (.word (rec.tcp.flags.setWidth 32))
  | .tcpWindow => some (.word (rec.tcp.window.setWidth 32))
  | .tcpChecksum => some (.word (rec.tcp.checksum.setWidth 32))
  | .tcpUrgent => some (.word (rec.tcp.urgentPtr.setWidth 32))
  | .payloadOff => some (.word rec.payloadOff)
  | .payloadLen => some (.word rec.payloadLen)
  | .previewLen => some (.word rec.previewLen)
  | .capturedTotal => some (.word rec.capturedTotal)

/-- Bit `i` of a read of `STATUS` (R26). `OUTCOME` and `REASON`, bits 5:2, yield no value while `DONE = 0` (R35, R146,
spec/90_conflicts.md C7), and are never what an earlier frame left (log entry 5). -/
def statusBit (s : State) (i : Nat) : Option Bool :=
  if 2 ≤ i ∧ i ≤ 5 ∧ isDone s = false then none else some ((statusWord s).getLsbD i)

/-- A host read of a register (R33, R35). A read changes nothing. `CTRL` reads as 0 (R23, R33). A result register
yields a value only while `DONE = 1` and it holds one. -/
def hostRead (r : HostReg) (s : State) : ReadAnswer :=
  match r with
  | .ctrl => .word 0
  | .status => .bits ((List.range 32).map (statusBit s))
  | .caplen => .word s.caplen
  | .wirelen => .word s.wirelen
  | .previewCap => .word s.previewCap
  | r =>
    if isDone s then
      match s.record.bind (recordReg r) with
      | some v => v
      | none => .refused .readOfNoValue
    else .refused .readOfNoValue

/-- A host read of the field `STATUS.OUTCOME`: no meaning unless `DONE = 1` (R26, R35). -/
def hostReadOutcome (s : State) : ReadAnswer :=
  if isDone s then .word (BitVec.setWidth 32 (BitVec.ofBool s.outcome)) else .refused .readOfNoValue

/-- A host read of the field `STATUS.REASON`: no meaning unless `DONE = 1` (R26, R35). -/
def hostReadReason (s : State) : ReadAnswer :=
  if isDone s then .word ((reasonCode s.reason).setWidth 32) else .refused .readOfNoValue

/-- The payload (R32, R55): the bytes that now stand in the buffer where the view `(PAYLOAD_OFF, PAYLOAD_LEN)` points.
DESIGN CHOICE (log entry 16): a host that has overwritten the buffer in `DONE` reads the new bytes; the view is then
no longer the payload (R55), and the spec does not say what such a late read yields (R143, R147). -/
def payloadView (s : State) : Option (List Byte) :=
  s.record.bind fun r => readSpan s.mem r.payloadOff.toNat r.payloadLen.toNat

/-- The preview (R117): the first `PREVIEW_LEN` bytes at `PAYLOAD_OFF`, read like the payload (log entry 16). -/
def previewView (s : State) : Option (List Byte) :=
  s.record.bind fun r => readSpan s.mem r.payloadOff.toNat r.previewLen.toNat

end Sys2Proof.Machine
end

