-- ==== Sys2Proof/Machine/Instances.lean ====
section
/-! DEFINITION. Several HDRPARSE blocks (spec/60_exceptions.md R136): a list of states, its length `INSTANCES` of
spec/00_scope.md R10, each with its own registers and its own frame buffer. -/

namespace Sys2Proof.Machine

/-- Replace instance `k` by what an action on it alone answers; a stop of that instance is the answer. -/
def onInstance (k : Nat) (f : State → Host.Outcome State Fault Refusal) (ss : List State) :
    Host.Outcome (List State) Fault Refusal :=
  match ss[k]? with
  | none => .next ss
  | some s =>
    match f s with
    | .next t => .next (ss.set k t)
    | .fault r => .fault r
    | .refused r => .refused r

/-- Instance `k` takes one step. -/
def stepInstance (k : Nat) (ss : List State) : Host.Outcome (List State) Fault Refusal := onInstance k step ss

/-- The host of instance `k` acts on it. -/
def actInstance (k : Nat) (a : HostAction) (ss : List State) : Host.Outcome (List State) Fault Refusal :=
  onInstance k (hostAct a) ss

end Sys2Proof.Machine
end

