-- ==== Sys2Proof/Safety.lean ====
section
/-! DEFINITION. The words the statements are made of: the host's obligations (spec/70_reset_and_hazards.md R141), the
headers as they stand in the frame buffer (spec/30_encoding.md R57 to R60), the decision list of
spec/44_framedecoder.md R112, and the invariant of a run. -/

namespace Sys2Proof.Safety

open Sys2Proof.Machine

/-! ### What the host has done before a start -/

/-- `PHASE` is `IDLE` or `DONE`: a start command is accepted (R24). -/
abbrev Ready (s : State) : Prop := busy s = false

/-- Every byte of `B[a .. a+n)` has been filled by the host (R141 item 1). -/
abbrev Filled (m : List Host.Cell) (a n : Nat) : Prop := ∀ k, k < n → (Memory.read m (a + k)).isSome = true

/-- Two buffers show the same bytes below `n`. -/
abbrev SameBelow (m m' : List Host.Cell) (n : Nat) : Prop := ∀ a, a < n → Memory.read m a = Memory.read m' a

/-- The buffer shows `bs` from offset `a` on. -/
abbrev Shows (m : List Host.Cell) (a : Nat) (bs : List Byte) : Prop :=
  ∀ k, k < bs.length → Memory.read m (a + k) = bs[k]?

/-! ### Headers in the buffer (meant for filled bytes) -/

/-- The byte at offset `a`, 0 where none was filled: used by statements only where the byte is filled or does not
matter. -/
def byteAt (m : List Host.Cell) (a : Nat) : Byte := (Memory.read m a).getD 0

/-- The big-endian `u16` at `a` (R60 b). -/
def u16At (m : List Host.Cell) (a : Nat) : U16 := be16 (byteAt m a) (byteAt m (a + 1))

/-- The big-endian `u32` at `a` (R60 c). -/
def u32At (m : List Host.Cell) (a : Nat) : U32 :=
  be32 (byteAt m a) (byteAt m (a + 1)) (byteAt m (a + 2)) (byteAt m (a + 3))

/-- The six bytes at `a`. -/
def macAt (m : List Host.Cell) (a : Nat) : Mac :=
  ⟨byteAt m a, byteAt m (a + 1), byteAt m (a + 2), byteAt m (a + 3), byteAt m (a + 4), byteAt m (a + 5)⟩

/-- The four bytes at `a`. -/
def addrAt (m : List Host.Cell) (a : Nat) : Ipv4Addr :=
  ⟨byteAt m a, byteAt m (a + 1), byteAt m (a + 2), byteAt m (a + 3)⟩

/-- The Ethernet header at `a`, field by field at the offsets of R57. -/
def ethAt (m : List Host.Cell) (a : Nat) : EthernetHeader :=
  { destMac := macAt m a, srcMac := macAt m (a + 6), etherType := u16At m (a + 12) }

/-- The IPv4 header at `h`, field by field at the offsets of R30 and R58. -/
def ip4At (m : List Host.Cell) (h : Nat) : Ipv4Header :=
  { version := highNibble (byteAt m h)
    headerLenWords := lowNibble (byteAt m h)
    tos := byteAt m (h + 1)
    totalLen := u16At m (h + 2)
    id := u16At m (h + 4)
    flagsFrag := u16At m (h + 6)
    ttl := byteAt m (h + 8)
    protocol := byteAt m (h + 9)
    checksum := u16At m (h + 10)
    srcAddr := addrAt m (h + 12)
    dstAddr := addrAt m (h + 16) }

/-- The TCP header at `t`, field by field at the offsets of R31 and R59. -/
def tcpAt (m : List Host.Cell) (t : Nat) : TcpHeader :=
  { srcPort := u16At m t
    dstPort := u16At m (t + 2)
    seq := u32At m (t + 4)
    ack := u32At m (t + 8)
    dataOffsetWords := highNibble (byteAt m (t + 12))
    flags := byteAt m (t + 13)
    window := u16At m (t + 14)
    checksum := u16At m (t + 16)
    urgentPtr := u16At m (t + 18) }

/-! ### The decision list of R112 -/

/-- `ihl = B[14][3:0]`. -/
def ihl (m : List Host.Cell) : Nat := (lowNibble (byteAt m 14)).toNat

/-- `ver = B[14][7:4]`. -/
def ver (m : List Host.Cell) : Nat := (highNibble (byteAt m 14)).toNat

/-- `t = 14 + 4 * ihl`. -/
def tcpOffset (m : List Host.Cell) : Nat := 14 + 4 * ihl m

/-- `doff = B[t+12][7:4]`. -/
def doff (m : List Host.Cell) : Nat := (highNibble (byteAt m (tcpOffset m + 12))).toNat

/-- Lines 1 to 11 of R112, in order: none is line 11, `Decoded`. -/
def decision (m : List Host.Cell) (caplen : Nat) : Option SkipReason :=
  if caplen < 14 then some .tooShortForEthernet
  else if (byteAt m 12).toNat * 256 + (byteAt m 13).toNat ≠ 0x0800 then some .notIpv4
  else if caplen < 15 then some .tooShortForIp
  else if ihl m < 5 then some .invalidIpHeaderLength
  else if ver m ≠ 4 then some .notIpv4
  else if caplen < 14 + 4 * ihl m then some .tooShortForIp
  else if (byteAt m 23).toNat ≠ 6 then some .notTcp
  else if caplen < tcpOffset m + 20 then some .tooShortForTcp
  else if doff m < 5 then some .invalidTcpHeaderLength
  else if caplen < tcpOffset m + 4 * doff m then some .tooShortForTcp
  else none

/-- `PAYLOAD_OFF = t + 4 * doff` (R112 line 11). -/
def payloadOffset (m : List Host.Cell) : Nat := tcpOffset m + 4 * doff m

/-- The record of a decoded frame (R29 to R32). -/
def frameRecord (m : List Host.Cell) (caplen cap : U32) : Record :=
  { eth := ethAt m 0
    ip := ip4At m 14
    tcp := tcpAt m (tcpOffset m)
    payloadOff := BitVec.ofNat 32 (payloadOffset m)
    payloadLen := BitVec.ofNat 32 (caplen.toNat - payloadOffset m)
    previewLen := BitVec.ofNat 32 (min cap.toNat (caplen.toNat - payloadOffset m))
    capturedTotal := caplen }

/-- The terminal state of a skipped frame (R17, R127), the internal cursor where the failing reader left it. -/
def skippedState (s : State) (r : SkipReason) (off : U32) : State :=
  { s with
    phase := .done, ctrlStart := false, curLen := s.caplen, curOff := off, capLatch := s.previewCap
    held := Held.empty, outcome := false, reason := some r, record := none, ret := .none }

/-- The terminal state of a decoded frame (R17, R111). -/
def decodedState (s : State) : State :=
  { s with
    phase := .done, ctrlStart := false, curLen := s.caplen
    curOff := BitVec.ofNat 32 (payloadOffset s.mem), capLatch := s.previewCap
    held := Held.empty, outcome := true, reason := none
    record := some (frameRecord s.mem s.caplen s.previewCap), ret := .none }

/-- A decode driven by the wire rows alone (R68): the row the bytes at each header match, and its effect. -/
def rowDecode (s : State) : Host.Outcome State Fault Refusal :=
  match exec (ethRow (ethAt s.mem 0)) (accept s) with
  | .next s1 =>
    if s1.phase = .s3 then
      match exec (ip4Row (ip4At s.mem 14)) s1 with
      | .next s2 =>
        if s2.phase = .s5 then
          exec (tcpRow (tcpAt s.mem (tcpStart s2)) (lowNibble (byteAt s.mem (tcpStart s2 + 12)))) s2
        else .next s2
      | o => o
    else .next s1
  | o => o

/-! ### The invariant of a run -/

/-- The held Ethernet header is the buffer's first 14 bytes. -/
abbrev HeldEth (s : State) : Prop := (readSpan s.mem 0 14).bind ethOfBytes = some (s.held.eth, [])

/-- The held IPv4 header is the buffer's 20 bytes from offset 14. -/
abbrev HeldIp (s : State) : Prop := (readSpan s.mem 14 20).bind ip4OfBytes = some (s.held.ip, [])

/-- The held TCP header is the buffer's 20 bytes from offset `t`, whatever the reserved nibble. -/
abbrev HeldTcp (s : State) : Prop :=
  ((readSpan s.mem (tcpStart s) 20).bind tcpOfBytes).map (fun p => (p.1.1, p.2)) = some (s.held.tcp, [])

/-- What the readers have established when step 2 begins. -/
abbrev AtS2 (s : State) : Prop := s.record = none ∧ 14 ≤ s.curLen.toNat ∧ HeldEth s

/-- What has been established when step 3 begins. -/
abbrev AtS3 (s : State) : Prop := AtS2 s ∧ s.held.eth.etherType = 0x0800#16

/-- What has been established when step 4 begins. -/
abbrev AtS4 (s : State) : Prop :=
  AtS3 s ∧ ip4End s.held.ip ≤ s.curLen.toNat ∧ HeldIp s ∧ s.held.ip.version = 4#4 ∧
    5 ≤ s.held.ip.headerLenWords.toNat

/-- What has been established when step 5 begins. -/
abbrev AtS5 (s : State) : Prop := AtS4 s ∧ s.held.ip.protocol = 6#8

/-- What has been established when step 6 begins. -/
abbrev AtS6 (s : State) : Prop :=
  AtS5 s ∧ tcpEnd s.held.tcp s ≤ s.curLen.toNat ∧ HeldTcp s ∧ 5 ≤ s.held.tcp.dataOffsetWords.toNat

/-- The invariants of a Decoded record (R36), for the `caplen` and the cap sampled at the start. -/
abbrev RecordOk (r : Record) (caplen cap : U32) : Prop :=
  54 ≤ caplen.toNat ∧ r.eth.etherType = 0x0800#16 ∧ r.ip.version = 4#4 ∧
  5 ≤ r.ip.headerLenWords.toNat ∧ r.ip.headerLenWords.toNat ≤ 15 ∧
  14 + 4 * r.ip.headerLenWords.toNat ≤ caplen.toNat ∧ r.ip.protocol = 6#8 ∧
  5 ≤ r.tcp.dataOffsetWords.toNat ∧ r.tcp.dataOffsetWords.toNat ≤ 15 ∧
  14 + 4 * r.ip.headerLenWords.toNat + 4 * r.tcp.dataOffsetWords.toNat ≤ caplen.toNat ∧
  r.payloadOff.toNat = 14 + 4 * r.ip.headerLenWords.toNat + 4 * r.tcp.dataOffsetWords.toNat ∧
  r.payloadOff.toNat + r.payloadLen.toNat = r.capturedTotal.toNat ∧ r.capturedTotal = caplen ∧
  r.previewLen.toNat = min cap.toNat r.payloadLen.toNat ∧ r.previewLen.toNat ≤ r.payloadLen.toNat

/-- In `DONE`: a decoded frame with its record and no reason, or a skipped frame with its reason and no record (R35,
R124). -/
abbrev AtDone (s : State) : Prop :=
  (s.outcome = true ∧ s.reason = none ∧ ∃ r, s.record = some r ∧ RecordOk r s.curLen s.capLatch) ∨
  (s.outcome = false ∧ s.reason.isSome = true ∧ s.record = none)

/-- What holds when the step `PHASE` names begins. -/
def PhaseOk (s : State) : Prop :=
  match s.phase with
  | .idle => s.record = none ∧ s.outcome = false ∧ s.reason = none
  | .s1 => s.record = none ∧ s.curOff = 0
  | .s2 => AtS2 s ∧ s.curOff.toNat = 14
  | .s3 => AtS3 s ∧ s.curOff.toNat = 14
  | .s4 => AtS4 s ∧ s.curOff.toNat = ip4End s.held.ip
  | .s5 => AtS5 s ∧ s.curOff.toNat = ip4End s.held.ip
  | .s6 => AtS6 s ∧ s.curOff.toNat = tcpEnd s.held.tcp s
  | .s7 => AtS6 s ∧ s.curOff.toNat = tcpEnd s.held.tcp s ∧
      s.held.payloadLen.toNat = s.curLen.toNat - tcpEnd s.held.tcp s
  | .done => AtDone s

/-- The invariant of a run of the machine itself (nothing issued from outside): the buffer is in canonical form, the
cursor never passes the end (R25), no start command is left standing (R23), the sampled inputs are the registers while busy
(R25, R104, R145), and `PHASE` means what its step relies on. -/
structure Inv (s : State) : Prop where
  nothingIssued : s.issue = []
  bufferWf      : Memory.wf s.mem = true
  cursorInside  : s.curOff.toNat ≤ s.curLen.toNat
  noCommand     : s.ctrlStart = false
  lenSampled    : busy s = true → s.curLen = s.caplen
  capSampled    : busy s = true → s.capLatch = s.previewCap
  phaseOk       : PhaseOk s

/-- The reasons the step a phase names can raise (R123, "raised by"). -/
def raises : Phase → List SkipReason
  | .idle => []
  | .s1 => [.tooShortForEthernet]
  | .s2 => [.notIpv4]
  | .s3 => [.notIpv4, .tooShortForIp, .invalidIpHeaderLength]
  | .s4 => [.notTcp]
  | .s5 => [.tooShortForTcp, .invalidTcpHeaderLength]
  | .s6 => []
  | .s7 => []
  | .done => []

/-! ### Comparing two runs -/

/-- The outcome with its next state changed. -/
def mapNext (f : State → State) (o : Host.Outcome State Fault Refusal) : Host.Outcome State Fault Refusal :=
  match o with
  | .next t => .next (f t)
  | .fault r => .fault r
  | .refused r => .refused r

/-- The arrows of R24: one step forward, or straight to `DONE` from `S1` to `S5`; `IDLE` and `DONE` wait or start. -/
def phaseArrow : Phase → Phase → Bool
  | .idle, q => decide (q = .idle ∨ q = .s1)
  | .s1, q => decide (q = .s2 ∨ q = .done)
  | .s2, q => decide (q = .s3 ∨ q = .done)
  | .s3, q => decide (q = .s4 ∨ q = .done)
  | .s4, q => decide (q = .s5 ∨ q = .done)
  | .s5, q => decide (q = .s6 ∨ q = .done)
  | .s6, q => decide (q = .s7)
  | .s7, q => decide (q = .done)
  | .done, q => decide (q = .done ∨ q = .s1)

end Sys2Proof.Safety
end

