-- ==== Sys2Proof/Certificates/Slice0/Obligations.lean ====
section
/-! DEFINITION. The statements for the provers. Each says which rule of spec/ it formalises. `ret`, which holds what an
operation issued on its own handed to its caller, and `issue`, which holds the operations issued from outside the fixed
control sequence, are the model's own fields (log entries 2 and 4); everything else is the spec's. -/

open Sys2Proof Sys2Proof.Machine Sys2Proof.Safety

/-! ### Reset, stepping, encoding -/

/-- R39, R139: reset, in any phase, gives the reset table's values, leaves the frame buffer alone, and the machine then
does nothing until a start command. The last clause, that `State.reset` is this state with an empty buffer, also fixes
`c.off`, `c.len`, the sampled cap and the values held between steps, which the spec leaves unspecified, at the zeros of
log entry 1 (DESIGN CHOICE); nothing else is said of them. -/
def Obligations.ResetGivesTheResetState : Prop :=
  ∀ s : State, ∃ t : State,
    hostAct .assertReset s = .next t ∧
    t.phase = .idle ∧ busy t = false ∧ isDone t = false ∧ t.outcome = false ∧ t.reason = none ∧
    statusWord t = 0 ∧ t.ctrlStart = false ∧ t.caplen = 0 ∧ t.wirelen = 0 ∧ t.previewCap = 20 ∧
    t.record = none ∧ t.mem = s.mem ∧ step t = .next t ∧ State.reset = { t with mem := [] }

/-- The link from bytes to effect: an issued operation that decodes is executed, and bytes that decode to nothing are
refused by name. The `issue` field is the model's choice (log entry 2). -/
def Obligations.StepRunsTheIssuedInstruction : Prop :=
  ∀ s : State,
    (∀ i rest, decode s.issue = some (i, rest) → i.wf = true ∧ step s = exec i { s with issue := rest }) ∧
    (s.issue ≠ [] → decode s.issue = none → step s = .refused .reservedEncoding)

/-- R66, R24: with nothing issued, the operation that a step runs is the one its place in the control sequence selects:
`ETH.READ` in S1, the Ethernet row in S2, `IP4.READ` in S3, the IPv4 row in S4, `TCP.READ` in S5, `CUR.REMAINING` in
S6. The reader's value is held and the next step selected, or its reason ends the frame. That S2 and S4 run the wire row
of the held header as an instruction is the model's (DESIGN CHOICE, log entry 10), and so is `ret` (log entry 4). -/
def Obligations.ControlSequenceRunsItsOperations : Prop :=
  ∀ s : State, s.issue = [] →
    (s.phase = .s1 → ∀ t, exec .ethRead s = .next t →
      (∀ h, t.ret = .eth h →
        step s = .next { t with ret := s.ret, phase := .s2, held := { s.held with eth := h } }) ∧
      (∀ r, t.ret = .skip r → step s = .next (skipped r { t with ret := s.ret }))) ∧
    (s.phase = .s2 → step s = exec (ethRow s.held.eth) s) ∧
    (s.phase = .s3 → ∀ t, exec .ip4Read s = .next t →
      (∀ h, t.ret = .ip4 h →
        step s = .next { t with ret := s.ret, phase := .s4, held := { s.held with ip := h } }) ∧
      (∀ r, t.ret = .skip r → step s = .next (skipped r { t with ret := s.ret }))) ∧
    (s.phase = .s4 → 5 ≤ s.held.ip.headerLenWords.toNat → s.held.ip.version = 4#4 →
      step s = exec (ip4Row s.held.ip) s) ∧
    (s.phase = .s5 → ∀ t, exec .tcpRead s = .next t →
      (∀ h, t.ret = .tcp h →
        step s = .next { t with ret := s.ret, phase := .s6, held := { s.held with tcp := h } }) ∧
      (∀ r, t.ret = .skip r → step s = .next (skipped r { t with ret := s.ret }))) ∧
    (s.phase = .s6 → ∀ t v, exec .curRemaining s = .next t → t.ret = .u32 v →
      step s = .next { s with phase := .s7, held := { s.held with payloadLen := v } })

/-- Words written out from R57 to R59 and R66 decode to the instructions they stand for: one of each operation, an index
that is reserved, and the headers of five wire rows. The format byte is the model's (log entries 2 and 3). -/
def Obligations.SampleWordsDecode : Prop :=
  decodeTableWord 8 0x00 = some .curReadU8 ∧
  decodeTableWord 8 0x01 = some .curReadU16Be ∧
  decodeTableWord 8 0x02 = some .curReadU32Be ∧
  decodeTableWord 40 0x0600000003 = some (.curReadBytes 6) ∧
  decodeTableWord 8 0x04 = some .curRemaining ∧
  decodeTableWord 40 0x2800000005 = some (.curAdvance 40) ∧
  decodeTableWord 8 0x06 = some .ethRead ∧
  decodeTableWord 8 0x07 = some .ip4Read ∧
  decodeTableWord 8 0x08 = some .tcpRead ∧
  decodeTableWord 8 0x09 = some .frameDecode ∧
  decodeTableWord 8 0x0a = none ∧
  decodeTableWord 112 0x0008554433221100ffffffffffff =
    some (.ethIpv4 ⟨⟨0xff, 0xff, 0xff, 0xff, 0xff, 0xff⟩, ⟨0x00, 0x11, 0x22, 0x33, 0x44, 0x55⟩, 0x0800⟩) ∧
  decodeTableWord 112 0x0608554433221100ffffffffffff =
    some (.ethOther ⟨⟨0xff, 0xff, 0xff, 0xff, 0xff, 0xff⟩, ⟨0x00, 0x11, 0x22, 0x33, 0x44, 0x55⟩, 0x0806⟩) ∧
  decodeTableWord 160 0xc700a8c00100a8c0719c06400040461c28000045 =
    some (.ip4V4Tcp ⟨4, 5, 0, 40, 0x1c46, 0x4000, 64, 6, 0x9c71, ⟨0xc0, 0xa8, 0x00, 0x01⟩,
      ⟨0xc0, 0xa8, 0x00, 0xc7⟩⟩) ∧
  decodeTableWord 160 0xc700a8c00100a8c0719c06400040461c28000065 =
    some (.ip4NotV4 ⟨6, 5, 0, 40, 0x1c46, 0x4000, 64, 6, 0x9c71, ⟨0xc0, 0xa8, 0x00, 0x01⟩,
      ⟨0xc0, 0xa8, 0x00, 0xc7⟩⟩) ∧
  decodeTableWord 168 0x00000000002002f500000000010000005000d20430 =
    some (.tcpOk ⟨1234, 80, 1, 0, 15, 0x02, 0x2000, 0, 0⟩ 5)

/-- R66, R68: decoding the bytes of a well-formed instruction gives it back with every operand, and leaves what follows
alone. -/
def Obligations.DecodeInvertsEncode : Prop :=
  ∀ (i : Instr) (rest : List Byte), i.wf = true → decode (encode i ++ rest) = some (i, rest)

/-- R66, R68: an instruction's bytes are determined by it: what decodes is well-formed and encodes to just the bytes it
was read from. -/
def Obligations.EncodeInvertsDecode : Prop :=
  ∀ (bs rest : List Byte) (i : Instr), decode bs = some (i, rest) → i.wf = true ∧ encode i ++ rest = bs

/-- R68: within one format the rows are tried in ascending priority and the first match wins, a header matching a row
when `(header AND mask) = match`, with `match` and `mask` as spec/opcode_table.json prints them. -/
def Obligations.WireRowIsTheFirstMatch : Prop :=
  (∀ h : EthernetHeader,
    (ethTable.find? (rowMatches (ethBytes h))).map WireRow.mnemonic = some (ethRow h).mnemonic) ∧
  (∀ h : Ipv4Header,
    (ip4Table.find? (rowMatches (ip4Bytes h))).map WireRow.mnemonic = some (ip4Row h).mnemonic) ∧
  (∀ (h : TcpHeader) (reserved : U4),
    (tcpTable.find? (rowMatches (tcpBytes h reserved))).map WireRow.mnemonic =
      some (tcpRow h reserved).mnemonic)

/-! ### The cursor -/

/-- R75: `CUR.READ_U8` fails with `OutOfBounds` exactly at the end, changing nothing, and otherwise returns `B[c.off]`
and moves the cursor by 1. -/
def Obligations.ReadU8Result : Prop :=
  ∀ s : State, s.curOff.toNat ≤ s.curLen.toNat →
    (s.curOff = s.curLen → exec .curReadU8 s = .next { s with ret := .outOfBounds }) ∧
    (s.curOff ≠ s.curLen → ∀ b, Memory.read s.mem s.curOff.toNat = some b →
      exec .curReadU8 s = .next { s with curOff := s.curOff + 1, ret := .u8 b })

/-- R76, R45: `CUR.READ_U16_BE` fails when fewer than 2 bytes remain, consuming none, and otherwise returns
`b[0] * 256 + b[1]`. -/
def Obligations.ReadU16BeResult : Prop :=
  ∀ s : State, s.curOff.toNat ≤ s.curLen.toNat →
    (s.curLen.toNat - s.curOff.toNat < 2 → exec .curReadU16Be s = .next { s with ret := .outOfBounds }) ∧
    (2 ≤ s.curLen.toNat - s.curOff.toNat → ∀ b0 b1,
      Memory.read s.mem s.curOff.toNat = some b0 → Memory.read s.mem (s.curOff.toNat + 1) = some b1 →
      ∃ v : U16, v.toNat = b0.toNat * 256 + b1.toNat ∧
        exec .curReadU16Be s = .next { s with curOff := s.curOff + 2, ret := .u16 v })

/-- R77, R45: `CUR.READ_U32_BE` fails when fewer than 4 bytes remain, and otherwise returns
`b[0] * 2^24 + b[1] * 2^16 + b[2] * 2^8 + b[3]`. -/
def Obligations.ReadU32BeResult : Prop :=
  ∀ s : State, s.curOff.toNat ≤ s.curLen.toNat →
    (s.curLen.toNat - s.curOff.toNat < 4 → exec .curReadU32Be s = .next { s with ret := .outOfBounds }) ∧
    (4 ≤ s.curLen.toNat - s.curOff.toNat → ∀ b0 b1 b2 b3,
      Memory.read s.mem s.curOff.toNat = some b0 → Memory.read s.mem (s.curOff.toNat + 1) = some b1 →
      Memory.read s.mem (s.curOff.toNat + 2) = some b2 → Memory.read s.mem (s.curOff.toNat + 3) = some b3 →
      ∃ v : U32, v.toNat = b0.toNat * 2 ^ 24 + b1.toNat * 2 ^ 16 + b2.toNat * 2 ^ 8 + b3.toNat ∧
        exec .curReadU32Be s = .next { s with curOff := s.curOff + 4, ret := .u32 v })

/-- R78: `CUR.READ_BYTES n` fails exactly when `n > c.len - c.off`, and otherwise returns the view `(c.off, n)` of the
`n` bytes in buffer order. `n = 0` falls under the second clause at every offset. -/
def Obligations.ReadBytesResult : Prop :=
  ∀ (s : State) (n : U32), s.curOff.toNat ≤ s.curLen.toNat →
    (s.curLen.toNat - s.curOff.toNat < n.toNat →
      exec (.curReadBytes n) s = .next { s with ret := .outOfBounds }) ∧
    (n.toNat ≤ s.curLen.toNat - s.curOff.toNat → ∀ bs : List Byte, bs.length = n.toNat →
      (∀ k, k < n.toNat → Memory.read s.mem (s.curOff.toNat + k) = bs[k]?) →
      exec (.curReadBytes n) s = .next { s with curOff := s.curOff + n, ret := .view s.curOff n bs })

/-- R79: `CUR.REMAINING` returns `c.len - c.off`, never fails and changes nothing. -/
def Obligations.RemainingResult : Prop :=
  ∀ s : State, s.curOff.toNat ≤ s.curLen.toNat →
    ∃ v : U32, v.toNat = s.curLen.toNat - s.curOff.toNat ∧ exec .curRemaining s = .next { s with ret := .u32 v }

/-- R80: `CUR.ADVANCE n` fails exactly when `n > c.len - c.off`, moving nothing, and otherwise moves the cursor by `n`,
whether or not the skipped bytes were ever filled: it reads none. -/
def Obligations.AdvanceResult : Prop :=
  ∀ (s : State) (n : U32), s.curOff.toNat ≤ s.curLen.toNat →
    (s.curLen.toNat - s.curOff.toNat < n.toNat →
      exec (.curAdvance n) s = .next { s with ret := .outOfBounds }) ∧
    (n.toNat ≤ s.curLen.toNat - s.curOff.toNat →
      exec (.curAdvance n) s = .next { s with curOff := s.curOff + n, ret := .ok })

/-- U4, R141 (the model's reading, log entry 6): a read inside `[0, c.len)` of a byte the host never filled is refused
by name. -/
def Obligations.UnfilledByteIsRefused : Prop :=
  ∀ (s : State) (n k : Nat) (i : Instr),
    (i = .curReadU8 ∧ n = 1 ∨ i = .curReadU16Be ∧ n = 2 ∨ i = .curReadU32Be ∧ n = 4 ∨
      ∃ m : U32, i = .curReadBytes m ∧ n = m.toNat) →
    s.curOff.toNat + n ≤ s.curLen.toNat → k < n → Memory.read s.mem (s.curOff.toNat + k) = none →
    exec i s = .refused .unfilledFrameByte

/-- R71: the six cursor operations, as instructions, change `c.off` alone (and the model's `ret`): no flag, no `PHASE`,
no result register, no input register, no byte of the buffer. One that consumes `n` bytes adds exactly `n` on success;
on failure it moves nothing and its outcome does not depend on the buffer, so it has read nothing. -/
def Obligations.CursorOperationsOnlyMoveTheCursor : Prop :=
  ∀ (s t : State) (i : Instr) (n : Nat),
    (i = .curReadU8 ∧ n = 1 ∨ i = .curReadU16Be ∧ n = 2 ∨ i = .curReadU32Be ∧ n = 4 ∨
      (∃ m : U32, i = .curReadBytes m ∧ n = m.toNat) ∨ i = .curRemaining ∧ n = 0 ∨
      ∃ m : U32, i = .curAdvance m ∧ n = m.toNat) →
    exec i s = .next t →
    t = { s with curOff := t.curOff, ret := t.ret } ∧
    (t.ret ≠ .outOfBounds → t.curOff.toNat = s.curOff.toNat + n) ∧
    (t.ret = .outOfBounds → t.curOff = s.curOff ∧
      ∀ m', exec i { s with mem := m' } = .next { t with mem := m' })

/-- R70: an operation that consumes `n` bytes fails with `OutOfBounds` if `n > c.len - c.off` and succeeds otherwise,
the bytes being there. -/
def Obligations.BoundsLaw : Prop :=
  ∀ (s : State) (i : Instr) (n : Nat),
    (i = .curReadU8 ∧ n = 1 ∨ i = .curReadU16Be ∧ n = 2 ∨ i = .curReadU32Be ∧ n = 4 ∨
      (∃ m : U32, i = .curReadBytes m ∧ n = m.toNat) ∨ ∃ m : U32, i = .curAdvance m ∧ n = m.toNat) →
    s.curOff.toNat ≤ s.curLen.toNat →
    Filled s.mem s.curOff.toNat (s.curLen.toNat - s.curOff.toNat) →
    ∃ t, exec i s = .next t ∧ t.curOff.toNat ≤ t.curLen.toNat ∧
      (t.ret = .outOfBounds ↔ s.curLen.toNat - s.curOff.toNat < n)

/-- R81 item 5, R46: a 2-byte read returns what two 1-byte reads give as `hi * 256 + lo`, and a 4-byte read what two
2-byte reads give as `hi * 65536 + lo`, with the same final offset. -/
def Obligations.WideReadIsTwoNarrowReads : Prop :=
  (∀ (s t u : State) (hi lo : Byte),
    exec .curReadU8 s = .next t → t.ret = .u8 hi → exec .curReadU8 t = .next u → u.ret = .u8 lo →
    ∃ v : U16, v.toNat = hi.toNat * 256 + lo.toNat ∧ exec .curReadU16Be s = .next { u with ret := .u16 v }) ∧
  (∀ (s t u : State) (hi lo : U16),
    exec .curReadU16Be s = .next t → t.ret = .u16 hi → exec .curReadU16Be t = .next u → u.ret = .u16 lo →
    ∃ v : U32, v.toNat = hi.toNat * 65536 + lo.toNat ∧ exec .curReadU32Be s = .next { u with ret := .u32 v })

/-! ### The readers -/

/-- R83: `ETH.READ` fails with `TooShortForEthernet` when fewer than 14 bytes remain, changing nothing; otherwise it
returns the header with the fields at the offsets of R57 and the cursor 14 bytes on. -/
def Obligations.EthReadResult : Prop :=
  ∀ s : State, s.curOff.toNat ≤ s.curLen.toNat →
    (s.curLen.toNat - s.curOff.toNat < 14 →
      exec .ethRead s = .next { s with ret := .skip .tooShortForEthernet }) ∧
    (14 ≤ s.curLen.toNat - s.curOff.toNat → Filled s.mem s.curOff.toNat 14 →
      exec .ethRead s = .next { s with curOff := s.curOff + 14, ret := .eth (ethAt s.mem s.curOff.toNat) })

/-- R86, R93: with `r` bytes left and first byte `b0`, `IP4.READ` succeeds if `b0[3:0] ≥ 5`, `b0[7:4] = 4` and
`r ≥ 4 * b0[3:0]`; every field equals the bytes of R58 and the cursor stands `4 * header_len_words` bytes on. -/
def Obligations.Ip4ReadSucceeds : Prop :=
  ∀ (s : State) (b0 : Byte), s.curOff.toNat ≤ s.curLen.toNat →
    Memory.read s.mem s.curOff.toNat = some b0 → 5 ≤ b0.toNat % 16 → b0.toNat / 16 = 4 →
    4 * (b0.toNat % 16) ≤ s.curLen.toNat - s.curOff.toNat → Filled s.mem s.curOff.toNat 20 →
    exec .ip4Read s = .next
      { s with
        curOff := s.curOff + BitVec.ofNat 32 (4 * (b0.toNat % 16))
        ret := .ip4 (ip4At s.mem s.curOff.toNat) }

/-- R86 to R91: with `r` bytes left and first byte `b0`, `IP4.READ` fails, in this order, with `TooShortForIp` if
`r = 0`, `InvalidIpHeaderLength` if `b0[3:0] < 5`, `NotIpv4` if `b0[7:4] ≠ 4`, `TooShortForIp` if
`r < 4 * b0[3:0]`. It then leaves nothing changed but the cursor, which has not passed the end. -/
def Obligations.Ip4ReadFails : Prop :=
  ∀ s : State, s.curOff.toNat ≤ s.curLen.toNat →
    (s.curLen.toNat = s.curOff.toNat → exec .ip4Read s = .next { s with ret := .skip .tooShortForIp }) ∧
    (∀ b0, s.curOff.toNat < s.curLen.toNat → Memory.read s.mem s.curOff.toNat = some b0 →
      (b0.toNat % 16 < 5 →
        exec .ip4Read s = .next { s with curOff := s.curOff + 1, ret := .skip .invalidIpHeaderLength }) ∧
      (5 ≤ b0.toNat % 16 → b0.toNat / 16 ≠ 4 →
        exec .ip4Read s = .next { s with curOff := s.curOff + 1, ret := .skip .notIpv4 }) ∧
      (5 ≤ b0.toNat % 16 → b0.toNat / 16 = 4 → s.curLen.toNat - s.curOff.toNat < 4 * (b0.toNat % 16) →
        Filled s.mem s.curOff.toNat (s.curLen.toNat - s.curOff.toNat) →
        ∃ off : U32, s.curOff.toNat < off.toNat ∧ off.toNat ≤ s.curLen.toNat ∧
          exec .ip4Read s = .next { s with curOff := off, ret := .skip .tooShortForIp }))

/-- R95, R101: with `r ≥ 20` bytes left and byte 12 equal to `b12`, `TCP.READ` succeeds if `b12[7:4] ≥ 5` and
`r ≥ 4 * b12[7:4]`; every field equals the bytes of R59 and the cursor stands `4 * data_offset_words` bytes on. -/
def Obligations.TcpReadSucceeds : Prop :=
  ∀ (s : State) (b12 : Byte), s.curOff.toNat ≤ s.curLen.toNat →
    Memory.read s.mem (s.curOff.toNat + 12) = some b12 → 5 ≤ b12.toNat / 16 →
    4 * (b12.toNat / 16) ≤ s.curLen.toNat - s.curOff.toNat → Filled s.mem s.curOff.toNat 20 →
    exec .tcpRead s = .next
      { s with
        curOff := s.curOff + BitVec.ofNat 32 (4 * (b12.toNat / 16))
        ret := .tcp (tcpAt s.mem s.curOff.toNat) }

/-- R95 to R99: with `r` bytes left and byte 12 equal to `b12`, `TCP.READ` fails, in this order, with `TooShortForTcp`
if `r < 20`, having moved nothing; `InvalidTcpHeaderLength` if `b12[7:4] < 5` and `TooShortForTcp` if
`r < 4 * b12[7:4]`, both with the 20 fixed bytes consumed. -/
def Obligations.TcpReadFails : Prop :=
  ∀ s : State, s.curOff.toNat ≤ s.curLen.toNat →
    (s.curLen.toNat - s.curOff.toNat < 20 → exec .tcpRead s = .next { s with ret := .skip .tooShortForTcp }) ∧
    (∀ b12, 20 ≤ s.curLen.toNat - s.curOff.toNat → Filled s.mem s.curOff.toNat 20 →
      Memory.read s.mem (s.curOff.toNat + 12) = some b12 →
      (b12.toNat / 16 < 5 →
        exec .tcpRead s = .next { s with curOff := s.curOff + 20, ret := .skip .invalidTcpHeaderLength }) ∧
      (5 ≤ b12.toNat / 16 → s.curLen.toNat - s.curOff.toNat < 4 * (b12.toNat / 16) →
        exec .tcpRead s = .next { s with curOff := s.curOff + 20, ret := .skip .tooShortForTcp }))

/-- R82, R85, R94: the three readers have no side effect beyond moving the cursor, forwards and not past the end, on
success and on failure. -/
def Obligations.ReadersOnlyMoveTheCursor : Prop :=
  ∀ (s t : State) (i : Instr), (i = .ethRead ∨ i = .ip4Read ∨ i = .tcpRead) →
    s.curOff.toNat ≤ s.curLen.toNat → exec i s = .next t →
    t = { s with curOff := t.curOff, ret := t.ret } ∧
    s.curOff.toNat ≤ t.curOff.toNat ∧ t.curOff.toNat ≤ t.curLen.toNat

/-- R97, R99, R101 item 5: two buffers that differ only in the reserved low nibble of TCP byte 12 and outside the 20
fixed bytes give `TCP.READ` the same result. -/
def Obligations.TcpReadIgnoresReservedAndOptions : Prop :=
  ∀ (s : State) (m' : List Host.Cell) (b b' : Byte),
    (∀ k, k < 20 → k ≠ 12 → Memory.read s.mem (s.curOff.toNat + k) = Memory.read m' (s.curOff.toNat + k)) →
    Memory.read s.mem (s.curOff.toNat + 12) = some b → Memory.read m' (s.curOff.toNat + 12) = some b' →
    b.toNat / 16 = b'.toNat / 16 →
    exec .tcpRead { s with mem := m' } = mapNext (fun t => { t with mem := m' }) (exec .tcpRead s)

/-- R84 item 5, R93 item 5, R101 item 6: where the buffer shows a header built from any legal field values from `c.off`
on, whatever it shows elsewhere and whatever the option bytes are, the reader gives back the same field values. -/
def Obligations.ReadersInvertTheWireFormats : Prop :=
  ∀ s : State,
    (∀ h : EthernetHeader, s.curOff.toNat + 14 ≤ s.curLen.toNat →
      Shows s.mem s.curOff.toNat (ethBytes h) →
      exec .ethRead s = .next { s with curOff := s.curOff + 14, ret := .eth h }) ∧
    (∀ h : Ipv4Header, h.version = 4#4 → 5 ≤ h.headerLenWords.toNat →
      s.curOff.toNat + 4 * h.headerLenWords.toNat ≤ s.curLen.toNat →
      Shows s.mem s.curOff.toNat (ip4Bytes h) →
      exec .ip4Read s = .next
        { s with curOff := s.curOff + BitVec.ofNat 32 (4 * h.headerLenWords.toNat), ret := .ip4 h }) ∧
    (∀ (h : TcpHeader) (reserved : U4), 5 ≤ h.dataOffsetWords.toNat →
      s.curOff.toNat + 4 * h.dataOffsetWords.toNat ≤ s.curLen.toNat →
      Shows s.mem s.curOff.toNat (tcpBytes h reserved) →
      exec .tcpRead s = .next
        { s with curOff := s.curOff + BitVec.ofNat 32 (4 * h.dataOffsetWords.toNat), ret := .tcp h })

/-! ### The wire rows -/

/-- R106: the rows of format ETH. With fewer than 14 bytes both end in `Skipped(TooShortForEthernet)`; otherwise
`ETH.IPV4` goes on with step 3 at offset 14, the header held, and `ETH.OTHER` ends in `Skipped(NotIpv4)`. -/
def Obligations.EthRowsEffect : Prop :=
  ∀ (h : EthernetHeader) (s : State),
    (s.curLen.toNat < 14 → exec (.ethIpv4 h) s = .next (skipped .tooShortForEthernet s) ∧
      exec (.ethOther h) s = .next (skipped .tooShortForEthernet s)) ∧
    (14 ≤ s.curLen.toNat →
      exec (.ethIpv4 h) s = .next { s with phase := .s3, curOff := 14, held := { s.held with eth := h } } ∧
      exec (.ethOther h) s = .next (skipped .notIpv4 s))

/-- R88, R89: the rows of format IP4 that byte 0 alone decides. With no byte 0 all end in `Skipped(TooShortForIp)`;
otherwise the two length rows end in `Skipped(InvalidIpHeaderLength)` and the version row in `Skipped(NotIpv4)`. -/
def Obligations.Ip4ByteZeroRowsEffect : Prop :=
  ∀ (h : Ipv4Header) (s : State),
    (s.curLen.toNat < 15 → exec (.ip4Ihl03 h) s = .next (skipped .tooShortForIp s) ∧
      exec (.ip4Ihl4 h) s = .next (skipped .tooShortForIp s) ∧
      exec (.ip4NotV4 h) s = .next (skipped .tooShortForIp s)) ∧
    (15 ≤ s.curLen.toNat → exec (.ip4Ihl03 h) s = .next (skipped .invalidIpHeaderLength s) ∧
      exec (.ip4Ihl4 h) s = .next (skipped .invalidIpHeaderLength s) ∧
      exec (.ip4NotV4 h) s = .next (skipped .notIpv4 s))

/-- R108: the version 4 rows of format IP4, looked at only after the whole header is seen to lie within `caplen`:
`IP4.V4_TCP` goes on with step 5 past the options, the header held, and `IP4.V4_OTHER` ends in `Skipped(NotTcp)`. -/
def Obligations.Ip4VersionFourRowsEffect : Prop :=
  ∀ (h : Ipv4Header) (s : State),
    (s.curLen.toNat < 14 + 4 * h.headerLenWords.toNat →
      exec (.ip4V4Tcp h) s = .next (skipped .tooShortForIp s) ∧
      exec (.ip4V4Other h) s = .next (skipped .tooShortForIp s)) ∧
    (14 + 4 * h.headerLenWords.toNat ≤ s.curLen.toNat →
      exec (.ip4V4Tcp h) s = .next
        { s with
          phase := .s5, curOff := BitVec.ofNat 32 (14 + 4 * h.headerLenWords.toNat)
          held := { s.held with ip := h } } ∧
      exec (.ip4V4Other h) s = .next (skipped .notTcp s))

/-- R98, R99: the rows of format TCP, with `t = 14 + 4 * IP_HLW` of the IPv4 header held. With fewer than 20 bytes from
`t` on all end in `Skipped(TooShortForTcp)`; otherwise the two data-offset rows end in
`Skipped(InvalidTcpHeaderLength)`, and `TCP.OK` in `Skipped(TooShortForTcp)` where the options are cut short and in
`Decoded` otherwise, with `PAYLOAD_OFF = t + 4 * DOFF`. That the values held between the steps are then cleared is the
model's (DESIGN CHOICE, log entry 1), and so is running a row by itself (log entry 10). -/
def Obligations.TcpRowsEffect : Prop :=
  ∀ (h : TcpHeader) (reserved : U4) (s : State) (t : Nat), t = 14 + 4 * s.held.ip.headerLenWords.toNat →
    (s.curLen.toNat < t + 20 → exec (.tcpDoff03 h reserved) s = .next (skipped .tooShortForTcp s) ∧
      exec (.tcpDoff4 h reserved) s = .next (skipped .tooShortForTcp s) ∧
      exec (.tcpOk h reserved) s = .next (skipped .tooShortForTcp s)) ∧
    (t + 20 ≤ s.curLen.toNat → exec (.tcpDoff03 h reserved) s = .next (skipped .invalidTcpHeaderLength s) ∧
      exec (.tcpDoff4 h reserved) s = .next (skipped .invalidTcpHeaderLength s) ∧
      (s.curLen.toNat < t + 4 * h.dataOffsetWords.toNat →
        exec (.tcpOk h reserved) s = .next (skipped .tooShortForTcp s)) ∧
      (t + 4 * h.dataOffsetWords.toNat ≤ s.curLen.toNat →
        ∃ off len pre : U32, off.toNat = t + 4 * h.dataOffsetWords.toNat ∧
          len.toNat = s.curLen.toNat - off.toNat ∧ pre.toNat = min s.capLatch.toNat len.toNat ∧
          exec (.tcpOk h reserved) s = .next
            { s with
              phase := .done, curOff := off, outcome := true, reason := none, held := Held.empty
              record := some
                { eth := s.held.eth, ip := s.held.ip, tcp := h, payloadOff := off, payloadLen := len,
                  previewLen := pre, capturedTotal := s.curLen } }))

/-- R68: a decoder written from the wire rows plus the length checks is complete: it ends every frame in the terminal
state of `FRAME.DECODE` (the internal `c.off` of a skipped frame apart). That a row works at the absolute offset of its
header is the model's (DESIGN CHOICE, log entry 10). -/
def Obligations.WireRowsDecodeLikeFrameDecode : Prop :=
  ∀ s : State, Ready s → Filled s.mem 0 s.caplen.toNat →
    ∃ t u, exec .frameDecode s = .next t ∧ rowDecode s = .next u ∧ { u with curOff := t.curOff } = t ∧
      (t.outcome = true → u = t)

/-! ### FRAME.DECODE -/

/-- R112, R103: the outcome of `FRAME.DECODE` is that of the decision list, with the record of R29 to R32 on line 11 and
every result register empty on lines 1 to 10; the internal `c.off` of a skipped frame is left open. (That the values held
between the steps and `ret` are cleared is the model's, log entries 1 and 4.) -/
def Obligations.FrameDecodeFollowsTheDecisionList : Prop :=
  ∀ s : State, Ready s → Filled s.mem 0 s.caplen.toNat →
    (∀ r, decision s.mem s.caplen.toNat = some r → ∃ off, exec .frameDecode s = .next (skippedState s r off)) ∧
    (decision s.mem s.caplen.toNat = none → exec .frameDecode s = .next (decodedState s))

/-- R120, R24: the atomic `FRAME.DECODE` and the host's start command followed by the steps of `PHASE` end in the same
state, or stop alike. A decode takes at most seven steps; a machine in `DONE` waits. (`START` is bit 0 of the write,
log entry 15.) -/
def Obligations.AtomicDecodeEqualsTheSevenSteps : Prop :=
  ∀ (s : State) (v : U32), Ready s → s.issue = [] → v.getLsbD 0 = true →
    ∃ t, hostAct (.writeCtrl v) s = .next t ∧ Host.Core.run Sys2Proof.core 7 t = exec .frameDecode s

/-- R24, R113: from any step of a decode in progress, `DONE` is reached after at most seven steps. -/
def Obligations.DecodeReachesDoneInSevenSteps : Prop :=
  ∀ s : State, Inv s → busy s = true → Filled s.mem 0 s.curLen.toNat →
    ∃ k t, k ≤ 7 ∧ Host.Core.run Sys2Proof.core k s = .next t ∧ t.phase = .done

/-- R114, R21, R38: two decodes with equal `caplen`, equal bytes below it and equal `PREVIEW_CAP` end in equal states,
whatever either instance did before. -/
def Obligations.DecodeIsIdempotent : Prop :=
  ∀ s s' : State, Ready s → Ready s' → s'.caplen = s.caplen → s'.previewCap = s.previewCap →
    SameBelow s.mem s'.mem s.caplen.toNat →
    exec .frameDecode s' =
      mapNext (fun t => { t with wirelen := s'.wirelen, mem := s'.mem, issue := s'.issue }) (exec .frameDecode s)

/-- R115: no instruction and no step reads `WIRELEN`: with another value of it, everything else is the same. -/
def Obligations.WirelenIsNeverRead : Prop :=
  ∀ (s : State) (w : U32),
    (∀ i, exec i { s with wirelen := w } = mapNext (fun t => { t with wirelen := w }) (exec i s)) ∧
    step { s with wirelen := w } = mapNext (fun t => { t with wirelen := w }) (step s)

/-- R117: `PREVIEW_CAP` changes no other register and no outcome: with another value of it only `PREVIEW_LEN`, now
`min(PREVIEW_CAP, PAYLOAD_LEN)` of that value, differs. -/
def Obligations.PreviewCapChangesOnlyPreviewLen : Prop :=
  ∀ (s : State) (cap : U32),
    exec .frameDecode { s with previewCap := cap } =
      mapNext (fun t => { t with
        previewCap := cap, capLatch := cap
        record := t.record.map fun r =>
          { r with previewLen := BitVec.ofNat 32 (min cap.toNat r.payloadLen.toNat) } }) (exec .frameDecode s)

/-- R36: the invariants of a Decoded record hold of every frame that `FRAME.DECODE` ends as `Decoded`, whatever bytes
were placed. -/
def Obligations.DecodedRecordInvariants : Prop :=
  ∀ s t : State, exec .frameDecode s = .next t → t.outcome = true →
    t.reason = none ∧ ∃ r, t.record = some r ∧ RecordOk r s.caplen s.previewCap

/-- R116: a frame built from any headers of the kind the decoder wants, any option bytes and any payload is decoded to
the identical field values and a payload view that shows exactly the payload's bytes, whatever the buffer shows beyond
the frame. -/
def Obligations.FrameRoundTrip : Prop :=
  ∀ (s : State) (eth : EthernetHeader) (ip : Ipv4Header) (tcp : TcpHeader) (reserved : U4)
    (ipOptions tcpOptions payload frame : List Byte),
    Ready s → eth.etherType = 0x0800#16 → ip.version = 4#4 → 5 ≤ ip.headerLenWords.toNat → ip.protocol = 6#8 →
    5 ≤ tcp.dataOffsetWords.toNat → ipOptions.length = 4 * (ip.headerLenWords.toNat - 5) →
    tcpOptions.length = 4 * (tcp.dataOffsetWords.toNat - 5) →
    frame = ethBytes eth ++ ip4Bytes ip ++ ipOptions ++ tcpBytes tcp reserved ++ tcpOptions ++ payload →
    Shows s.mem 0 frame → s.caplen.toNat = frame.length →
    ∃ t r, exec .frameDecode s = .next t ∧ t.outcome = true ∧ t.record = some r ∧
      r.eth = eth ∧ r.ip = ip ∧ r.tcp = tcp ∧
      r.payloadOff.toNat = 14 + 4 * ip.headerLenWords.toNat + 4 * tcp.dataOffsetWords.toNat ∧
      r.payloadLen.toNat = payload.length ∧ r.capturedTotal = s.caplen ∧
      payloadView t = some payload ∧ previewView t = some (payload.take s.previewCap.toNat)

/-- R145, U1: `FRAME.DECODE` while a decode is in progress has no meaning and is refused by name. -/
def Obligations.StartWhileBusyIsRefused : Prop :=
  ∀ s : State, busy s = true → exec .frameDecode s = .refused .startWhileBusy

/-! ### Every instruction, every step -/

/-- R34, R43: no instruction and no step writes the frame buffer or an input register other than `CTRL`; every byte
reads as before. -/
def Obligations.NothingWritesInputsOrBuffer : Prop :=
  ∀ s t : State, ((∃ i, exec i s = .next t) ∨ step s = .next t) →
    t.mem = s.mem ∧ (∀ a, Memory.read t.mem a = Memory.read s.mem a) ∧
    t.caplen = s.caplen ∧ t.wirelen = s.wirelen ∧ t.previewCap = s.previewCap

/-- R42, R44, R113: no instruction and no step ends in the fault of an out-of-range `MemRead`, in any state, so every
`MemRead(addr, n)` has `addr + n ≤ c.len`. -/
def Obligations.NoMemReadLeavesTheBuffer : Prop :=
  ∀ (s : State) (f : Fault), (∀ i, exec i s ≠ .fault f) ∧ step s ≠ .fault f

/-- R41, R44: bytes at or beyond the captured length do not exist for HDRPARSE: buffers that agree below it give every
instruction and every step the same outcome. -/
def Obligations.BytesBeyondCaplenNeverMatter : Prop :=
  ∀ (s : State) (m' : List Host.Cell),
    SameBelow s.mem m' (max s.caplen.toNat s.curLen.toNat) →
    (∀ i, exec i { s with mem := m' } = mapNext (fun t => { t with mem := m' }) (exec i s)) ∧
    step { s with mem := m' } = mapNext (fun t => { t with mem := m' }) (step s)

/-- R44, R93 item 3, R101 item 3, R116: `FRAME.DECODE` reads the fixed portions of the headers and nothing else, no
option byte, no payload byte and nothing at or beyond `caplen`: buffers that agree, below `caplen`, on the offsets
`[0, 34)` and `[t, t + 20)`, with `t = 14 + 4 * ihl`, give it the same outcome. -/
def Obligations.FrameDecodeReadsOnlyHeaders : Prop :=
  ∀ (s : State) (m' : List Host.Cell),
    (∀ a, a < s.caplen.toNat → a < 34 ∨ (tcpOffset s.mem ≤ a ∧ a < tcpOffset s.mem + 20) →
      Memory.read s.mem a = Memory.read m' a) →
    exec .frameDecode { s with mem := m' } = mapNext (fun t => { t with mem := m' }) (exec .frameDecode s)

/-- R25, R35, R36, R124 and the control sequence of R24: the invariant of a run is kept by every step. -/
def Obligations.StepKeepsTheInvariant : Prop :=
  ∀ s t : State, Inv s → step s = .next t → Inv t

/-- The invariant holds right after reset (R39). -/
def Obligations.ResetMeetsTheInvariant : Prop := Inv State.reset

/-- R144, R145: what a host that is not refused does keeps the invariant. -/
def Obligations.HostKeepsTheInvariant : Prop :=
  ∀ (s t : State) (a : HostAction), Inv s → hostAct a s = .next t → Inv t

/-- R24: `PHASE` only ever moves along the arrows of the table, by a step and by what a host does short of reset; a
decode in progress moves on with every step. -/
def Obligations.PhaseMovesAlongTheArrows : Prop :=
  ∀ s t : State,
    (s.issue = [] → step s = .next t → phaseArrow s.phase t.phase = true) ∧
    (∀ a, a ≠ .assertReset → hostAct a s = .next t →
      t.phase = s.phase ∨ phaseArrow s.phase t.phase = true)

/-- R138, R131: in `IDLE` and `DONE`, with no start command, the machine does nothing and keeps all its state. -/
def Obligations.IdleAndDoneWait : Prop :=
  ∀ s : State, Ready s → s.issue = [] → s.ctrlStart = false → step s = .next s

/-- R104, R24: a start command, given while `PHASE` is `IDLE` or `DONE`, is accepted by the write that gives it: it
samples `CAPLEN` and `PREVIEW_CAP`, empties every result register, makes the cursor anew and sets `PHASE` to `S1`, so
that from then on the host reads `BUSY = 1`, `DONE = 0` and no result. (That the values held between steps and `ret`
are cleared is the model's, log entries 1 and 4, so is the place of `START` in `CTRL`, log entry 15, and so is the acceptance
with bytes below `CAPLEN` unfilled, log entry 17.) -/
def Obligations.StartIsAccepted : Prop :=
  ∀ (s : State) (v : U32), Ready s → v.getLsbD 0 = true →
    ∃ t, hostAct (.writeCtrl v) s = .next t ∧
      t = { s with
        phase := .s1, ctrlStart := false, curLen := s.caplen, curOff := 0, capLatch := s.previewCap
        record := none, held := Held.empty, ret := .none } ∧
      statusBit t 0 = some true ∧ statusBit t 1 = some false ∧
      (∀ i, 2 ≤ i → i ≤ 5 → statusBit t i = none) ∧
      ∀ r, r ∈ HostReg.all.drop 5 → hostRead r t = .refused .readOfNoValue

/-- R127, with the "raised by" column of R123: a step that ends a decode as `Skipped` sets `PHASE`, `OUTCOME` and a
`REASON` that its step can raise, empties every result register, and changes nothing else (the cursor's position and
the values held between the steps, which are internal and dropped, are left open). -/
def Obligations.EveryFailureIsOneSkip : Prop :=
  ∀ s t : State, Inv s → busy s = true → step s = .next t → t.phase = .done → t.outcome = false →
    ∃ r ∈ raises s.phase,
      t =
        { s with
          phase := .done, curOff := t.curOff, outcome := false, reason := some r, record := none
          held := t.held }

/-- R106, R108: step 2 and step 4. On a wrong `ether_type` or `protocol` the frame is skipped with `NotIpv4` or
`NotTcp`, whatever follows in the buffer; otherwise `PHASE` moves to `S3` or `S5` and nothing else changes. -/
def Obligations.FilterSteps : Prop :=
  ∀ s : State, Inv s →
    (s.phase = .s2 →
      (s.held.eth.etherType ≠ 0x0800#16 → step s = .next (skipped .notIpv4 s)) ∧
      (s.held.eth.etherType = 0x0800#16 → step s = .next { s with phase := .s3 })) ∧
    (s.phase = .s4 →
      (s.held.ip.protocol ≠ 6#8 → step s = .next (skipped .notTcp s)) ∧
      (s.held.ip.protocol = 6#8 → step s = .next { s with phase := .s5 }))

/-- R110: step 6 computes `payload_len = caplen - 14 - 4 * ihl - 4 * doff`, which is never negative, and nothing else. -/
def Obligations.PayloadLengthStep : Prop :=
  ∀ s : State, Inv s → s.phase = .s6 →
    14 + 4 * s.held.ip.headerLenWords.toNat + 4 * s.held.tcp.dataOffsetWords.toNat ≤ s.caplen.toNat ∧
    ∃ len : U32,
      len.toNat = s.caplen.toNat - 14 - 4 * s.held.ip.headerLenWords.toNat -
        4 * s.held.tcp.dataOffsetWords.toNat ∧
      step s = .next { s with phase := .s7, held := { s.held with payloadLen := len } }

/-- R111: step 7 writes all 27 result registers together, `PREVIEW_LEN` the lesser of the cap and the true length, and
ends as `Decoded` with no reason. (What the internal values held between the steps become is left open.) -/
def Obligations.ProduceStep : Prop :=
  ∀ s : State, s.issue = [] → s.phase = .s7 →
    ∃ (pre : U32) (dropped : Held), pre.toNat = min s.capLatch.toNat s.held.payloadLen.toNat ∧
      step s = .next
        { s with
          phase := .done, outcome := true, reason := none, held := dropped
          record := some
            { eth := s.held.eth, ip := s.held.ip, tcp := s.held.tcp, payloadOff := s.curOff,
              payloadLen := s.held.payloadLen, previewLen := pre, capturedTotal := s.curLen } }

/-! ### The host's side -/

/-- R145, R23: while `BUSY = 1` a write of `CTRL` or of an input register is refused and starts nothing. Otherwise an
input register takes the value, writing 1 to `CTRL.START` is the start of R104 and writing 0 does nothing. That `START`
is bit 0 of 32 (DESIGN CHOICE, log entry 15) and that a write of 0 is refused while busy (DEDUCED, log entry 8) are the
model's. -/
def Obligations.HostWrites : Prop :=
  ∀ (s : State) (v : U32),
    (busy s = true → hostAct (.writeCtrl v) s = .refused .startWhileBusy ∧
      ∀ r, hostAct (.writeInput r v) s = .refused .writeWhileBusy) ∧
    (busy s = false →
      (v.getLsbD 0 = true → ∃ t, hostAct (.writeCtrl v) s = .next t ∧ t.phase = .s1 ∧ t.record = none ∧
        t.caplen = s.caplen ∧ t.wirelen = s.wirelen ∧ t.previewCap = s.previewCap ∧ t.mem = s.mem) ∧
      (v.getLsbD 0 = false → hostAct (.writeCtrl v) s = .next s) ∧
      hostAct (.writeInput .caplen v) s = .next { s with caplen := v } ∧
      hostAct (.writeInput .wirelen v) s = .next { s with wirelen := v } ∧
      hostAct (.writeInput .previewCap v) s = .next { s with previewCap := v })

/-- R144, U3: from the start command until `DONE` a write below `caplen` is refused; every other buffer write, with no
decode in progress or at or beyond `caplen`, is answered, and one that is answered changes that byte of the buffer and
nothing else. (That writes beyond `caplen` are allowed during a decode is DEDUCED, log entry 8.) -/
def Obligations.HostBufferWrites : Prop :=
  ∀ (s : State) (offset : U32) (b : Byte),
    (Inv s → busy s = true → offset.toNat < s.caplen.toNat →
      hostAct (.writeBuffer offset b) s = .refused .bufferWriteWhileBusy) ∧
    (busy s = false ∨ (Inv s ∧ s.caplen.toNat ≤ offset.toNat) → ∃ t, hostAct (.writeBuffer offset b) s = .next t) ∧
    (∀ v t, v.getLsbD 0 = true → hostAct (.writeCtrl v) s = .next t → offset.toNat < s.caplen.toNat →
      hostAct (.writeBuffer offset b) t = .refused .bufferWriteWhileBusy) ∧
    (∀ t, hostAct (.writeBuffer offset b) s = .next t →
      t = { s with mem := t.mem } ∧ Memory.read t.mem offset.toNat = some b ∧
      ∀ a, a ≠ offset.toNat → Memory.read t.mem a = Memory.read s.mem a)

/-- R35, R146, U5, R26: a host read of a result register that holds no value, or of a result register, `OUTCOME` or
`REASON` while `DONE = 0`, has no meaning and yields no value, nor do the bits of these two fields in a read of
`STATUS`; with `DONE = 1` the two fields yield the outcome and the reason's code. (The container of a read is the
model's, log entry 14.) -/
def Obligations.NoValueIsNeverRead : Prop :=
  ∀ s : State,
    (isDone s = false ∨ s.record = none → ∀ r, r ∈ HostReg.all.drop 5 →
      hostRead r s = .refused .readOfNoValue) ∧
    (isDone s = false →
      hostReadOutcome s = .refused .readOfNoValue ∧ hostReadReason s = .refused .readOfNoValue ∧
      ∀ i, 2 ≤ i → i ≤ 5 → statusBit s i = none) ∧
    (isDone s = true →
      (∃ v : U32, hostReadOutcome s = .word v ∧ v.toNat = if s.outcome then 1 else 0) ∧
      ∃ v : U32, hostReadReason s = .word v ∧ v.toNat = (reasonCode s.reason).toNat)

/-- R28, R33, R34, R23: in `DONE` with a record, every one of registers 5 to 31 yields a value, and that of the register
its name and number say; `CTRL` reads as 0 and the input registers as what they hold, at any time. (The container of a
read, numbers widened with zeros, is the model's, DESIGN CHOICE, log entry 14. The premise on `CTRL.START`, which no
run reaches set, log entry 7, keeps out a state in which a start command stands, R146.) -/
def Obligations.ResultRegistersAreReadable : Prop :=
  (∀ (s : State) (rec : Record), isDone s = true → s.ctrlStart = false → s.record = some rec →
    (HostReg.all.drop 5).map (fun r => hostRead r s) =
      [.bytes (macBytes rec.eth.destMac), .bytes (macBytes rec.eth.srcMac),
       .word (rec.eth.etherType.setWidth 32), .word (rec.ip.version.setWidth 32),
       .word (rec.ip.headerLenWords.setWidth 32), .word (rec.ip.tos.setWidth 32),
       .word (rec.ip.totalLen.setWidth 32), .word (rec.ip.id.setWidth 32),
       .word (rec.ip.flagsFrag.setWidth 32), .word (rec.ip.ttl.setWidth 32),
       .word (rec.ip.protocol.setWidth 32), .word (rec.ip.checksum.setWidth 32),
       .bytes (addrBytes rec.ip.srcAddr), .bytes (addrBytes rec.ip.dstAddr),
       .word (rec.tcp.srcPort.setWidth 32), .word (rec.tcp.dstPort.setWidth 32),
       .word rec.tcp.seq, .word rec.tcp.ack, .word (rec.tcp.dataOffsetWords.setWidth 32),
       .word (rec.tcp.flags.setWidth 32), .word (rec.tcp.window.setWidth 32),
       .word (rec.tcp.checksum.setWidth 32), .word (rec.tcp.urgentPtr.setWidth 32),
       .word rec.payloadOff, .word rec.payloadLen, .word rec.previewLen, .word rec.capturedTotal]) ∧
  ∀ s : State, hostRead .ctrl s = .word 0 ∧ hostRead .caplen s = .word s.caplen ∧
    hostRead .wirelen s = .word s.wirelen ∧ hostRead .previewCap s = .word s.previewCap

/-- R26, R35: what a host reads in `STATUS`, bit by bit: `BUSY` in bit 0 and `DONE` in bit 1 in every state, zeros in
bits 31:6, and `OUTCOME` in bit 2 and `REASON` in bits 5:3, which yield a value with `DONE = 1` and none without. (The
form of the read is the model's, log entries 5 and 14.) -/
def Obligations.StatusFieldPositions : Prop :=
  ∀ s : State, ∃ bs : List (Option Bool), hostRead .status s = .bits bs ∧ bs.length = 32 ∧
    bs[0]? = some (some (decide (s.phase ≠ .idle ∧ s.phase ≠ .done))) ∧
    bs[1]? = some (some (decide (s.phase = .done))) ∧
    (∀ i, 6 ≤ i → i < 32 → bs[i]? = some (some false)) ∧
    (isDone s = true → bs[2]? = some (some s.outcome) ∧
      ∀ i, i < 3 → bs[3 + i]? = some (some ((reasonCode s.reason).getLsbD i))) ∧
    (isDone s = false → ∀ i, 2 ≤ i → i ≤ 5 → bs[i]? = some none)

/-- R124: the codes of `STATUS.REASON`. -/
def Obligations.ReasonCodes : Prop :=
  reasonCode none = 0 ∧ reasonCode (some .tooShortForEthernet) = 1 ∧ reasonCode (some .notIpv4) = 2 ∧
  reasonCode (some .tooShortForIp) = 3 ∧ reasonCode (some .invalidIpHeaderLength) = 4 ∧
  reasonCode (some .notTcp) = 5 ∧ reasonCode (some .tooShortForTcp) = 6 ∧
  reasonCode (some .invalidTcpHeaderLength) = 7 ∧
  ∀ s : State, Inv s → isDone s = true → (s.outcome = true ↔ reasonCode s.reason = 0)

/-- R136: instances share nothing: a step of one, or a host's action on one, is that instance's own and leaves every
other as it was. -/
def Obligations.InstancesAreIndependent : Prop :=
  ∀ (ss : List State) (k : Nat) (s : State), ss[k]? = some s →
    (∀ t, step s = .next t → ∃ ss', stepInstance k ss = .next ss' ∧ ss'.length = ss.length ∧ ss'[k]? = some t ∧
      ∀ j, j ≠ k → ss'[j]? = ss[j]?) ∧
    (∀ a t, hostAct a s = .next t → ∃ ss', actInstance k a ss = .next ss' ∧ ss'.length = ss.length ∧
      ss'[k]? = some t ∧ ∀ j, j ≠ k → ss'[j]? = ss[j]?)
end

