-- ==== Sys2Proof/Laws/Memory.lean ====
section
/-! SUPPORT. The frame buffer: reads after writes, the canonical form, and what a span of filled bytes reads as. -/

namespace Sys2Proof.Machine

open Sys2Proof.Safety

@[simp] theorem Memory.read_nil (a : Nat) : Memory.read [] a = none := rfl

theorem Memory.read_cons (c : Host.Cell) (m : List Host.Cell) (a : Nat) :
    Memory.read (c :: m) a = if c.1 = a then some c.2 else Memory.read m a := rfl

@[simp] theorem Memory.read_write_same (m : List Host.Cell) (a : Nat) (b : Byte) :
    Memory.read (Memory.write m a b) a = some b := by
  induction m with
  | nil => simp [Memory.write, Memory.read]
  | cons c m ih =>
    unfold Memory.write
    split
    · simp [Memory.read]
    · split
      · simp [Memory.read]
      · rw [Memory.read_cons, if_neg (by omega), ih]

theorem Memory.read_write_other (m : List Host.Cell) (a a' : Nat) (b : Byte) (h : a' ≠ a) :
    Memory.read (Memory.write m a b) a' = Memory.read m a' := by
  induction m with
  | nil => simp [Memory.write, Memory.read, h.symm]
  | cons c m ih =>
    unfold Memory.write
    split
    · simp [Memory.read_cons, h.symm]
    · split
      · rename_i hc
        simp [Memory.read_cons, h.symm, ← hc]
      · simp [Memory.read_cons, ih]

/-- A buffer is in canonical form when its tail is and its head lies below the tail's head. -/
theorem Memory.wf_cons (c : Host.Cell) (m : List Host.Cell) :
    Memory.wf (c :: m) = true ↔ c.1 < 2 ^ 32 ∧ (∀ d ∈ m.head?, c.1 < d.1) ∧ Memory.wf m = true := by
  induction m generalizing c with
  | nil => simp [Memory.wf]
  | cons d m ih =>
    simp only [Memory.wf, Bool.and_eq_true, decide_eq_true_eq, List.head?_cons, Option.mem_some_iff, forall_eq']
    constructor
    · intro h
      have := ((ih d).mp h.2).1
      exact ⟨by omega, h⟩
    · intro h
      exact h.2

/-- Where a written buffer begins. -/
theorem Memory.head_write (m : List Host.Cell) (a : Nat) (b : Byte) :
    ∀ d ∈ (Memory.write m a b).head?, d.1 = a ∨ ∃ c ∈ m.head?, d.1 = c.1 := by
  cases m with
  | nil => simp [Memory.write]
  | cons c m =>
    unfold Memory.write
    split
    · simp
    · split
      · simp
      · simp

/-- A write keeps the canonical form. -/
theorem Memory.write_wf (m : List Host.Cell) (a : Nat) (b : Byte) (ha : a < 2 ^ 32) (h : Memory.wf m = true) :
    Memory.wf (Memory.write m a b) = true := by
  induction m with
  | nil => simpa [Memory.write, Memory.wf] using ha
  | cons c m ih =>
    have hc := (Memory.wf_cons c m).mp h
    unfold Memory.write
    split
    · rw [Memory.wf_cons]
      exact ⟨ha, by simpa, h⟩
    · split
      · rename_i hac
        rw [Memory.wf_cons]
        exact ⟨ha, fun d hd => hac ▸ hc.2.1 d hd, hc.2.2⟩
      · rw [Memory.wf_cons]
        refine ⟨hc.1, fun d hd => ?_, ih hc.2.2⟩
        rcases Memory.head_write m a b d hd with hda | ⟨e, he, hde⟩
        · omega
        · rw [hde]
          exact hc.2.1 e he

/-- Placing a frame keeps the canonical form. -/
theorem Memory.fill_wf (m : List Host.Cell) (a : Nat) (bs : List Byte) (ha : a + bs.length ≤ 2 ^ 32)
    (h : Memory.wf m = true) : Memory.wf (Memory.fill m a bs) = true := by
  induction bs generalizing a with
  | nil => exact h
  | cons b bs ih =>
    simp only [List.length_cons] at ha
    exact Memory.write_wf _ _ _ (by omega) (ih (a + 1) (by omega))

/-- Placing a frame leaves what lies outside it alone. -/
theorem Memory.read_fill_outside (m : List Host.Cell) (a : Nat) (bs : List Byte) (x : Nat)
    (h : x < a ∨ a + bs.length ≤ x) : Memory.read (Memory.fill m a bs) x = Memory.read m x := by
  induction bs generalizing a with
  | nil => rfl
  | cons b bs ih =>
    simp only [List.length_cons] at h
    rw [Memory.fill, Memory.read_write_other _ _ _ _ (by omega)]
    exact ih (a + 1) (by omega)

/-- A placed frame reads back byte for byte. -/
theorem Memory.read_fill (m : List Host.Cell) (a : Nat) (bs : List Byte) (k : Nat) (h : k < bs.length) :
    Memory.read (Memory.fill m a bs) (a + k) = bs[k]? := by
  induction bs generalizing a k with
  | nil => simp at h
  | cons b bs ih =>
    rw [Memory.fill]
    cases k with
    | zero => simp
    | succ k =>
      rw [Memory.read_write_other _ _ _ _ (by omega), show a + (k + 1) = a + 1 + k by omega]
      simpa using ih (a + 1) k (by simpa using h)

/-- The reset buffer is in canonical form. -/
theorem Memory.reset_wf : Memory.wf State.reset.mem = true := rfl

/-- A part of a filled span is filled. -/
theorem filled_sub {m : List Host.Cell} {a n : Nat} (h : Filled m a n) (b k : Nat) (ha : a ≤ b)
    (hk : b + k ≤ a + n) : Filled m b k := by
  intro i hi
  have := h (b + i - a) (by omega)
  rwa [show a + (b + i - a) = b + i by omega] at this

/-- A filled byte is the one `byteAt` names. -/
theorem filled_read {m : List Host.Cell} {a n : Nat} (h : Filled m a n) (k : Nat) (hk : k < n) :
    Memory.read m (a + k) = some (byteAt m (a + k)) := by
  have := h k hk
  unfold byteAt
  cases hr : Memory.read m (a + k) with
  | none => simp [hr] at this
  | some b => rfl

/-- A filled span reads as its bytes in buffer order (R42). -/
theorem readSpan_filled (m : List Host.Cell) (a n : Nat) (h : Filled m a n) :
    readSpan m a n = some ((List.range n).map fun k => byteAt m (a + k)) := by
  induction n generalizing a with
  | zero => rfl
  | succ n ih =>
    have h0 := filled_read h 0 (by omega)
    have h1 := ih (a + 1) (filled_sub h (a + 1) n (by omega) (by omega))
    simp only [Nat.add_zero] at h0
    simp [readSpan, h0, h1, List.range_succ_eq_map, Function.comp_def, Nat.add_assoc, Nat.add_comm 1]

/-- A span that reads is filled. -/
theorem filled_of_readSpan (m : List Host.Cell) (a n : Nat) (bs : List Byte) (h : readSpan m a n = some bs) :
    Filled m a n := by
  induction n generalizing a bs with
  | zero => intro k hk; omega
  | succ n ih =>
    simp only [readSpan] at h
    split at h
    · rename_i b bs' hb hbs
      intro k hk
      cases k with
      | zero => simp [hb]
      | succ k =>
        have := ih (a + 1) bs' hbs k (by omega)
        rwa [show a + (k + 1) = a + 1 + k by omega]
    · cases h

/-- Two buffers that agree on a span read it alike. -/
theorem readSpan_congr (m m' : List Host.Cell) (a n : Nat)
    (h : ∀ x, a ≤ x → x < a + n → Memory.read m x = Memory.read m' x) : readSpan m a n = readSpan m' a n := by
  induction n generalizing a with
  | zero => rfl
  | succ n ih =>
    simp only [readSpan]
    rw [h a (by omega) (by omega), ih (a + 1) (fun x h1 h2 => h x (by omega) (by omega))]

/-- A read span has as many bytes as were asked for. -/
theorem readSpan_length (m : List Host.Cell) (a n : Nat) (bs : List Byte) (h : readSpan m a n = some bs) :
    bs.length = n := by
  have hf := readSpan_filled m a n (filled_of_readSpan m a n bs h)
  rw [h] at hf
  simpa using congrArg List.length (Option.some.inj hf)

end Sys2Proof.Machine
end

