-- ==== Sys2Proof/Laws/State.lean ====
section
/-! SUPPORT. What each named update of the state leaves in each field, one lemma a field, true by rfl. -/

namespace Sys2Proof.Machine

@[simp] theorem accept_phase (s : State) : (accept s).phase = .s1 := rfl
@[simp] theorem accept_ctrlStart (s : State) : (accept s).ctrlStart = false := rfl
@[simp] theorem accept_caplen (s : State) : (accept s).caplen = s.caplen := rfl
@[simp] theorem accept_wirelen (s : State) : (accept s).wirelen = s.wirelen := rfl
@[simp] theorem accept_previewCap (s : State) : (accept s).previewCap = s.previewCap := rfl
@[simp] theorem accept_curLen (s : State) : (accept s).curLen = s.caplen := rfl
@[simp] theorem accept_curOff (s : State) : (accept s).curOff = 0 := rfl
@[simp] theorem accept_capLatch (s : State) : (accept s).capLatch = s.previewCap := rfl
@[simp] theorem accept_held (s : State) : (accept s).held = Held.empty := rfl
@[simp] theorem accept_outcome (s : State) : (accept s).outcome = s.outcome := rfl
@[simp] theorem accept_reason (s : State) : (accept s).reason = s.reason := rfl
@[simp] theorem accept_record (s : State) : (accept s).record = none := rfl
@[simp] theorem accept_mem (s : State) : (accept s).mem = s.mem := rfl
@[simp] theorem accept_ret (s : State) : (accept s).ret = .none := rfl
@[simp] theorem accept_issue (s : State) : (accept s).issue = s.issue := rfl

@[simp] theorem skipped_phase (r : SkipReason) (s : State) : (skipped r s).phase = .done := rfl
@[simp] theorem skipped_ctrlStart (r : SkipReason) (s : State) : (skipped r s).ctrlStart = s.ctrlStart := rfl
@[simp] theorem skipped_caplen (r : SkipReason) (s : State) : (skipped r s).caplen = s.caplen := rfl
@[simp] theorem skipped_wirelen (r : SkipReason) (s : State) : (skipped r s).wirelen = s.wirelen := rfl
@[simp] theorem skipped_previewCap (r : SkipReason) (s : State) : (skipped r s).previewCap = s.previewCap := rfl
@[simp] theorem skipped_curLen (r : SkipReason) (s : State) : (skipped r s).curLen = s.curLen := rfl
@[simp] theorem skipped_curOff (r : SkipReason) (s : State) : (skipped r s).curOff = s.curOff := rfl
@[simp] theorem skipped_capLatch (r : SkipReason) (s : State) : (skipped r s).capLatch = s.capLatch := rfl
@[simp] theorem skipped_held (r : SkipReason) (s : State) : (skipped r s).held = Held.empty := rfl
@[simp] theorem skipped_outcome (r : SkipReason) (s : State) : (skipped r s).outcome = false := rfl
@[simp] theorem skipped_reason (r : SkipReason) (s : State) : (skipped r s).reason = some r := rfl
@[simp] theorem skipped_record (r : SkipReason) (s : State) : (skipped r s).record = none := rfl
@[simp] theorem skipped_mem (r : SkipReason) (s : State) : (skipped r s).mem = s.mem := rfl
@[simp] theorem skipped_ret (r : SkipReason) (s : State) : (skipped r s).ret = s.ret := rfl
@[simp] theorem skipped_issue (r : SkipReason) (s : State) : (skipped r s).issue = s.issue := rfl

@[simp] theorem decoded_phase (s : State) : (decoded s).phase = .done := rfl
@[simp] theorem decoded_ctrlStart (s : State) : (decoded s).ctrlStart = s.ctrlStart := rfl
@[simp] theorem decoded_caplen (s : State) : (decoded s).caplen = s.caplen := rfl
@[simp] theorem decoded_wirelen (s : State) : (decoded s).wirelen = s.wirelen := rfl
@[simp] theorem decoded_previewCap (s : State) : (decoded s).previewCap = s.previewCap := rfl
@[simp] theorem decoded_curLen (s : State) : (decoded s).curLen = s.curLen := rfl
@[simp] theorem decoded_curOff (s : State) : (decoded s).curOff = s.curOff := rfl
@[simp] theorem decoded_capLatch (s : State) : (decoded s).capLatch = s.capLatch := rfl
@[simp] theorem decoded_held (s : State) : (decoded s).held = Held.empty := rfl
@[simp] theorem decoded_outcome (s : State) : (decoded s).outcome = true := rfl
@[simp] theorem decoded_reason (s : State) : (decoded s).reason = none := rfl
@[simp] theorem decoded_record (s : State) : (decoded s).record = some (recordOf s) := rfl
@[simp] theorem decoded_mem (s : State) : (decoded s).mem = s.mem := rfl
@[simp] theorem decoded_ret (s : State) : (decoded s).ret = s.ret := rfl
@[simp] theorem decoded_issue (s : State) : (decoded s).issue = s.issue := rfl

@[simp] theorem moveCursor_phase (n : Nat) (s : State) : (moveCursor n s).phase = s.phase := rfl
@[simp] theorem moveCursor_ctrlStart (n : Nat) (s : State) : (moveCursor n s).ctrlStart = s.ctrlStart := rfl
@[simp] theorem moveCursor_caplen (n : Nat) (s : State) : (moveCursor n s).caplen = s.caplen := rfl
@[simp] theorem moveCursor_wirelen (n : Nat) (s : State) : (moveCursor n s).wirelen = s.wirelen := rfl
@[simp] theorem moveCursor_previewCap (n : Nat) (s : State) : (moveCursor n s).previewCap = s.previewCap := rfl
@[simp] theorem moveCursor_curLen (n : Nat) (s : State) : (moveCursor n s).curLen = s.curLen := rfl
@[simp] theorem moveCursor_curOff (n : Nat) (s : State) : (moveCursor n s).curOff = BitVec.ofNat 32 (s.curOff.toNat + n) := rfl
@[simp] theorem moveCursor_capLatch (n : Nat) (s : State) : (moveCursor n s).capLatch = s.capLatch := rfl
@[simp] theorem moveCursor_held (n : Nat) (s : State) : (moveCursor n s).held = s.held := rfl
@[simp] theorem moveCursor_outcome (n : Nat) (s : State) : (moveCursor n s).outcome = s.outcome := rfl
@[simp] theorem moveCursor_reason (n : Nat) (s : State) : (moveCursor n s).reason = s.reason := rfl
@[simp] theorem moveCursor_record (n : Nat) (s : State) : (moveCursor n s).record = s.record := rfl
@[simp] theorem moveCursor_mem (n : Nat) (s : State) : (moveCursor n s).mem = s.mem := rfl
@[simp] theorem moveCursor_ret (n : Nat) (s : State) : (moveCursor n s).ret = s.ret := rfl
@[simp] theorem moveCursor_issue (n : Nat) (s : State) : (moveCursor n s).issue = s.issue := rfl

@[simp] theorem resetState_phase (s : State) : (resetState s).phase = State.reset.phase := rfl
@[simp] theorem resetState_ctrlStart (s : State) : (resetState s).ctrlStart = State.reset.ctrlStart := rfl
@[simp] theorem resetState_caplen (s : State) : (resetState s).caplen = State.reset.caplen := rfl
@[simp] theorem resetState_wirelen (s : State) : (resetState s).wirelen = State.reset.wirelen := rfl
@[simp] theorem resetState_previewCap (s : State) : (resetState s).previewCap = State.reset.previewCap := rfl
@[simp] theorem resetState_curLen (s : State) : (resetState s).curLen = State.reset.curLen := rfl
@[simp] theorem resetState_curOff (s : State) : (resetState s).curOff = State.reset.curOff := rfl
@[simp] theorem resetState_capLatch (s : State) : (resetState s).capLatch = State.reset.capLatch := rfl
@[simp] theorem resetState_held (s : State) : (resetState s).held = State.reset.held := rfl
@[simp] theorem resetState_outcome (s : State) : (resetState s).outcome = State.reset.outcome := rfl
@[simp] theorem resetState_reason (s : State) : (resetState s).reason = State.reset.reason := rfl
@[simp] theorem resetState_record (s : State) : (resetState s).record = State.reset.record := rfl
@[simp] theorem resetState_mem (s : State) : (resetState s).mem = s.mem := rfl
@[simp] theorem resetState_ret (s : State) : (resetState s).ret = State.reset.ret := rfl
@[simp] theorem resetState_issue (s : State) : (resetState s).issue = State.reset.issue := rfl

end Sys2Proof.Machine
end

