-- ==== Sys2Proof/Laws/Cursor.lean ====
section
/-! SUPPORT. The cursor: what each operation answers, and everything a successful one can have done. -/

namespace Sys2Proof.Machine

open Sys2Proof.Safety

/-! ### The result of an operation -/

@[simp] theorem Run.bind_value {ε α β : Type} (v : α) (s : State) (k : α → State → Run ε β) :
    (Run.value v s).bind k = k v s := rfl

@[simp] theorem Run.bind_fail {ε α β : Type} (e : ε) (s : State) (k : α → State → Run ε β) :
    (Run.fail e s).bind k = .fail e s := rfl

@[simp] theorem Run.bind_fault {ε α β : Type} (f : Fault) (k : α → State → Run ε β) :
    (Run.fault f).bind k = .fault f := rfl

@[simp] theorem Run.bind_refused {ε α β : Type} (r : Refusal) (k : α → State → Run ε β) :
    (Run.refused r).bind k = .refused r := rfl

@[simp] theorem Run.orFail_value {ε ε' α : Type} (v : α) (s : State) (e' : ε') :
    (Run.value v s : Run ε α).orFail e' = .value v s := rfl

@[simp] theorem Run.orFail_fail {ε ε' α : Type} (e : ε) (s : State) (e' : ε') :
    (Run.fail e s : Run ε α).orFail e' = .fail e' s := rfl

@[simp] theorem Run.orFail_fault {ε ε' α : Type} (f : Fault) (e' : ε') :
    (Run.fault f : Run ε α).orFail e' = .fault f := rfl

@[simp] theorem Run.orFail_refused {ε ε' α : Type} (r : Refusal) (e' : ε') :
    (Run.refused r : Run ε α).orFail e' = .refused r := rfl

@[simp] theorem Run.finish_value {ε α : Type} (v : α) (s : State) (f : α → Ret) (g : ε → Ret) :
    (Run.value v s : Run ε α).finish f g = .next { s with ret := f v } := rfl

@[simp] theorem Run.finish_fail {ε α : Type} (e : ε) (s : State) (f : α → Ret) (g : ε → Ret) :
    (Run.fail e s : Run ε α).finish f g = .next { s with ret := g e } := rfl

@[simp] theorem Run.finish_refused {ε α : Type} (r : Refusal) (f : α → Ret) (g : ε → Ret) :
    (Run.refused r : Run ε α).finish f g = .refused r := rfl

@[simp] theorem Run.finish_fault {ε α : Type} (x : Fault) (f : α → Ret) (g : ε → Ret) :
    (Run.fault x : Run ε α).finish f g = .fault x := rfl

@[simp] theorem Run.orSkipped_value {α : Type} (v : α) (s : State)
    (k : α → State → Host.Outcome State Fault Refusal) : (Run.value v s).orSkipped k = k v s := rfl

@[simp] theorem Run.orSkipped_fail {α : Type} (r : SkipReason) (s : State)
    (k : α → State → Host.Outcome State Fault Refusal) : (Run.fail r s).orSkipped k = .next (skipped r s) := rfl

/-! ### Moving the cursor -/

theorem moveCursor_moveCursor (n k : Nat) (s : State) : moveCursor k (moveCursor n s) = moveCursor (n + k) s := by
  have : BitVec.ofNat 32 ((BitVec.ofNat 32 (s.curOff.toNat + n)).toNat + k) =
      BitVec.ofNat 32 (s.curOff.toNat + (n + k)) := by
    apply BitVec.eq_of_toNat_eq
    simp only [BitVec.toNat_ofNat]
    omega
  simp only [moveCursor, this]

@[simp] theorem moveCursor_zero (s : State) : moveCursor 0 s = s := by simp [moveCursor]

theorem moveCursor_toNat (n : Nat) (s : State) (h : s.curOff.toNat + n ≤ s.curLen.toNat) :
    (moveCursor n s).curOff.toNat = s.curOff.toNat + n := by
  have := s.curLen.isLt
  simp only [moveCursor_curOff, BitVec.toNat_ofNat]
  omega

/-! ### The bounds law -/

theorem takeBytes_outOfBounds (n : Nat) (s : State) (h : s.curLen.toNat < s.curOff.toNat + n) :
    takeBytes n s = .fail .outOfBounds s := by simp [takeBytes, h]

theorem takeBytes_value (n : Nat) (s : State) (bs : List Byte) (h : s.curOff.toNat + n ≤ s.curLen.toNat)
    (hr : readSpan s.mem s.curOff.toNat n = some bs) : takeBytes n s = .value bs (moveCursor n s) := by
  simp [takeBytes, memRead, Nat.not_lt.mpr h, hr]

theorem takeBytes_unfilled (n : Nat) (s : State) (h : s.curOff.toNat + n ≤ s.curLen.toNat)
    (hr : readSpan s.mem s.curOff.toNat n = none) : takeBytes n s = .refused .unfilledFrameByte := by
  simp [takeBytes, memRead, Nat.not_lt.mpr h, hr]

/-- Everything `takeBytes` can do: it never answers a fault, so no `MemRead` leaves `[0, c.len)` (R44). -/
theorem takeBytes_cases (n : Nat) (s : State) :
    (s.curLen.toNat < s.curOff.toNat + n ∧ takeBytes n s = .fail .outOfBounds s) ∨
    (s.curOff.toNat + n ≤ s.curLen.toNat ∧ readSpan s.mem s.curOff.toNat n = none ∧
      takeBytes n s = .refused .unfilledFrameByte) ∨
    (s.curOff.toNat + n ≤ s.curLen.toNat ∧ ∃ bs, readSpan s.mem s.curOff.toNat n = some bs ∧ bs.length = n ∧
      takeBytes n s = .value bs (moveCursor n s)) := by
  by_cases h : s.curLen.toNat < s.curOff.toNat + n
  · exact .inl ⟨h, takeBytes_outOfBounds n s h⟩
  · have h' := Nat.not_lt.mp h
    cases hr : readSpan s.mem s.curOff.toNat n with
    | none => exact .inr (.inl ⟨h', rfl, takeBytes_unfilled n s h' hr⟩)
    | some bs => exact .inr (.inr ⟨h', bs, rfl, readSpan_length _ _ _ _ hr, takeBytes_value n s bs h' hr⟩)

/-- Everything `skipBytes` can do. -/
theorem skipBytes_cases (n : Nat) (s : State) :
    (s.curLen.toNat < s.curOff.toNat + n ∧ skipBytes n s = .fail .outOfBounds s) ∨
    (s.curOff.toNat + n ≤ s.curLen.toNat ∧ skipBytes n s = .value () (moveCursor n s)) := by
  by_cases h : s.curLen.toNat < s.curOff.toNat + n
  · exact .inl ⟨h, by simp [skipBytes, h]⟩
  · exact .inr ⟨Nat.not_lt.mp h, by simp [skipBytes, h]⟩

/-! ### Reads at `k` bytes past a state's cursor -/

theorem takeBytes_at (k n : Nat) (s : State) (h : s.curOff.toNat + k + n ≤ s.curLen.toNat)
    (hf : Filled s.mem (s.curOff.toNat + k) n) :
    takeBytes n (moveCursor k s) =
      .value ((List.range n).map fun i => byteAt s.mem (s.curOff.toNat + k + i)) (moveCursor (k + n) s) := by
  have hk := moveCursor_toNat k s (by omega)
  rw [takeBytes_value n (moveCursor k s) _ (by rw [hk]; simpa using h)
    (by rw [hk]; exact readSpan_filled s.mem _ n hf), moveCursor_moveCursor]

theorem readU8_at (k : Nat) (s : State) (h : s.curOff.toNat + k + 1 ≤ s.curLen.toNat)
    (hf : Filled s.mem (s.curOff.toNat + k) 1) :
    readU8 (moveCursor k s) = .value (byteAt s.mem (s.curOff.toNat + k)) (moveCursor (k + 1) s) := by
  simp [readU8, takeBytes_at k 1 s h hf]

theorem readU16Be_at (k : Nat) (s : State) (h : s.curOff.toNat + k + 2 ≤ s.curLen.toNat)
    (hf : Filled s.mem (s.curOff.toNat + k) 2) :
    readU16Be (moveCursor k s) = .value (u16At s.mem (s.curOff.toNat + k)) (moveCursor (k + 2) s) := by
  simp [readU16Be, takeBytes_at k 2 s h hf, u16At, List.range_succ]

theorem readU32Be_at (k : Nat) (s : State) (h : s.curOff.toNat + k + 4 ≤ s.curLen.toNat)
    (hf : Filled s.mem (s.curOff.toNat + k) 4) :
    readU32Be (moveCursor k s) = .value (u32At s.mem (s.curOff.toNat + k)) (moveCursor (k + 4) s) := by
  simp [readU32Be, takeBytes_at k 4 s h hf, u32At, List.range_succ]

theorem readBytes_mac_at (k : Nat) (s : State) (h : s.curOff.toNat + k + 6 ≤ s.curLen.toNat)
    (hf : Filled s.mem (s.curOff.toNat + k) 6) :
    ∃ bs, readBytes 6 (moveCursor k s) = .value bs (moveCursor (k + 6) s) ∧
      macOf bs = macAt s.mem (s.curOff.toNat + k) :=
  ⟨_, takeBytes_at k 6 s h hf, by simp [macOf, macAt, List.range_succ]⟩

theorem readBytes_addr_at (k : Nat) (s : State) (h : s.curOff.toNat + k + 4 ≤ s.curLen.toNat)
    (hf : Filled s.mem (s.curOff.toNat + k) 4) :
    ∃ bs, readBytes 4 (moveCursor k s) = .value bs (moveCursor (k + 4) s) ∧
      addrOf bs = addrAt s.mem (s.curOff.toNat + k) :=
  ⟨_, takeBytes_at k 4 s h hf, by simp [addrOf, addrAt, List.range_succ]⟩

theorem advance_at (k n : Nat) (s : State) (h : s.curOff.toNat + k + n ≤ s.curLen.toNat) :
    advance n (moveCursor k s) = .value () (moveCursor (k + n) s) := by
  have hk := moveCursor_toNat k s (by omega)
  simp only [advance, skipBytes, hk, moveCursor_curLen, Nat.not_lt.mpr h, if_false, moveCursor_moveCursor]

theorem advance_at_outOfBounds (k n : Nat) (s : State) (hk : s.curOff.toNat + k ≤ s.curLen.toNat)
    (h : s.curLen.toNat < s.curOff.toNat + k + n) :
    advance n (moveCursor k s) = .fail .outOfBounds (moveCursor k s) := by
  simp only [advance, skipBytes, moveCursor_toNat k s hk, moveCursor_curLen, h, if_true]

/-! ### Reads that run out of bytes at `k` bytes past a state's cursor -/

theorem takeBytes_at_outOfBounds (k n : Nat) (s : State) (hk : s.curOff.toNat + k ≤ s.curLen.toNat)
    (h : s.curLen.toNat < s.curOff.toNat + k + n) :
    takeBytes n (moveCursor k s) = .fail .outOfBounds (moveCursor k s) :=
  takeBytes_outOfBounds n _ (by rw [moveCursor_toNat k s hk]; exact h)

theorem readU8_at_outOfBounds (k : Nat) (s : State) (hk : s.curOff.toNat + k ≤ s.curLen.toNat)
    (h : s.curLen.toNat < s.curOff.toNat + k + 1) :
    readU8 (moveCursor k s) = .fail .outOfBounds (moveCursor k s) := by
  simp [readU8, takeBytes_at_outOfBounds k 1 s hk h]

theorem readU16Be_at_outOfBounds (k : Nat) (s : State) (hk : s.curOff.toNat + k ≤ s.curLen.toNat)
    (h : s.curLen.toNat < s.curOff.toNat + k + 2) :
    readU16Be (moveCursor k s) = .fail .outOfBounds (moveCursor k s) := by
  simp [readU16Be, takeBytes_at_outOfBounds k 2 s hk h]

theorem readBytes_at_outOfBounds (k n : Nat) (s : State) (hk : s.curOff.toNat + k ≤ s.curLen.toNat)
    (h : s.curLen.toNat < s.curOff.toNat + k + n) :
    readBytes n (moveCursor k s) = .fail .outOfBounds (moveCursor k s) :=
  takeBytes_at_outOfBounds k n s hk h

/-! ### What any cursor operation can do -/

/-- An operation only moves the cursor, and only inside `[0, c.len]`; it never answers a fault (R44, R71). -/
def OnlyMoves {ε α : Type} (s : State) (x : Run ε α) : Prop :=
  match x with
  | .value _ t => ∃ n, t = moveCursor n s ∧ (s.curOff.toNat ≤ s.curLen.toNat → s.curOff.toNat + n ≤ s.curLen.toNat)
  | .fail _ t => ∃ n, t = moveCursor n s ∧ (s.curOff.toNat ≤ s.curLen.toNat → s.curOff.toNat + n ≤ s.curLen.toNat)
  | .fault _ => False
  | .refused r => r = .unfilledFrameByte

theorem OnlyMoves.value {ε α : Type} (v : α) (s : State) : OnlyMoves s (Run.value v s : Run ε α) :=
  ⟨0, by simp, by simp⟩

theorem OnlyMoves.fail {ε α : Type} (e : ε) (s : State) : OnlyMoves s (Run.fail e s : Run ε α) :=
  ⟨0, by simp, by simp⟩

theorem OnlyMoves.orFail {ε ε' α : Type} {s : State} {x : Run ε α} (h : OnlyMoves s x) (e' : ε') :
    OnlyMoves s (x.orFail e') := by cases x <;> exact h

theorem OnlyMoves.bind {ε α β : Type} {s : State} {x : Run ε α} {k : α → State → Run ε β} (h : OnlyMoves s x)
    (hk : ∀ v t, OnlyMoves t (k v t)) : OnlyMoves s (x.bind k) := by
  cases x with
  | fail e t => exact h
  | fault f => exact h
  | refused r => exact h
  | value v t =>
    obtain ⟨n, rfl, hn⟩ := h
    have hv := hk v (moveCursor n s)
    simp only [Run.bind_value]
    generalize k v (moveCursor n s) = y at hv
    cases y with
    | fault f => exact hv
    | refused r => exact hv
    | value w t =>
      obtain ⟨m, rfl, hm⟩ := hv
      refine ⟨n + m, moveCursor_moveCursor n m s, fun hs => ?_⟩
      have := hn hs
      rw [moveCursor_toNat n s this, moveCursor_curLen] at hm
      have := hm this
      omega
    | fail w t =>
      obtain ⟨m, rfl, hm⟩ := hv
      refine ⟨n + m, moveCursor_moveCursor n m s, fun hs => ?_⟩
      have := hn hs
      rw [moveCursor_toNat n s this, moveCursor_curLen] at hm
      have := hm this
      omega

theorem takeBytes_onlyMoves (n : Nat) (s : State) : OnlyMoves s (takeBytes n s) := by
  rcases takeBytes_cases n s with ⟨-, h⟩ | ⟨-, -, h⟩ | ⟨hb, bs, -, -, h⟩ <;> rw [h]
  · exact OnlyMoves.fail _ _
  · rfl
  · exact ⟨n, rfl, fun _ => hb⟩

theorem readU8_onlyMoves (s : State) : OnlyMoves s (readU8 s) :=
  (takeBytes_onlyMoves 1 s).bind fun _ _ => OnlyMoves.value _ _

theorem readU16Be_onlyMoves (s : State) : OnlyMoves s (readU16Be s) :=
  (takeBytes_onlyMoves 2 s).bind fun _ _ => OnlyMoves.value _ _

theorem readU32Be_onlyMoves (s : State) : OnlyMoves s (readU32Be s) :=
  (takeBytes_onlyMoves 4 s).bind fun _ _ => OnlyMoves.value _ _

theorem readBytes_onlyMoves (n : Nat) (s : State) : OnlyMoves s (readBytes n s) := takeBytes_onlyMoves n s

theorem advance_onlyMoves (n : Nat) (s : State) : OnlyMoves s (advance n s) := by
  rcases skipBytes_cases n s with ⟨-, h⟩ | ⟨hb, h⟩ <;> rw [advance, h]
  · exact OnlyMoves.fail _ _
  · exact ⟨n, rfl, fun _ => hb⟩

end Sys2Proof.Machine
end

