-- ==== Sys2Proof/Laws/Readers.lean ====
section
/-! SUPPORT. The three readers: what each answers, as a function of the bytes at the cursor (R84, R93, R101). -/

namespace Sys2Proof.Machine

open Sys2Proof.Safety

/-! ### EthernetHeaderReader -/

theorem readEthernet_short (s : State) (h : remaining s < 14) :
    readEthernet s = .fail .tooShortForEthernet s := by simp [readEthernet, h]

theorem readEthernet_value (s : State) (h : s.curOff.toNat + 14 ≤ s.curLen.toNat)
    (hf : Filled s.mem s.curOff.toNat 14) :
    readEthernet s = .value (ethAt s.mem s.curOff.toNat) (moveCursor 14 s) := by
  obtain ⟨d, hd, hdm⟩ := readBytes_mac_at 0 s (by omega) (filled_sub hf _ 6 (by omega) (by omega))
  obtain ⟨c, hc, hcm⟩ := readBytes_mac_at 6 s (by omega) (filled_sub hf _ 6 (by omega) (by omega))
  have ht := readU16Be_at 12 s (by omega) (filled_sub hf _ 2 (by omega) (by omega))
  simp only [moveCursor_zero] at hd
  have hr : ¬ remaining s < 14 := by unfold remaining; omega
  simp [readEthernet, hr, hd, hc, ht, hdm, hcm, ethAt]

theorem readEthernet_onlyMoves (s : State) : OnlyMoves s (readEthernet s) := by
  unfold readEthernet
  split
  · exact OnlyMoves.fail _ _
  · exact ((readBytes_onlyMoves 6 _).orFail _).bind fun _ _ =>
      ((readBytes_onlyMoves 6 _).orFail _).bind fun _ _ =>
      ((readU16Be_onlyMoves _).orFail _).bind fun _ _ => OnlyMoves.value _ _

/-! ### Ipv4HeaderReader -/

theorem readIpv4_empty (s : State) (h : remaining s < 1) : readIpv4 s = .fail .tooShortForIp s := by
  simp [readIpv4, h]

/-- The reader once byte 0 has been read. -/
theorem readIpv4_byteZero (s : State) (h : s.curOff.toNat + 1 ≤ s.curLen.toNat)
    (hf : Filled s.mem s.curOff.toNat 1) :
    readIpv4 s =
      (if (lowNibble (byteAt s.mem s.curOff.toNat)).toNat < 5 then
        .fail .invalidIpHeaderLength (moveCursor 1 s)
      else if highNibble (byteAt s.mem s.curOff.toNat) ≠ 4#4 then .fail .notIpv4 (moveCursor 1 s)
      else
        (readIpv4Fixed (highNibble (byteAt s.mem s.curOff.toNat)) (lowNibble (byteAt s.mem s.curOff.toNat))
          (moveCursor 1 s)).bind skipIpv4Options) := by
  have h0 := readU8_at 0 s (by omega) hf
  simp only [moveCursor_zero, Nat.add_zero, Nat.zero_add] at h0
  have hr : ¬ remaining s < 1 := by unfold remaining; omega
  simp [readIpv4, hr, h0]

theorem readIpv4Fixed_value (s : State) (v l : U4) (h : s.curOff.toNat + 20 ≤ s.curLen.toNat)
    (hf : Filled s.mem s.curOff.toNat 20) :
    readIpv4Fixed v l (moveCursor 1 s) =
      .value { ip4At s.mem s.curOff.toNat with version := v, headerLenWords := l } (moveCursor 20 s) := by
  have h1 := readU8_at 1 s (by omega) (filled_sub hf _ 1 (by omega) (by omega))
  have h2 := readU16Be_at 2 s (by omega) (filled_sub hf _ 2 (by omega) (by omega))
  have h3 := readU16Be_at 4 s (by omega) (filled_sub hf _ 2 (by omega) (by omega))
  have h4 := readU16Be_at 6 s (by omega) (filled_sub hf _ 2 (by omega) (by omega))
  have h5 := readU8_at 8 s (by omega) (filled_sub hf _ 1 (by omega) (by omega))
  have h6 := readU8_at 9 s (by omega) (filled_sub hf _ 1 (by omega) (by omega))
  have h7 := readU16Be_at 10 s (by omega) (filled_sub hf _ 2 (by omega) (by omega))
  obtain ⟨c, h8, hc⟩ := readBytes_addr_at 12 s (by omega) (filled_sub hf _ 4 (by omega) (by omega))
  obtain ⟨d, h9, hd⟩ := readBytes_addr_at 16 s (by omega) (filled_sub hf _ 4 (by omega) (by omega))
  simp [readIpv4Fixed, h1, h2, h3, h4, h5, h6, h7, h8, h9, hc, hd, ip4At]

/-- The fixed portion cut short fails with `TooShortForIp`, the cursor somewhere before the end (R90). -/
theorem readIpv4Fixed_short (s : State) (v l : U4) (h1 : s.curOff.toNat + 1 ≤ s.curLen.toNat)
    (h : s.curLen.toNat < s.curOff.toNat + 20)
    (hf : Filled s.mem s.curOff.toNat (s.curLen.toNat - s.curOff.toNat)) :
    ∃ k, 1 ≤ k ∧ k < 20 ∧ s.curOff.toNat + k ≤ s.curLen.toNat ∧
      readIpv4Fixed v l (moveCursor 1 s) = .fail .tooShortForIp (moveCursor k s) := by
  unfold readIpv4Fixed
  by_cases g1 : s.curOff.toNat + 2 ≤ s.curLen.toNat
  swap
  · exact ⟨1, by omega, by omega, by omega, by simp [readU8_at_outOfBounds 1 s h1 (by omega)]⟩
  rw [readU8_at 1 s (by omega) (filled_sub hf _ 1 (by omega) (by omega))]
  simp only [Run.orFail_value, Run.bind_value, Nat.reduceAdd]
  by_cases g2 : s.curOff.toNat + 4 ≤ s.curLen.toNat
  swap
  · exact ⟨2, by omega, by omega, by omega, by simp [readU16Be_at_outOfBounds 2 s g1 (by omega)]⟩
  rw [readU16Be_at 2 s (by omega) (filled_sub hf _ 2 (by omega) (by omega))]
  simp only [Run.orFail_value, Run.bind_value, Nat.reduceAdd]
  by_cases g3 : s.curOff.toNat + 6 ≤ s.curLen.toNat
  swap
  · exact ⟨4, by omega, by omega, by omega, by simp [readU16Be_at_outOfBounds 4 s g2 (by omega)]⟩
  rw [readU16Be_at 4 s (by omega) (filled_sub hf _ 2 (by omega) (by omega))]
  simp only [Run.orFail_value, Run.bind_value, Nat.reduceAdd]
  by_cases g4 : s.curOff.toNat + 8 ≤ s.curLen.toNat
  swap
  · exact ⟨6, by omega, by omega, by omega, by simp [readU16Be_at_outOfBounds 6 s g3 (by omega)]⟩
  rw [readU16Be_at 6 s (by omega) (filled_sub hf _ 2 (by omega) (by omega))]
  simp only [Run.orFail_value, Run.bind_value, Nat.reduceAdd]
  by_cases g5 : s.curOff.toNat + 9 ≤ s.curLen.toNat
  swap
  · exact ⟨8, by omega, by omega, by omega, by simp [readU8_at_outOfBounds 8 s g4 (by omega)]⟩
  rw [readU8_at 8 s (by omega) (filled_sub hf _ 1 (by omega) (by omega))]
  simp only [Run.orFail_value, Run.bind_value, Nat.reduceAdd]
  by_cases g6 : s.curOff.toNat + 10 ≤ s.curLen.toNat
  swap
  · exact ⟨9, by omega, by omega, by omega, by simp [readU8_at_outOfBounds 9 s g5 (by omega)]⟩
  rw [readU8_at 9 s (by omega) (filled_sub hf _ 1 (by omega) (by omega))]
  simp only [Run.orFail_value, Run.bind_value, Nat.reduceAdd]
  by_cases g7 : s.curOff.toNat + 12 ≤ s.curLen.toNat
  swap
  · exact ⟨10, by omega, by omega, by omega, by simp [readU16Be_at_outOfBounds 10 s g6 (by omega)]⟩
  rw [readU16Be_at 10 s (by omega) (filled_sub hf _ 2 (by omega) (by omega))]
  simp only [Run.orFail_value, Run.bind_value, Nat.reduceAdd]
  by_cases g8 : s.curOff.toNat + 16 ≤ s.curLen.toNat
  swap
  · exact ⟨12, by omega, by omega, by omega, by simp [readBytes_at_outOfBounds 12 4 s g7 (by omega)]⟩
  obtain ⟨c, h8, -⟩ := readBytes_addr_at 12 s (by omega) (filled_sub hf _ 4 (by omega) (by omega))
  rw [h8]
  simp only [Run.orFail_value, Run.bind_value, Nat.reduceAdd]
  exact ⟨16, by omega, by omega, by omega, by simp [readBytes_at_outOfBounds 16 4 s g8 (by omega)]⟩

theorem skipIpv4Options_value (ip : Ipv4Header) (s : State) (hw : 5 ≤ ip.headerLenWords.toNat)
    (h : s.curOff.toNat + headerBytes ip.headerLenWords ≤ s.curLen.toNat) :
    skipIpv4Options ip (moveCursor 20 s) = .value ip (moveCursor (headerBytes ip.headerLenWords) s) := by
  unfold headerBytes at h
  unfold skipIpv4Options
  split
  · rename_i h5
    rw [advance_at 20 _ s (by unfold optionBytes; omega)]
    simp only [Run.orFail_value, Run.bind_value]
    congr 2
    unfold optionBytes headerBytes
    omega
  · rename_i h5
    have : headerBytes ip.headerLenWords = 20 := by
      unfold Config.ipMinWords at h5
      unfold headerBytes
      omega
    rw [this]

theorem skipIpv4Options_short (ip : Ipv4Header) (s : State) (h20 : s.curOff.toNat + 20 ≤ s.curLen.toNat)
    (h : s.curLen.toNat < s.curOff.toNat + headerBytes ip.headerLenWords) :
    skipIpv4Options ip (moveCursor 20 s) = .fail .tooShortForIp (moveCursor 20 s) := by
  unfold headerBytes at h
  have h5 : Config.ipMinWords < ip.headerLenWords.toNat := by
    unfold Config.ipMinWords
    omega
  simp [skipIpv4Options, h5, advance_at_outOfBounds 20 (optionBytes ip.headerLenWords) s h20
    (by unfold optionBytes; omega)]

/-- The reader succeeds: every field equals the bytes of R58 and the cursor stands past the options (R93). -/
theorem readIpv4_value (s : State) (hf : Filled s.mem s.curOff.toNat 20)
    (hl : 5 ≤ (lowNibble (byteAt s.mem s.curOff.toNat)).toNat)
    (hv : highNibble (byteAt s.mem s.curOff.toNat) = 4#4)
    (h : s.curOff.toNat + headerBytes (lowNibble (byteAt s.mem s.curOff.toNat)) ≤ s.curLen.toNat) :
    readIpv4 s = .value (ip4At s.mem s.curOff.toNat)
      (moveCursor (headerBytes (lowNibble (byteAt s.mem s.curOff.toNat))) s) := by
  have h20 : s.curOff.toNat + 20 ≤ s.curLen.toNat := by unfold headerBytes at h; omega
  rw [readIpv4_byteZero s (by omega) (filled_sub hf _ 1 (by omega) (by omega)), if_neg (by omega), if_neg (by simp [hv]),
    readIpv4Fixed_value s _ _ h20 hf]
  exact skipIpv4Options_value (ip4At s.mem s.curOff.toNat) s hl h

/-- The reader fails with `TooShortForIp` where the header is longer than what is left (R90, R91). -/
theorem readIpv4_short (s : State) (h1 : s.curOff.toNat + 1 ≤ s.curLen.toNat)
    (hf : Filled s.mem s.curOff.toNat (min 20 (s.curLen.toNat - s.curOff.toNat)))
    (hl : 5 ≤ (lowNibble (byteAt s.mem s.curOff.toNat)).toNat)
    (hv : highNibble (byteAt s.mem s.curOff.toNat) = 4#4)
    (h : s.curLen.toNat < s.curOff.toNat + headerBytes (lowNibble (byteAt s.mem s.curOff.toNat))) :
    ∃ k, 1 ≤ k ∧ k ≤ 20 ∧ s.curOff.toNat + k ≤ s.curLen.toNat ∧
      readIpv4 s = .fail .tooShortForIp (moveCursor k s) := by
  rw [readIpv4_byteZero s h1 (filled_sub hf _ 1 (by omega) (by omega)), if_neg (by omega), if_neg (by simp [hv])]
  by_cases h20 : s.curOff.toNat + 20 ≤ s.curLen.toNat
  · rw [readIpv4Fixed_value s _ _ h20 (filled_sub hf _ 20 (by omega) (by omega))]
    exact ⟨20, by omega, by omega, h20, skipIpv4Options_short (ip4At s.mem s.curOff.toNat) s h20 h⟩
  · obtain ⟨k, hk1, hk20, hk, hr⟩ :=
      readIpv4Fixed_short s (highNibble (byteAt s.mem s.curOff.toNat)) (lowNibble (byteAt s.mem s.curOff.toNat)) h1
        (by omega) (filled_sub hf _ _ (by omega) (by omega))
    exact ⟨k, hk1, by omega, hk, by rw [hr]; rfl⟩

theorem readIpv4Fixed_onlyMoves (v l : U4) (s : State) : OnlyMoves s (readIpv4Fixed v l s) :=
  ((readU8_onlyMoves _).orFail _).bind fun _ _ => ((readU16Be_onlyMoves _).orFail _).bind fun _ _ =>
  ((readU16Be_onlyMoves _).orFail _).bind fun _ _ => ((readU16Be_onlyMoves _).orFail _).bind fun _ _ =>
  ((readU8_onlyMoves _).orFail _).bind fun _ _ => ((readU8_onlyMoves _).orFail _).bind fun _ _ =>
  ((readU16Be_onlyMoves _).orFail _).bind fun _ _ => ((readBytes_onlyMoves 4 _).orFail _).bind fun _ _ =>
  ((readBytes_onlyMoves 4 _).orFail _).bind fun _ _ => OnlyMoves.value _ _

theorem skipIpv4Options_onlyMoves (ip : Ipv4Header) (s : State) : OnlyMoves s (skipIpv4Options ip s) := by
  unfold skipIpv4Options
  split
  · exact ((advance_onlyMoves _ _).orFail _).bind fun _ _ => OnlyMoves.value _ _
  · exact OnlyMoves.value _ _

theorem readIpv4_onlyMoves (s : State) : OnlyMoves s (readIpv4 s) := by
  unfold readIpv4
  split
  · exact OnlyMoves.fail _ _
  · refine ((readU8_onlyMoves _).orFail _).bind fun b t => ?_
    split
    · exact OnlyMoves.fail _ _
    · split
      · exact OnlyMoves.fail _ _
      · exact (readIpv4Fixed_onlyMoves _ _ _).bind fun _ _ => skipIpv4Options_onlyMoves _ _

/-! ### TcpHeaderReader -/

theorem readTcp_short (s : State) (h : remaining s < 20) : readTcp s = .fail .tooShortForTcp s := by
  simp [readTcp, h]

theorem readTcpFixed_value (s : State) (h : s.curOff.toNat + 20 ≤ s.curLen.toNat)
    (hf : Filled s.mem s.curOff.toNat 20) :
    readTcpFixed s = .value (tcpAt s.mem s.curOff.toNat) (moveCursor 20 s) := by
  have h1 := readU16Be_at 0 s (by omega) (filled_sub hf _ 2 (by omega) (by omega))
  simp only [moveCursor_zero, Nat.add_zero, Nat.zero_add] at h1
  have h2 := readU16Be_at 2 s (by omega) (filled_sub hf _ 2 (by omega) (by omega))
  have h3 := readU32Be_at 4 s (by omega) (filled_sub hf _ 4 (by omega) (by omega))
  have h4 := readU32Be_at 8 s (by omega) (filled_sub hf _ 4 (by omega) (by omega))
  have h5 := readU8_at 12 s (by omega) (filled_sub hf _ 1 (by omega) (by omega))
  have h6 := readU8_at 13 s (by omega) (filled_sub hf _ 1 (by omega) (by omega))
  have h7 := readU16Be_at 14 s (by omega) (filled_sub hf _ 2 (by omega) (by omega))
  have h8 := readU16Be_at 16 s (by omega) (filled_sub hf _ 2 (by omega) (by omega))
  have h9 := readU16Be_at 18 s (by omega) (filled_sub hf _ 2 (by omega) (by omega))
  simp [readTcpFixed, h1, h2, h3, h4, h5, h6, h7, h8, h9, tcpAt]

/-- The reader once the fixed portion has been read. -/
theorem readTcp_fixed (s : State) (h : s.curOff.toNat + 20 ≤ s.curLen.toNat)
    (hf : Filled s.mem s.curOff.toNat 20) :
    readTcp s =
      (if (highNibble (byteAt s.mem (s.curOff.toNat + 12))).toNat < 5 then
        .fail .invalidTcpHeaderLength (moveCursor 20 s)
      else skipTcpOptions (tcpAt s.mem s.curOff.toNat) (moveCursor 20 s)) := by
  have hr : ¬ remaining s < 20 := by unfold remaining; omega
  simp [readTcp, hr, readTcpFixed_value s h hf, tcpAt]

theorem skipTcpOptions_value (tcp : TcpHeader) (s : State) (hw : 5 ≤ tcp.dataOffsetWords.toNat)
    (h : s.curOff.toNat + headerBytes tcp.dataOffsetWords ≤ s.curLen.toNat) :
    skipTcpOptions tcp (moveCursor 20 s) = .value tcp (moveCursor (headerBytes tcp.dataOffsetWords) s) := by
  unfold headerBytes at h
  unfold skipTcpOptions
  split
  · rename_i h5
    rw [advance_at 20 _ s (by unfold optionBytes; omega)]
    simp only [Run.orFail_value, Run.bind_value]
    congr 2
    unfold optionBytes headerBytes
    omega
  · rename_i h5
    have : headerBytes tcp.dataOffsetWords = 20 := by
      unfold Config.tcpMinWords at h5
      unfold headerBytes
      omega
    rw [this]

theorem skipTcpOptions_short (tcp : TcpHeader) (s : State) (h20 : s.curOff.toNat + 20 ≤ s.curLen.toNat)
    (h : s.curLen.toNat < s.curOff.toNat + headerBytes tcp.dataOffsetWords) :
    skipTcpOptions tcp (moveCursor 20 s) = .fail .tooShortForTcp (moveCursor 20 s) := by
  unfold headerBytes at h
  have h5 : Config.tcpMinWords < tcp.dataOffsetWords.toNat := by
    unfold Config.tcpMinWords
    omega
  simp [skipTcpOptions, h5, advance_at_outOfBounds 20 (optionBytes tcp.dataOffsetWords) s h20
    (by unfold optionBytes; omega)]

/-- The reader succeeds: every field equals the bytes of R59 and the cursor stands past the options (R101). -/
theorem readTcp_value (s : State) (hf : Filled s.mem s.curOff.toNat 20)
    (hd : 5 ≤ (highNibble (byteAt s.mem (s.curOff.toNat + 12))).toNat)
    (h : s.curOff.toNat + headerBytes (highNibble (byteAt s.mem (s.curOff.toNat + 12))) ≤ s.curLen.toNat) :
    readTcp s = .value (tcpAt s.mem s.curOff.toNat)
      (moveCursor (headerBytes (highNibble (byteAt s.mem (s.curOff.toNat + 12)))) s) := by
  rw [readTcp_fixed s (by unfold headerBytes at h; omega) hf, if_neg (by omega)]
  exact skipTcpOptions_value (tcpAt s.mem s.curOff.toNat) s hd h

/-- The reader fails with `TooShortForTcp` where the options are longer than what is left (R99). -/
theorem readTcp_shortOptions (s : State) (h20 : s.curOff.toNat + 20 ≤ s.curLen.toNat)
    (hf : Filled s.mem s.curOff.toNat 20)
    (h : s.curLen.toNat < s.curOff.toNat + headerBytes (highNibble (byteAt s.mem (s.curOff.toNat + 12)))) :
    readTcp s = .fail .tooShortForTcp (moveCursor 20 s) := by
  rw [readTcp_fixed s h20 hf, if_neg (by unfold headerBytes at h; omega)]
  exact skipTcpOptions_short (tcpAt s.mem s.curOff.toNat) s h20 h

theorem readTcpFixed_onlyMoves (s : State) : OnlyMoves s (readTcpFixed s) :=
  ((readU16Be_onlyMoves _).orFail _).bind fun _ _ => ((readU16Be_onlyMoves _).orFail _).bind fun _ _ =>
  ((readU32Be_onlyMoves _).orFail _).bind fun _ _ => ((readU32Be_onlyMoves _).orFail _).bind fun _ _ =>
  ((readU8_onlyMoves _).orFail _).bind fun _ _ => ((readU8_onlyMoves _).orFail _).bind fun _ _ =>
  ((readU16Be_onlyMoves _).orFail _).bind fun _ _ => ((readU16Be_onlyMoves _).orFail _).bind fun _ _ =>
  ((readU16Be_onlyMoves _).orFail _).bind fun _ _ => OnlyMoves.value _ _

theorem skipTcpOptions_onlyMoves (tcp : TcpHeader) (s : State) : OnlyMoves s (skipTcpOptions tcp s) := by
  unfold skipTcpOptions
  split
  · exact ((advance_onlyMoves _ _).orFail _).bind fun _ _ => OnlyMoves.value _ _
  · exact OnlyMoves.value _ _

theorem readTcp_onlyMoves (s : State) : OnlyMoves s (readTcp s) := by
  unfold readTcp
  split
  · exact OnlyMoves.fail _ _
  · refine (readTcpFixed_onlyMoves _).bind fun _ _ => ?_
    split
    · exact OnlyMoves.fail _ _
    · exact skipTcpOptions_onlyMoves _ _

end Sys2Proof.Machine
end

