-- ==== Sys2Proof/Laws/Blind.lean ====
section
/-! SUPPORT. What the readers cannot see: a change of the state that leaves `c.len`, `c.off` and the bytes an operation
takes alone changes nothing but what it is. `WIRELEN`, `PREVIEW_CAP` and the bytes outside the headers are such. -/

namespace Sys2Proof.Machine

open Sys2Proof.Safety

/-- A change of the state that no cursor operation can see, its bytes apart. -/
structure Blind (f : State → State) : Prop where
  curLen : ∀ s, (f s).curLen = s.curLen
  curOff : ∀ s, (f s).curOff = s.curOff
  move : ∀ n s, moveCursor n (f s) = f (moveCursor n s)

/-- The run with its state changed. -/
def Run.mapState {ε α : Type} (f : State → State) : Run ε α → Run ε α
  | .value v s => .value v (f s)
  | .fail e s => .fail e (f s)
  | .fault x => .fault x
  | .refused r => .refused r

/-- `f` leaves the bytes alone that lie within `k` bytes from the cursor on and below `c.len`. -/
def AgreeFor (f : State → State) (k : Nat) (s : State) : Prop :=
  ∀ a, s.curOff.toNat ≤ a → a < s.curOff.toNat + k → a < s.curLen.toNat → Memory.read (f s).mem a = Memory.read s.mem a

theorem AgreeFor.mono {f k j s} (h : AgreeFor f k s) (hj : j ≤ k) : AgreeFor f j s :=
  fun a h1 h2 h3 => h a h1 (by omega) h3

theorem AgreeFor.move {f k s} (hf : Blind f) (h : AgreeFor f k s) (j : Nat)
    (hj : 0 < j → s.curOff.toNat + j ≤ s.curLen.toNat) :
    AgreeFor f (k - j) (moveCursor j s) := by
  rcases Nat.eq_zero_or_pos j with rfl | hp
  · simpa using h
  intro a h1 h2 h3
  rw [moveCursor_toNat j s (hj hp)] at h1 h2
  have : (f (moveCursor j s)).mem = (f s).mem := by rw [← hf.move]; rfl
  rw [this]
  exact h a (by omega) (by omega) h3

theorem takeBytes_blind {f : State → State} (hf : Blind f) (n k : Nat) (s : State) (h : AgreeFor f k s) (hk : n ≤ k) :
    takeBytes n (f s) = (takeBytes n s).mapState f := by
  rcases takeBytes_cases n s with ⟨hb, h'⟩ | ⟨hb, hn, h'⟩ | ⟨hb, bs, hr, -, h'⟩ <;> rw [h']
  · exact takeBytes_outOfBounds n _ (by rw [hf.curLen, hf.curOff]; exact hb)
  · refine takeBytes_unfilled n _ (by rw [hf.curLen, hf.curOff]; exact hb) ?_
    rw [hf.curOff, readSpan_congr _ s.mem _ _ (fun x h1 h2 => h x h1 (by omega) (by omega)), hn]
  · rw [takeBytes_value n _ bs (by rw [hf.curLen, hf.curOff]; exact hb), hf.move]
    · rfl
    · rw [hf.curOff, readSpan_congr _ s.mem _ _ (fun x h1 h2 => h x h1 (by omega) (by omega)), hr]

theorem skipBytes_blind {f : State → State} (hf : Blind f) (n : Nat) (s : State) :
    skipBytes n (f s) = (skipBytes n s).mapState f := by
  unfold skipBytes
  rw [hf.curLen, hf.curOff]
  split
  · rfl
  · simp [Run.mapState, hf.move]

theorem Run.bind_mapState {ε α β : Type} {f : State → State} {x x' : Run ε α} {k k' : α → State → Run ε β}
    (hx : x' = x.mapState f) (hk : ∀ v t, x = .value v t → k' v (f t) = (k v t).mapState f) :
    x'.bind k' = (x.bind k).mapState f := by
  subst hx
  cases x <;> first | rfl | exact hk _ _ rfl

theorem Run.orFail_mapState {ε ε' α : Type} {f : State → State} {x x' : Run ε α} {e : ε'}
    (hx : x' = x.mapState f) : x'.orFail e = (x.orFail e).mapState f := by
  subst hx; cases x <;> rfl

theorem Run.value_of_orFail {ε ε' α : Type} {x : Run ε α} {e : ε'} {v t} (h : x.orFail e = .value v t) : x = .value v t := by
  cases x <;> simp_all

theorem Run.bind_id (x : Run CursorError (List Byte)) : (x.bind fun bs s => .value bs s) = x := by
  cases x <;> rfl

theorem take_value {α} {n s} {g : List Byte → α} {v t} (h : ((takeBytes n s).bind fun bs s => .value (g bs) s) = .value v t) :
    t = moveCursor n s ∧ (0 < n → s.curOff.toNat + n ≤ s.curLen.toNat) := by
  rcases takeBytes_cases n s with ⟨hb, h'⟩ | ⟨-, -, h'⟩ | ⟨hb, bs, hr, -, h'⟩ <;> rw [h'] at h <;> simp at h
  exact ⟨h.2.symm, fun _ => hb⟩

/-- An operation that takes at most `k` bytes is blind to `f` when the bytes agree. -/
def BlindOp {ε α : Type} (f : State → State) (k : Nat) (x : State → Run ε α) : Prop :=
  ∀ s, AgreeFor f k s → x (f s) = (x s).mapState f

/-- On success exactly `j` bytes further, and not past the end. -/
def Moves {ε α : Type} (j : Nat) (x : State → Run ε α) : Prop :=
  ∀ s v t, x s = .value v t → t = moveCursor j s ∧ (0 < j → s.curOff.toNat + j ≤ s.curLen.toNat)

theorem BlindOp.bind {ε ε' α β : Type} {f : State → State} (hf : Blind f) {j : Nat} {x : State → Run ε α} {e : ε'} {k : α → State → Run ε' β} (n : Nat)
    (hm : Moves j x) (hx : BlindOp f j x) (hk : ∀ v, BlindOp f n (k v)) : BlindOp f (j + n) (fun s => ((x s).orFail e).bind (k)) := by
  intro s hs
  refine Run.bind_mapState (Run.orFail_mapState (hx s (hs.mono (by omega)))) fun v t h => ?_
  obtain ⟨rfl, hb⟩ := hm s v t (Run.value_of_orFail h)
  have := hs.move hf j hb
  exact hk v _ (by simpa using this)

theorem BlindOp.value {ε α : Type} {f : State → State} (v : α) : BlindOp f 0 (fun s => (Run.value v s : Run ε α)) := fun _ _ => rfl

theorem readU8_moves : Moves 1 readU8 := fun _ _ _ h => take_value h
theorem readU16Be_moves : Moves 2 readU16Be := fun _ _ _ h => take_value h
theorem readU32Be_moves : Moves 4 readU32Be := fun _ _ _ h => take_value h
theorem readBytes_moves (n : Nat) : Moves n (readBytes n) := fun s v t h => take_value (g := fun bs => bs) (by rw [Run.bind_id]; exact h)

section
variable {f : State → State} (hf : Blind f)
include hf
theorem readU8_blind : BlindOp f 1 readU8 := fun s h => Run.bind_mapState (takeBytes_blind hf 1 1 s h (by omega)) fun _ _ _ => rfl
theorem readU16Be_blind : BlindOp f 2 readU16Be := fun s h => Run.bind_mapState (takeBytes_blind hf 2 2 s h (by omega)) fun _ _ _ => rfl
theorem readU32Be_blind : BlindOp f 4 readU32Be := fun s h => Run.bind_mapState (takeBytes_blind hf 4 4 s h (by omega)) fun _ _ _ => rfl
theorem readBytes_blind (n : Nat) : BlindOp f n (readBytes n) := fun s h => takeBytes_blind hf n n s h (by omega)

theorem readEthernet_blind : BlindOp f 14 readEthernet := by
  intro s hs
  unfold readEthernet
  have hr : remaining (f s) = remaining s := by simp only [remaining, hf.curLen, hf.curOff]
  rw [hr]
  split_ifs
  · rfl
  · exact BlindOp.bind hf 8 (readBytes_moves 6) (readBytes_blind hf 6) (fun _ =>
      BlindOp.bind hf 2 (readBytes_moves 6) (readBytes_blind hf 6) (fun _ =>
        BlindOp.bind hf 0 readU16Be_moves (readU16Be_blind hf) (fun _ => BlindOp.value _))) s hs

theorem readIpv4Fixed_blind (v l : U4) : BlindOp f 19 (readIpv4Fixed v l) :=
  BlindOp.bind hf 18 readU8_moves (readU8_blind hf) fun _ =>
  BlindOp.bind hf 16 readU16Be_moves (readU16Be_blind hf) fun _ =>
  BlindOp.bind hf 14 readU16Be_moves (readU16Be_blind hf) fun _ =>
  BlindOp.bind hf 12 readU16Be_moves (readU16Be_blind hf) fun _ =>
  BlindOp.bind hf 11 readU8_moves (readU8_blind hf) fun _ =>
  BlindOp.bind hf 10 readU8_moves (readU8_blind hf) fun _ =>
  BlindOp.bind hf 8 readU16Be_moves (readU16Be_blind hf) fun _ =>
  BlindOp.bind hf 4 (readBytes_moves 4) (readBytes_blind hf 4) fun _ =>
  BlindOp.bind hf 0 (readBytes_moves 4) (readBytes_blind hf 4) fun _ => BlindOp.value _

theorem skipIpv4Options_blind (h : Ipv4Header) (s : State) : skipIpv4Options h (f s) = (skipIpv4Options h s).mapState f := by
  unfold skipIpv4Options
  split
  · exact Run.bind_mapState (Run.orFail_mapState (skipBytes_blind hf _ s)) fun _ _ _ => rfl
  · rfl

theorem readIpv4_blind : BlindOp f 20 readIpv4 := by
  intro s hs
  unfold readIpv4
  have hr : remaining (f s) = remaining s := by simp only [remaining, hf.curLen, hf.curOff]
  rw [hr]
  split_ifs
  · rfl
  · refine BlindOp.bind hf 19 readU8_moves (readU8_blind hf) (fun b => ?_) s hs
    intro s hs
    dsimp only
    split_ifs
    · rfl
    · rfl
    · exact Run.bind_mapState (readIpv4Fixed_blind hf _ _ s hs) fun v t _ => skipIpv4Options_blind hf v t

theorem readTcpFixed_blind : BlindOp f 20 readTcpFixed :=
  BlindOp.bind hf 18 readU16Be_moves (readU16Be_blind hf) fun _ =>
  BlindOp.bind hf 16 readU16Be_moves (readU16Be_blind hf) fun _ =>
  BlindOp.bind hf 12 readU32Be_moves (readU32Be_blind hf) fun _ =>
  BlindOp.bind hf 8 readU32Be_moves (readU32Be_blind hf) fun _ =>
  BlindOp.bind hf 7 readU8_moves (readU8_blind hf) fun _ =>
  BlindOp.bind hf 6 readU8_moves (readU8_blind hf) fun _ =>
  BlindOp.bind hf 4 readU16Be_moves (readU16Be_blind hf) fun _ =>
  BlindOp.bind hf 2 readU16Be_moves (readU16Be_blind hf) fun _ =>
  BlindOp.bind hf 0 readU16Be_moves (readU16Be_blind hf) fun _ => BlindOp.value _

theorem skipTcpOptions_blind (h : TcpHeader) (s : State) : skipTcpOptions h (f s) = (skipTcpOptions h s).mapState f := by
  unfold skipTcpOptions
  split
  · exact Run.bind_mapState (Run.orFail_mapState (skipBytes_blind hf _ s)) fun _ _ _ => rfl
  · rfl

theorem readTcp_blind : BlindOp f 20 readTcp := by
  intro s hs
  unfold readTcp
  have hr : remaining (f s) = remaining s := by simp only [remaining, hf.curLen, hf.curOff]
  rw [hr]
  split_ifs
  · rfl
  · refine Run.bind_mapState (readTcpFixed_blind hf s hs) fun v t _ => ?_
    split_ifs
    · rfl
    · exact skipTcpOptions_blind hf v t
end

theorem Run.finish_mapState {ε α : Type} {f : State → State} (hr : ∀ s r, f { s with ret := r } = { f s with ret := r })
    {x x' : Run ε α} (hx : x' = x.mapState f) (g : α → Ret) (e : ε → Ret) :
    x'.finish g e = mapNext f (x.finish g e) := by
  subst hx
  cases x <;> first | rfl | exact congrArg Host.Outcome.next (hr _ _).symm

theorem Run.orSkipped_mapState {α : Type} {f g : State → State} (hr : ∀ r s, skipped r (f s) = g (skipped r s))
    {x x' : Run SkipReason α} (hx : x' = x.mapState f) {k k' : α → State → Host.Outcome State Fault Refusal}
    (hk : ∀ v t, x = .value v t → k' v (f t) = mapNext g (k v t)) :
    x'.orSkipped k' = mapNext g (x.orSkipped k) := by
  subst hx
  cases x with
  | value v t => exact hk v t rfl
  | fail e t => simp [Run.mapState, Run.orSkipped, mapNext, hr]
  | fault y => rfl
  | refused y => rfl

/-! ### How far a successful reader has moved -/

theorem Moves.value {ε α : Type} (v : α) : Moves 0 (fun s => (Run.value v s : Run ε α)) := by
  intro s w t h
  cases h
  simp

theorem Moves.bind {ε ε' α β : Type} {j : Nat} {x : State → Run ε α} {e : ε'} {k : α → State → Run ε' β} (n : Nat)
    (hx : Moves j x) (hk : ∀ v, Moves n (k v)) : Moves (j + n) (fun s => ((x s).orFail e).bind k) := by
  intro s w t h
  cases hr : x s with
  | value v u =>
    simp only [hr, Run.orFail_value, Run.bind_value] at h
    obtain ⟨rfl, hb⟩ := hx s v u hr
    obtain ⟨rfl, hb'⟩ := hk v _ w t h
    refine ⟨moveCursor_moveCursor _ _ _, fun _ => ?_⟩
    rcases Nat.eq_zero_or_pos j with rfl | hp
    · simp only [moveCursor_zero] at hb'
      simpa using hb' (by omega)
    · have hm := moveCursor_toNat j s (hb hp)
      rw [hm, moveCursor_curLen] at hb'
      have := hb hp
      rcases Nat.eq_zero_or_pos n with rfl | hn
      · omega
      · have := hb' hn
        omega
  | fail e u => simp [hr] at h
  | fault y => simp [hr] at h
  | refused y => simp [hr] at h

theorem readEthernet_moves : Moves 14 readEthernet := by
  intro s v t h
  unfold readEthernet at h
  split_ifs at h
  exact Moves.bind 8 (readBytes_moves 6) (fun _ => Moves.bind 2 (readBytes_moves 6) fun _ =>
    Moves.bind 0 readU16Be_moves fun _ => Moves.value _) s v t h

theorem readIpv4Fixed_moves (v l : U4) : Moves 19 (readIpv4Fixed v l) :=
  Moves.bind 18 readU8_moves fun _ => Moves.bind 16 readU16Be_moves fun _ =>
  Moves.bind 14 readU16Be_moves fun _ => Moves.bind 12 readU16Be_moves fun _ =>
  Moves.bind 11 readU8_moves fun _ => Moves.bind 10 readU8_moves fun _ =>
  Moves.bind 8 readU16Be_moves fun _ => Moves.bind 4 (readBytes_moves 4) fun _ =>
  Moves.bind 0 (readBytes_moves 4) fun _ => Moves.value _

theorem readTcpFixed_moves : Moves 20 readTcpFixed :=
  Moves.bind 18 readU16Be_moves fun _ => Moves.bind 16 readU16Be_moves fun _ =>
  Moves.bind 12 readU32Be_moves fun _ => Moves.bind 8 readU32Be_moves fun _ =>
  Moves.bind 7 readU8_moves fun _ => Moves.bind 6 readU8_moves fun _ =>
  Moves.bind 4 readU16Be_moves fun _ => Moves.bind 2 readU16Be_moves fun _ =>
  Moves.bind 0 readU16Be_moves fun _ => Moves.value _

theorem advance_moves (n : Nat) : Moves n (advance n) := by
  intro s v t h
  rcases skipBytes_cases n s with ⟨-, h'⟩ | ⟨hb, h'⟩ <;> rw [advance, h'] at h <;> cases h
  exact ⟨rfl, fun _ => hb⟩

end Sys2Proof.Machine
end

