-- ==== Sys2Proof/Laws/Encoding.lean ====
section
/-! SUPPORT. Field assembly and its inverse (R45, R60), and the wire formats there and back. -/

namespace Sys2Proof.Machine

/-- R60 b in numbers. -/
theorem be16_toNat (a b : Byte) : (be16 a b).toNat = a.toNat * 256 + b.toNat := by
  have := b.isLt
  simp only [be16, BitVec.toNat_append]
  rw [← Nat.shiftLeft_add_eq_or_of_lt this, Nat.shiftLeft_eq]

/-- R60 c in numbers. -/
theorem be32_toNat (a b c d : Byte) :
    (be32 a b c d).toNat = a.toNat * 2 ^ 24 + b.toNat * 2 ^ 16 + c.toNat * 2 ^ 8 + d.toNat := by
  have h1 := be16_toNat a b
  have h2 := be16_toNat c d
  have := (be16 c d).isLt
  simp only [be32, BitVec.toNat_append]
  rw [← Nat.shiftLeft_add_eq_or_of_lt this, Nat.shiftLeft_eq, h1, h2]
  omega

theorem highNibble_toNat (b : Byte) : (highNibble b).toNat = b.toNat / 16 := by
  have := b.isLt
  simp only [highNibble, BitVec.toNat_setWidth, BitVec.toNat_ushiftRight, Nat.shiftRight_eq_div_pow]
  omega

theorem lowNibble_toNat (b : Byte) : (lowNibble b).toNat = b.toNat % 16 := by
  have h : (b &&& 0x0F#8).toNat = b.toNat % 16 := by
    rw [BitVec.toNat_and]
    exact Nat.and_two_pow_sub_one_eq_mod b.toNat 4
  simp only [lowNibble, BitVec.toNat_setWidth, h]
  omega

theorem packNibbles_toNat (h l : U4) : (packNibbles h l).toNat = h.toNat * 16 + l.toNat := by
  have := l.isLt
  simp only [packNibbles, BitVec.toNat_append]
  rw [← Nat.shiftLeft_add_eq_or_of_lt this, Nat.shiftLeft_eq]

@[simp] theorem highNibble_packNibbles (h l : U4) : highNibble (packNibbles h l) = h := by
  apply BitVec.eq_of_toNat_eq
  have := l.isLt
  rw [highNibble_toNat, packNibbles_toNat]
  omega

@[simp] theorem lowNibble_packNibbles (h l : U4) : lowNibble (packNibbles h l) = l := by
  apply BitVec.eq_of_toNat_eq
  have := l.isLt
  rw [lowNibble_toNat, packNibbles_toNat]
  omega

@[simp] theorem packNibbles_split (b : Byte) : packNibbles (highNibble b) (lowNibble b) = b := by
  apply BitVec.eq_of_toNat_eq
  rw [packNibbles_toNat, highNibble_toNat, lowNibble_toNat]
  omega

@[simp] theorem be16_bytes16 (v : U16) : be16 ((v >>> 8).setWidth 8) (v.setWidth 8) = v := by
  apply BitVec.eq_of_toNat_eq
  have := v.isLt
  rw [be16_toNat]
  simp only [BitVec.toNat_setWidth, BitVec.toNat_ushiftRight, Nat.shiftRight_eq_div_pow]
  omega

@[simp] theorem be32_bytes32 (v : U32) :
    be32 ((v >>> 24).setWidth 8) ((v >>> 16).setWidth 8) ((v >>> 8).setWidth 8) (v.setWidth 8) = v := by
  apply BitVec.eq_of_toNat_eq
  have := v.isLt
  rw [be32_toNat]
  simp only [BitVec.toNat_setWidth, BitVec.toNat_ushiftRight, Nat.shiftRight_eq_div_pow]
  omega

@[simp] theorem bytes16_be16 (a b : Byte) : bytes16 (be16 a b) = [a, b] := by
  have h := be16_toNat a b
  have ha := a.isLt
  have hb := b.isLt
  simp only [bytes16, List.cons.injEq, and_true]
  constructor <;> apply BitVec.eq_of_toNat_eq <;>
    simp only [BitVec.toNat_setWidth, BitVec.toNat_ushiftRight, Nat.shiftRight_eq_div_pow, h] <;> omega

@[simp] theorem bytes32_be32 (a b c d : Byte) : bytes32 (be32 a b c d) = [a, b, c, d] := by
  have h := be32_toNat a b c d
  have ha := a.isLt
  have hb := b.isLt
  have hc := c.isLt
  have hd := d.isLt
  simp only [bytes32, List.cons.injEq, and_true]
  refine ⟨?_, ?_, ?_, ?_⟩ <;> apply BitVec.eq_of_toNat_eq <;>
    simp only [BitVec.toNat_setWidth, BitVec.toNat_ushiftRight, Nat.shiftRight_eq_div_pow, h] <;> omega

end Sys2Proof.Machine

namespace Sys2Proof

open Sys2Proof.Machine

@[simp] theorem ethOfBytes_ethBytes (h : EthernetHeader) (rest : List Byte) :
    ethOfBytes (ethBytes h ++ rest) = some (h, rest) := by
  simp [ethBytes, macBytes, bytes16, ethOfBytes]

@[simp] theorem ip4OfBytes_ip4Bytes (h : Ipv4Header) (rest : List Byte) :
    ip4OfBytes (ip4Bytes h ++ rest) = some (h, rest) := by
  simp [ip4Bytes, addrBytes, bytes16, ip4OfBytes]

@[simp] theorem tcpOfBytes_tcpBytes (h : TcpHeader) (r : U4) (rest : List Byte) :
    tcpOfBytes (tcpBytes h r ++ rest) = some ((h, r), rest) := by
  simp [tcpBytes, bytes16, bytes32, tcpOfBytes]

@[simp] theorem u32OfBytes_bytes32 (n : U32) (rest : List Byte) :
    u32OfBytes (bytes32 n ++ rest) = some (n, rest) := by
  simp [bytes32, u32OfBytes]

@[simp] theorem ethBytes_length (h : EthernetHeader) : (ethBytes h).length = 14 := rfl

@[simp] theorem ip4Bytes_length (h : Ipv4Header) : (ip4Bytes h).length = 20 := rfl

@[simp] theorem tcpBytes_length (h : TcpHeader) (r : U4) : (tcpBytes h r).length = 20 := rfl

/-- The mask 0c of the first rows keeps the values 0 to 3 of a nibble. -/
theorem nibble_mask (w : U4) : w &&& 0xC#4 = 0#4 ↔ w.toNat < 4 := by
  revert w
  decide

/-- A length word of 5 or more passes the first two rows. -/
theorem nibble_long (w : U4) (h : 5 ≤ w.toNat) : w &&& 0xC#4 ≠ 0#4 ∧ w ≠ 4#4 := by
  constructor
  · intro hm
    have := (nibble_mask w).mp hm
    omega
  · rintro rfl
    simp at h

/-! ### What a format reads is what it would write -/

theorem ethBytes_of_ethOfBytes (bs rest : List Byte) (h : EthernetHeader) (hb : ethOfBytes bs = some (h, rest)) :
    ethBytes h ++ rest = bs := by
  unfold ethOfBytes at hb
  split at hb
  · cases hb
    simp [ethBytes, macBytes]
  · cases hb

theorem ip4Bytes_of_ip4OfBytes (bs rest : List Byte) (h : Ipv4Header) (hb : ip4OfBytes bs = some (h, rest)) :
    ip4Bytes h ++ rest = bs := by
  unfold ip4OfBytes at hb
  split at hb
  · cases hb
    simp [ip4Bytes, addrBytes]
  · cases hb

theorem tcpBytes_of_tcpOfBytes (bs rest : List Byte) (h : TcpHeader) (r : U4)
    (hb : tcpOfBytes bs = some ((h, r), rest)) : tcpBytes h r ++ rest = bs := by
  unfold tcpOfBytes at hb
  split at hb
  · cases hb
    simp [tcpBytes]
  · cases hb

theorem bytes32_of_u32OfBytes (bs rest : List Byte) (n : U32) (hb : u32OfBytes bs = some (n, rest)) :
    bytes32 n ++ rest = bs := by
  unfold u32OfBytes at hb
  split at hb
  · cases hb
    simp
  · cases hb

/-! ### The rows of a header -/

theorem ethRow_wf (h : EthernetHeader) : (ethRow h).wf = true := by
  unfold ethRow
  split <;> simp_all [Instr.wf]

theorem ip4Row_wf (h : Ipv4Header) : (ip4Row h).wf = true := by
  have hm := nibble_mask h.headerLenWords
  have h4 : h.headerLenWords = 4#4 ↔ h.headerLenWords.toNat = 4 := by
    constructor
    · intro he
      rw [he]
      rfl
    · intro he
      exact BitVec.eq_of_toNat_eq he
  unfold ip4Row
  split
  · simp only [Instr.wf, decide_eq_true_eq]
    exact hm.mp ‹_›
  · split
    · simp only [Instr.wf, decide_eq_true_eq]
      exact h4.mp ‹_›
    · have hl : 5 ≤ h.headerLenWords.toNat := by
        rename_i g1 g2
        have := mt hm.mpr g1
        have := mt h4.mpr g2
        omega
      split
      · simp only [Instr.wf, decide_eq_true_eq]
        exact ⟨hl, by tauto⟩
      · split
        · simp only [Instr.wf, decide_eq_true_eq]
          exact ⟨hl, by tauto⟩
        · simp only [Instr.wf, decide_eq_true_eq]
          exact ⟨hl, by tauto⟩

theorem tcpRow_wf (h : TcpHeader) (r : U4) : (tcpRow h r).wf = true := by
  have hm := nibble_mask h.dataOffsetWords
  have h4 : h.dataOffsetWords = 4#4 ↔ h.dataOffsetWords.toNat = 4 := by
    constructor
    · intro he
      rw [he]
      rfl
    · intro he
      exact BitVec.eq_of_toNat_eq he
  unfold tcpRow
  split
  · simp only [Instr.wf, decide_eq_true_eq]
    exact hm.mp ‹_›
  · split
    · simp only [Instr.wf, decide_eq_true_eq]
      exact h4.mp ‹_›
    · rename_i g1 g2
      have := mt hm.mpr g1
      have := mt h4.mpr g2
      simp only [Instr.wf, decide_eq_true_eq]
      omega

theorem encode_ethRow (h : EthernetHeader) : encode (ethRow h) = 0x10#8 :: ethBytes h := by
  unfold ethRow
  split <;> rfl

theorem encode_ip4Row (h : Ipv4Header) : encode (ip4Row h) = 0x20#8 :: ip4Bytes h := by
  unfold ip4Row
  repeat' split
  all_goals rfl

theorem encode_tcpRow (h : TcpHeader) (r : U4) : encode (tcpRow h r) = 0x30#8 :: tcpBytes h r := by
  unfold tcpRow
  repeat' split
  all_goals rfl

end Sys2Proof
end

