-- ==== Sys2Proof/Laws/Host.lean ====
section
/-! SUPPORT. What the host can do, said once: how each action is answered, and what each read yields. -/

namespace Sys2Proof.Machine

/-- Waiting is one of two things: the acceptance of a start command that stands, or nothing. -/
theorem await_eq (s : State) : await s = .next (if s.ctrlStart then accept s else s) := by
  unfold await; split <;> rfl

/-- A start command is accepted by the write that gives it. -/
theorem hostAct_start {s : State} {v : U32} (hb : busy s = false) (hv : v.getLsbD 0 = true) :
    hostAct (.writeCtrl v) s = .next (accept s) := by
  simp [hostAct, hb, hv, await, accept]

/-- Everything a host action that is not refused can be. -/
theorem hostAct_cases {s t : State} {a : HostAction} (h : hostAct a s = .next t) :
    (∃ v, a = .writeCtrl v ∧ busy s = false ∧
      (v.getLsbD 0 = true ∧ t = accept s ∨ v.getLsbD 0 = false ∧ t = s)) ∨
    (∃ r v, a = .writeInput r v ∧ busy s = false ∧ t = setInput r v s) ∨
    (∃ offset b, a = .writeBuffer offset b ∧ (busy s = true → s.curLen.toNat ≤ offset.toNat) ∧
      t = { s with mem := Memory.write s.mem offset.toNat b }) ∨
    (a = .assertReset ∧ t = resetState s) := by
  cases a with
  | writeCtrl v =>
    simp only [hostAct] at h
    split_ifs at h with hb hv <;> simp only [Bool.not_eq_true] at hb
    · rw [await_eq] at h
      cases h
      exact .inl ⟨v, rfl, hb, .inl ⟨hv, rfl⟩⟩
    · cases h
      exact .inl ⟨v, rfl, hb, .inr ⟨by simpa using hv, rfl⟩⟩
  | writeInput r v =>
    simp only [hostAct] at h
    split_ifs at h with hb
    cases h
    exact .inr (.inl ⟨r, v, rfl, by simpa using hb, rfl⟩)
  | writeBuffer offset b =>
    simp only [hostAct] at h
    split_ifs at h with hn
    cases h
    exact .inr (.inr (.inl ⟨offset, b, rfl, fun hb => by simpa [hb, BitVec.lt_def] using hn, rfl⟩))
  | assertReset => exact .inr (.inr (.inr ⟨rfl, by cases h; rfl⟩))

/-! ### `STATUS` -/

theorem statusFrom_bits (fields : BitVec 4) (d b : Bool) :
    (statusFrom fields d b).getLsbD 0 = b ∧ (statusFrom fields d b).getLsbD 1 = d ∧
    (∀ i, i < 4 → (statusFrom fields d b).getLsbD (2 + i) = fields.getLsbD i) ∧
    ∀ i, 6 ≤ i → (statusFrom fields d b).getLsbD i = false := by
  have low : ∀ (fields : BitVec 4) (d b : Bool), (statusFrom fields d b).getLsbD 0 = b ∧
      (statusFrom fields d b).getLsbD 1 = d ∧
      (∀ i < 4, (statusFrom fields d b).getLsbD (2 + i) = fields.getLsbD i) ∧ (statusFrom fields d b).toNat < 2 ^ 6 := by
    decide
  obtain ⟨h0, h1, hf, ht⟩ := low fields d b
  exact ⟨h0, h1, hf, fun i hi => Nat.testBit_lt_two_pow (Nat.lt_of_lt_of_le ht (Nat.pow_le_pow_right (by omega) hi))⟩

theorem statusBit_busy (s : State) : statusBit s 0 = some (busy s) :=
  congrArg some (statusFrom_bits (statusFields s) (isDone s) (busy s)).1

theorem statusBit_done (s : State) : statusBit s 1 = some (isDone s) :=
  congrArg some (statusFrom_bits (statusFields s) (isDone s) (busy s)).2.1

/-- `OUTCOME` and `REASON` yield no value while `DONE = 0`. -/
theorem statusBit_noValue {s : State} (h : isDone s = false) {i : Nat} (h2 : 2 ≤ i) (h5 : i ≤ 5) : statusBit s i = none :=
  if_pos ⟨h2, h5, h⟩

/-- `OUTCOME` and `REASON` with `DONE = 1`, bit by bit. -/
theorem statusBit_fields {s : State} (h : isDone s = true) {i : Nat} (hi : i < 4) :
    statusBit s (2 + i) = some ((statusFields s).getLsbD i) := by
  unfold statusBit
  rw [if_neg (by simp [h])]
  exact congrArg some ((statusFrom_bits _ _ _).2.2.1 i hi)

theorem statusBit_unused (s : State) {i : Nat} (hi : 6 ≤ i) : statusBit s i = some false := by
  unfold statusBit
  rw [if_neg (by omega)]
  exact congrArg some ((statusFrom_bits _ _ _).2.2.2 i hi)

theorem hostRead_status (s : State) {i : Nat} (hi : i < 32) :
    ∃ bs, hostRead .status s = .bits bs ∧ bs.length = 32 ∧ bs[i]? = some (statusBit s i) :=
  ⟨_, rfl, by simp, by simp [hi]⟩

/-! ### Registers -/

/-- Registers 5 to 31 are those that are neither `CTRL`, `STATUS` nor an input register. -/
theorem hostRead_result {r : HostReg} (hr : r ∈ HostReg.all.drop 5) (s : State) :
    hostRead r s =
      if isDone s then
        match s.record.bind (recordReg r) with
        | some v => v
        | none => .refused .readOfNoValue
      else .refused .readOfNoValue := by
  cases r <;> first | rfl | exact absurd hr (by decide)

@[simp] theorem setInput_phase (r : InputReg) (v : U32) (s : State) : (setInput r v s).phase = s.phase := by cases r <;> rfl
@[simp] theorem setInput_ctrlStart (r : InputReg) (v : U32) (s : State) :
    (setInput r v s).ctrlStart = s.ctrlStart := by cases r <;> rfl
@[simp] theorem setInput_curLen (r : InputReg) (v : U32) (s : State) : (setInput r v s).curLen = s.curLen := by cases r <;> rfl
@[simp] theorem setInput_curOff (r : InputReg) (v : U32) (s : State) : (setInput r v s).curOff = s.curOff := by cases r <;> rfl
@[simp] theorem setInput_capLatch (r : InputReg) (v : U32) (s : State) :
    (setInput r v s).capLatch = s.capLatch := by cases r <;> rfl
@[simp] theorem setInput_held (r : InputReg) (v : U32) (s : State) : (setInput r v s).held = s.held := by cases r <;> rfl
@[simp] theorem setInput_outcome (r : InputReg) (v : U32) (s : State) :
    (setInput r v s).outcome = s.outcome := by cases r <;> rfl
@[simp] theorem setInput_reason (r : InputReg) (v : U32) (s : State) : (setInput r v s).reason = s.reason := by cases r <;> rfl
@[simp] theorem setInput_record (r : InputReg) (v : U32) (s : State) : (setInput r v s).record = s.record := by cases r <;> rfl
@[simp] theorem setInput_mem (r : InputReg) (v : U32) (s : State) : (setInput r v s).mem = s.mem := by cases r <;> rfl
@[simp] theorem setInput_ret (r : InputReg) (v : U32) (s : State) : (setInput r v s).ret = s.ret := by cases r <;> rfl
@[simp] theorem setInput_issue (r : InputReg) (v : U32) (s : State) : (setInput r v s).issue = s.issue := by cases r <;> rfl

end Sys2Proof.Machine
end

