-- ==== Sys2Proof/Laws/PerInstr.lean ====
section
/-! SUPPORT. The per-instruction family RoundTrip: decoding the bytes of a well-formed instruction gives it back, and
leaves what follows it alone. -/

namespace Sys2Proof.Laws.RoundTrip

open Sys2Proof Sys2Proof.Machine

/-- No bit of a well-formed instruction's encoding is dropped. -/
def Statement (i : Instr) : Prop :=
  i.wf = true → ∀ rest, decode (encode i ++ rest) = some (i, rest)

theorem curReadU8 : Statement .curReadU8 := fun _ _ => rfl
theorem curReadU16Be : Statement .curReadU16Be := fun _ _ => rfl
theorem curReadU32Be : Statement .curReadU32Be := fun _ _ => rfl
theorem curReadBytes (n : U32) : Statement (.curReadBytes n) := fun _ _ => by simp [encode, decode]
theorem curRemaining : Statement .curRemaining := fun _ _ => rfl
theorem curAdvance (n : U32) : Statement (.curAdvance n) := fun _ _ => by simp [encode, decode]
theorem ethRead : Statement .ethRead := fun _ _ => rfl
theorem ip4Read : Statement .ip4Read := fun _ _ => rfl
theorem tcpRead : Statement .tcpRead := fun _ _ => rfl
theorem frameDecode : Statement .frameDecode := fun _ _ => rfl

theorem ethIpv4 (h : EthernetHeader) : Statement (.ethIpv4 h) := fun hw _ => by
  simp [Instr.wf] at hw
  simp [encode, decode, ethRow, hw]

theorem ethOther (h : EthernetHeader) : Statement (.ethOther h) := fun hw _ => by
  simp [Instr.wf] at hw
  simp [encode, decode, ethRow, hw]

theorem ip4Ihl03 (h : Ipv4Header) : Statement (.ip4Ihl03 h) := fun hw _ => by
  simp only [Instr.wf, decide_eq_true_eq] at hw
  have := (nibble_mask _).mpr hw
  simp [encode, decode, ip4Row, this]

theorem ip4Ihl4 (h : Ipv4Header) : Statement (.ip4Ihl4 h) := fun hw _ => by
  simp only [Instr.wf, decide_eq_true_eq] at hw
  have : h.headerLenWords = 4#4 := BitVec.eq_of_toNat_eq hw
  simp [encode, decode, ip4Row, this]

theorem ip4V4Tcp (h : Ipv4Header) : Statement (.ip4V4Tcp h) := fun hw _ => by
  simp only [Instr.wf, decide_eq_true_eq] at hw
  have := nibble_long _ hw.1
  simp [encode, decode, ip4Row, this.1, this.2, hw.2.1, hw.2.2]

theorem ip4V4Other (h : Ipv4Header) : Statement (.ip4V4Other h) := fun hw _ => by
  simp only [Instr.wf, decide_eq_true_eq] at hw
  have := nibble_long _ hw.1
  simp [encode, decode, ip4Row, this.1, this.2, hw.2.1, hw.2.2]

theorem ip4NotV4 (h : Ipv4Header) : Statement (.ip4NotV4 h) := fun hw _ => by
  simp only [Instr.wf, decide_eq_true_eq] at hw
  have := nibble_long _ hw.1
  simp [encode, decode, ip4Row, this.1, this.2, hw.2]

theorem tcpDoff03 (h : TcpHeader) (r : U4) : Statement (.tcpDoff03 h r) := fun hw _ => by
  simp only [Instr.wf, decide_eq_true_eq] at hw
  have := (nibble_mask _).mpr hw
  simp [encode, decode, tcpRow, this]

theorem tcpDoff4 (h : TcpHeader) (r : U4) : Statement (.tcpDoff4 h r) := fun hw _ => by
  simp only [Instr.wf, decide_eq_true_eq] at hw
  have : h.dataOffsetWords = 4#4 := BitVec.eq_of_toNat_eq hw
  simp [encode, decode, tcpRow, this]

theorem tcpOk (h : TcpHeader) (r : U4) : Statement (.tcpOk h r) := fun hw _ => by
  simp only [Instr.wf, decide_eq_true_eq] at hw
  have := nibble_long _ hw
  simp [encode, decode, tcpRow, this.1, this.2]

end Sys2Proof.Laws.RoundTrip
end

