-- ==== Sys2Proof/Laws/Success.lean ====
section
/-! SUPPORT. What a reader's success says: the bytes it took were filled, the header is the one that stands there, and
where the cursor is. -/

namespace Sys2Proof.Machine

open Sys2Proof.Safety

/-- A success has read `j` filled bytes from the cursor on. -/
def Takes {ε α : Type} (j : Nat) (x : State → Run ε α) : Prop :=
  ∀ s v t, x s = .value v t → Filled s.mem s.curOff.toNat j

theorem takeBytes_filled {α : Type} {n : Nat} {s t : State} {g : List Byte → α} {v : α}
    (h : ((takeBytes n s).bind fun bs s => .value (g bs) s) = .value v t) : Filled s.mem s.curOff.toNat n := by
  rcases takeBytes_cases n s with ⟨hb, h'⟩ | ⟨-, -, h'⟩ | ⟨hb, bs, hr, -, h'⟩ <;> rw [h'] at h <;> simp at h
  exact filled_of_readSpan _ _ _ _ hr

theorem readU8_takes : Takes 1 readU8 := fun _ _ _ h => takeBytes_filled h
theorem readU16Be_takes : Takes 2 readU16Be := fun _ _ _ h => takeBytes_filled h
theorem readU32Be_takes : Takes 4 readU32Be := fun _ _ _ h => takeBytes_filled h
theorem readBytes_takes (n : Nat) : Takes n (readBytes n) := fun _ _ _ h =>
  takeBytes_filled (g := fun bs => bs) (by rw [Run.bind_id]; exact h)

theorem Takes.value {ε α : Type} (v : α) : Takes 0 (fun s => (Run.value v s : Run ε α)) :=
  fun _ _ _ _ k hk => absurd hk (Nat.not_lt_zero k)

theorem Takes.bind {ε ε' α β : Type} {j : Nat} {x : State → Run ε α} {e : ε'} {k : α → State → Run ε' β} (n : Nat)
    (hm : Moves j x) (hx : Takes j x) (hk : ∀ v, Takes n (k v)) :
    Takes (j + n) (fun s => ((x s).orFail e).bind k) := by
  intro s w t h
  cases hr : x s with
  | value v u =>
    simp only [hr, Run.orFail_value, Run.bind_value] at h
    obtain ⟨rfl, hb⟩ := hm s v u hr
    have h1 := hx s v _ hr
    have h2 := hk v _ w t h
    intro i hi
    by_cases hij : i < j
    · exact h1 i hij
    · have ho : (moveCursor j s).curOff.toNat = s.curOff.toNat + j := by
        rcases Nat.eq_zero_or_pos j with rfl | hp
        · simp
        · exact moveCursor_toNat j s (hb hp)
      have := h2 (i - j) (by omega)
      rwa [ho, moveCursor_mem, show s.curOff.toNat + j + (i - j) = s.curOff.toNat + i by omega] at this
  | fail e u => simp [hr] at h
  | fault y => simp [hr] at h
  | refused y => simp [hr] at h

theorem readIpv4Fixed_takes (v l : U4) : Takes 19 (readIpv4Fixed v l) :=
  Takes.bind 18 readU8_moves readU8_takes fun _ => Takes.bind 16 readU16Be_moves readU16Be_takes fun _ =>
  Takes.bind 14 readU16Be_moves readU16Be_takes fun _ => Takes.bind 12 readU16Be_moves readU16Be_takes fun _ =>
  Takes.bind 11 readU8_moves readU8_takes fun _ => Takes.bind 10 readU8_moves readU8_takes fun _ =>
  Takes.bind 8 readU16Be_moves readU16Be_takes fun _ => Takes.bind 4 (readBytes_moves 4) (readBytes_takes 4) fun _ =>
  Takes.bind 0 (readBytes_moves 4) (readBytes_takes 4) fun _ => Takes.value _

theorem readTcpFixed_takes : Takes 20 readTcpFixed :=
  Takes.bind 18 readU16Be_moves readU16Be_takes fun _ => Takes.bind 16 readU16Be_moves readU16Be_takes fun _ =>
  Takes.bind 12 readU32Be_moves readU32Be_takes fun _ => Takes.bind 8 readU32Be_moves readU32Be_takes fun _ =>
  Takes.bind 7 readU8_moves readU8_takes fun _ => Takes.bind 6 readU8_moves readU8_takes fun _ =>
  Takes.bind 4 readU16Be_moves readU16Be_takes fun _ => Takes.bind 2 readU16Be_moves readU16Be_takes fun _ =>
  Takes.bind 0 readU16Be_moves readU16Be_takes fun _ => Takes.value _

/-- A successful `ETH.READ` (R83, R84). -/
theorem readEthernet_success {s t : State} {h : EthernetHeader} (hr : readEthernet s = .value h t) :
    s.curOff.toNat + 14 ≤ s.curLen.toNat ∧ Filled s.mem s.curOff.toNat 14 ∧ h = ethAt s.mem s.curOff.toNat ∧
      t = moveCursor 14 s := by
  have hm := readEthernet_moves s h t hr
  have hl := hm.2 (by omega)
  have hf : Filled s.mem s.curOff.toNat 14 := by
    have hr' := hr
    unfold readEthernet at hr'
    split_ifs at hr'
    exact Takes.bind 8 (readBytes_moves 6) (readBytes_takes 6) (fun _ =>
      Takes.bind 2 (readBytes_moves 6) (readBytes_takes 6) fun _ =>
      Takes.bind 0 readU16Be_moves readU16Be_takes fun _ => Takes.value _) s h t hr'
  rw [readEthernet_value s hl hf] at hr
  cases hr
  exact ⟨hl, hf, rfl, rfl⟩

/-- A successful `IP4.READ` (R86, R92, R93). -/
theorem readIpv4_success {s t : State} {h : Ipv4Header} (hr : readIpv4 s = .value h t) :
    s.curOff.toNat + headerBytes h.headerLenWords ≤ s.curLen.toNat ∧ Filled s.mem s.curOff.toNat 20 ∧
      h = ip4At s.mem s.curOff.toNat ∧ 5 ≤ h.headerLenWords.toNat ∧ h.version = 4#4 ∧
      t = moveCursor (headerBytes h.headerLenWords) s := by
  have hr' := hr
  unfold readIpv4 at hr'
  split_ifs at hr'
  cases h0 : readU8 s with
  | fail e u => simp [h0] at hr'
  | fault y => simp [h0] at hr'
  | refused y => simp [h0] at hr'
  | value b u =>
    obtain ⟨rfl, hb⟩ := readU8_moves s b u h0
    have hb := hb (by omega)
    have f1 := readU8_takes s b _ h0
    have hz := readIpv4_byteZero s hb f1
    rw [hr] at hz
    split_ifs at hz with hl hv
    cases hx : readIpv4Fixed (highNibble (byteAt s.mem s.curOff.toNat)) (lowNibble (byteAt s.mem s.curOff.toNat))
        (moveCursor 1 s) with
    | fail e u => simp [hx] at hz
    | fault y => simp [hx] at hz
    | refused y => simp [hx] at hz
    | value w u =>
      have m1 := moveCursor_toNat 1 s hb
      have hm := (readIpv4Fixed_moves _ _ _ _ _ hx).2 (by omega)
      have hf := readIpv4Fixed_takes _ _ _ _ _ hx
      rw [m1, moveCursor_curLen] at hm
      rw [m1, moveCursor_mem] at hf
      have f20 : Filled s.mem s.curOff.toNat 20 := by
        intro k hk
        cases k with
        | zero => exact f1 0 (by omega)
        | succ k =>
          have := hf k (by omega)
          rwa [show s.curOff.toNat + (k + 1) = s.curOff.toNat + 1 + k by omega]
      simp only [ne_eq, Decidable.not_not] at hv
      by_cases hlen : s.curOff.toNat + headerBytes (lowNibble (byteAt s.mem s.curOff.toNat)) ≤ s.curLen.toNat
      · rw [readIpv4_value s f20 (by omega) hv hlen] at hr
        cases hr
        exact ⟨hlen, f20, rfl, by simpa [ip4At] using hl, hv, rfl⟩
      · obtain ⟨k, -, -, hk⟩ := readIpv4_short s hb (filled_sub f20 _ _ (by omega) (by omega)) (by omega) hv (by omega)
        rw [hk.2] at hr
        cases hr

/-- A successful `TCP.READ` (R95, R100, R101). -/
theorem readTcp_success {s t : State} {h : TcpHeader} (hr : readTcp s = .value h t) :
    s.curOff.toNat + headerBytes h.dataOffsetWords ≤ s.curLen.toNat ∧ Filled s.mem s.curOff.toNat 20 ∧
      h = tcpAt s.mem s.curOff.toNat ∧ 5 ≤ h.dataOffsetWords.toNat ∧
      t = moveCursor (headerBytes h.dataOffsetWords) s := by
  have hr' := hr
  unfold readTcp at hr'
  split_ifs at hr'
  cases hx : readTcpFixed s with
  | fail e u => simp [hx] at hr'
  | fault y => simp [hx] at hr'
  | refused y => simp [hx] at hr'
  | value w u =>
    have hm := (readTcpFixed_moves _ _ _ hx).2 (by omega)
    have hf := readTcpFixed_takes _ _ _ hx
    have hz := readTcp_fixed s hm hf
    rw [hr] at hz
    split_ifs at hz with hl
    by_cases hlen : s.curOff.toNat + headerBytes (highNibble (byteAt s.mem (s.curOff.toNat + 12))) ≤ s.curLen.toNat
    · rw [readTcp_value s hf (by omega) hlen] at hr
      cases hr
      exact ⟨hlen, hf, rfl, by simpa [tcpAt] using hl, rfl⟩
    · rw [readTcp_shortOptions s hm hf (by omega)] at hr
      cases hr

end Sys2Proof.Machine
end

