-- ==== Sys2Proof/Laws/Step.lean ====
section
/-! SUPPORT. One step: with nothing issued it is the step of the control sequence, else it is the issued instruction. -/

namespace Sys2Proof.Machine

theorem step_nil (s : State) (h : s.issue = []) : step s = controlStep s := by
  unfold step
  split
  · rfl
  · rename_i h'
    rw [h] at h'
    cases h'

theorem step_issued (s : State) (i : Instr) (rest : List Byte) (h : decode s.issue = some (i, rest)) :
    step s = exec i { s with issue := rest } := by
  unfold step
  split
  · rename_i h'
    rw [h'] at h
    cases h
  · rename_i h'
    rw [h'] at h
    rw [h]

theorem step_reserved (s : State) (h : s.issue ≠ []) (hd : decode s.issue = none) :
    step s = .refused .reservedEncoding := by
  unfold step
  split
  · rename_i h'
    exact absurd h' h
  · rename_i h'
    rw [h'] at hd
    rw [hd]

/-- A run takes its first step and goes on. -/
theorem run_succ (k : Nat) (s t : State) (h : step s = .next t) :
    Host.Core.run Sys2Proof.core (k + 1) s = Host.Core.run Sys2Proof.core k t := by
  simp only [Host.Core.run, Sys2Proof.core, h]

end Sys2Proof.Machine
end

