-- ==== Sys2Proof/Tests/Slice0.lean ====
section
/-! SUPPORT. The model's own tests. Expected results come from the vectors of spec/95_test_vectors.md (K, E, I, T, V,
PG), from the encodings of R57 to R59 written out by hand, and from the tables of R24, R26 and R33. The second part
shows, for every statement that has hypotheses, states and operands that meet them. -/

namespace Sys2Proof.Tests

open Sys2Proof Sys2Proof.Machine Sys2Proof.Safety

/-! ### Helpers -/

/-- The next state, if that is the answer. -/
def nextOf (o : Host.Outcome State Fault Refusal) : Option State :=
  match o with
  | .next t => some t
  | .fault _ => none
  | .refused _ => none

/-- The refusal, if that is the answer. -/
def refusalOf (o : Host.Outcome State Fault Refusal) : Option Refusal :=
  match o with
  | .next _ => none
  | .fault _ => none
  | .refused r => some r

/-- A state whose buffer, `CAPLEN` and cursor are those of `bs`, the cursor at `off`. -/
def onBuffer (bs : List Byte) (off : Nat) : State :=
  { State.reset with
    mem := Memory.fill [] 0 bs
    caplen := BitVec.ofNat 32 bs.length
    wirelen := BitVec.ofNat 32 bs.length
    curLen := BitVec.ofNat 32 bs.length
    curOff := BitVec.ofNat 32 off }

/-- The state with another `PREVIEW_CAP`. -/
def withCap (cap : U32) (s : State) : State := { s with previewCap := cap }

/-- What an operation returned and where it left the cursor. -/
def answer (i : Instr) (s : State) : Option (Ret × Nat) :=
  (nextOf (exec i s)).map fun t => (t.ret, t.curOff.toNat)

/-- What a host sees after `FRAME.DECODE`: `STATUS`, and `PAYLOAD_OFF`, `PAYLOAD_LEN` and `PREVIEW_LEN` if they hold
values. -/
def verdict (s : State) : Option (Nat × Option (Nat × Nat × Nat)) :=
  (nextOf (exec .frameDecode s)).map fun t =>
    ((statusWord t).toNat, t.record.map fun r => (r.payloadOff.toNat, r.payloadLen.toNat, r.previewLen.toNat))

/-- `PHASE` and `REASON` after a wire row. -/
def rowEnd (i : Instr) (s : State) : Option (Phase × Option SkipReason) :=
  (nextOf (exec i s)).map fun t => (t.phase, t.reason)

/-- `B` of the K vectors. -/
def bufK : List Byte := [0xde, 0xad, 0xbe, 0xef, 0x01, 0x02, 0x03]

/-- `ETH_A`. -/
def ethA : List Byte := [0xff, 0xff, 0xff, 0xff, 0xff, 0xff, 0x00, 0x11, 0x22, 0x33, 0x44, 0x55, 0x08, 0x00]

/-- `IP_A` without its first byte. -/
def ipTail : List Byte :=
  [0x00, 0x00, 0x28, 0x1c, 0x46, 0x40, 0x00, 0x40, 0x06, 0x9c, 0x71, 0xc0, 0xa8, 0x00, 0x01, 0xc0, 0xa8, 0x00, 0xc7]

/-- `TCP_A` with the byte `b12` at 12. -/
def tcpWith (b12 : Byte) : List Byte :=
  [0x04, 0xd2, 0x00, 0x50, 0x00, 0x00, 0x00, 0x01, 0x00, 0x00, 0x00, 0x00, b12, 0x02, 0x20, 0x00, 0x00, 0x00, 0x00, 0x00]

/-- `F1` of the V vectors (54 bytes). -/
def frameF1 : List Byte := ethA ++ [0x45] ++ ipTail ++ tcpWith 0x50

/-- `F2` of the V vectors (95 bytes). -/
def frameF2 : List Byte :=
  [0x00, 0x1a, 0x2b, 0x3c, 0x4d, 0x5e, 0x00, 0x11, 0x22, 0x33, 0x44, 0x55, 0x08, 0x00] ++
  [0x46, 0x10, 0x00, 0x51, 0xbe, 0xef, 0x40, 0x00, 0x3f, 0x06, 0xd3, 0xa0, 0x0a, 0x00, 0x00, 0x01,
   0x0a, 0x00, 0x00, 0x02, 0x94, 0x04, 0x00, 0x00] ++
  [0xc0, 0x00, 0x00, 0x50, 0x12, 0x34, 0x56, 0x78, 0x9a, 0xbc, 0xde, 0xf0, 0x80, 0x18, 0xff, 0xff,
   0xab, 0xcd, 0x00, 0x00, 0x01, 0x01, 0x08, 0x0a, 0x00, 0x00, 0x00, 0x01, 0x00, 0x00, 0x00, 0x02] ++
  [0x47, 0x45, 0x54, 0x20, 0x2f, 0x20, 0x48, 0x54, 0x54, 0x50, 0x2f, 0x31, 0x2e, 0x31, 0x0d, 0x0a,
   0x48, 0x6f, 0x73, 0x74, 0x3a, 0x20, 0x61, 0x0d, 0x0a]

/-- The Ethernet header of `F1`. -/
def ethF1 : EthernetHeader :=
  ⟨⟨0xff, 0xff, 0xff, 0xff, 0xff, 0xff⟩, ⟨0x00, 0x11, 0x22, 0x33, 0x44, 0x55⟩, 0x0800⟩

/-- The IPv4 header of `F1`. -/
def ipF1 : Ipv4Header :=
  ⟨4, 5, 0, 40, 0x1c46, 0x4000, 64, 6, 0x9c71, ⟨0xc0, 0xa8, 0x00, 0x01⟩, ⟨0xc0, 0xa8, 0x00, 0xc7⟩⟩

/-- The TCP header of `F1`. -/
def tcpF1 : TcpHeader := ⟨1234, 80, 1, 0, 5, 0x02, 0x2000, 0, 0⟩

/-- The frame `bs` placed and no start given for 0; the host's start command and then `k` steps for `k + 1`. -/
def stepsOf (bs : List Byte) : Nat → State
  | 0 => { onBuffer bs 0 with curLen := 0 }
  | k + 1 =>
    ((nextOf (hostAct (.writeCtrl 1) { onBuffer bs 0 with curLen := 0 })).bind
      fun t => nextOf (Host.Core.run Sys2Proof.core k t)).getD State.reset

/-- On `F1`: in `IDLE` for 0, in `S<k>` for `k` from 1 to 7, in `DONE` for 8. -/
def stepsF1 (k : Nat) : State := stepsOf frameF1 k

/-- An ARP frame's first 14 bytes. -/
def frameArp : List Byte := ethA.take 12 ++ [0x08, 0x06]

/-- The frame `UDP` of the V vectors, without what follows the IPv4 header. -/
def frameUdp : List Byte := frameF1.take 23 ++ [0x11] ++ (frameF1.take 34).drop 24

/-! ### WellFormed: an ill-formed term for each check -/

theorem test_illFormed_ethIpv4 : (Instr.ethIpv4 { ethF1 with etherType := 0x0806 }).wf = false := by decide
theorem test_illFormed_ethOther : (Instr.ethOther ethF1).wf = false := by decide
theorem test_illFormed_ip4Ihl03 : (Instr.ip4Ihl03 { ipF1 with headerLenWords := 4 }).wf = false := by decide
theorem test_illFormed_ip4Ihl4 : (Instr.ip4Ihl4 { ipF1 with headerLenWords := 3 }).wf = false := by decide
theorem test_illFormed_ip4V4Tcp :
    (Instr.ip4V4Tcp { ipF1 with headerLenWords := 4 }).wf = false ∧
    (Instr.ip4V4Tcp { ipF1 with version := 6 }).wf = false ∧
    (Instr.ip4V4Tcp { ipF1 with protocol := 17 }).wf = false := by decide
theorem test_illFormed_ip4V4Other :
    (Instr.ip4V4Other { ipF1 with headerLenWords := 4, protocol := 17 }).wf = false ∧
    (Instr.ip4V4Other { ipF1 with version := 6, protocol := 17 }).wf = false ∧
    (Instr.ip4V4Other ipF1).wf = false := by decide
theorem test_illFormed_ip4NotV4 :
    (Instr.ip4NotV4 { ipF1 with headerLenWords := 4, version := 6 }).wf = false ∧
    (Instr.ip4NotV4 ipF1).wf = false := by decide
theorem test_illFormed_tcpDoff03 : (Instr.tcpDoff03 { tcpF1 with dataOffsetWords := 4 } 0).wf = false := by decide
theorem test_illFormed_tcpDoff4 : (Instr.tcpDoff4 { tcpF1 with dataOffsetWords := 3 } 0).wf = false := by decide
theorem test_illFormed_tcpOk : (Instr.tcpOk { tcpF1 with dataOffsetWords := 4 } 0).wf = false := by decide

/-! ### Decoding, by words written out from the encodings (the first byte is the least significant) -/

theorem test_decode_cursor :
    decodeTableWord 8 0x00 = some .curReadU8 ∧ decodeTableWord 8 0x01 = some .curReadU16Be ∧
    decodeTableWord 8 0x02 = some .curReadU32Be ∧
    decodeTableWord 40 0xff00000003 = some (.curReadBytes 255) ∧
    decodeTableWord 8 0x04 = some .curRemaining ∧
    decodeTableWord 40 0x0000000105 = some (.curAdvance 0x01000000) := by decide
theorem test_decode_readers :
    decodeTableWord 8 0x06 = some .ethRead ∧ decodeTableWord 8 0x07 = some .ip4Read ∧
    decodeTableWord 8 0x08 = some .tcpRead ∧ decodeTableWord 8 0x09 = some .frameDecode := by decide
theorem test_decode_eth :
    decodeTableWord 112 0x0008554433221100ffffffffffff = some (.ethIpv4 ethF1) ∧
    decodeTableWord 112 0x0608554433221100ffffffffffff = some (.ethOther { ethF1 with etherType := 0x0806 }) := by
  decide
theorem test_decode_ip4 :
    decodeTableWord 160 0xc700a8c00100a8c0719c06400040461c28000043 =
      some (.ip4Ihl03 { ipF1 with headerLenWords := 3 }) ∧
    decodeTableWord 160 0xc700a8c00100a8c0719c06400040461c28000044 =
      some (.ip4Ihl4 { ipF1 with headerLenWords := 4 }) ∧
    decodeTableWord 160 0xc700a8c00100a8c0719c06400040461c28000045 = some (.ip4V4Tcp ipF1) ∧
    decodeTableWord 160 0xc700a8c00100a8c0719c11400040461c28000045 =
      some (.ip4V4Other { ipF1 with protocol := 17 }) ∧
    decodeTableWord 160 0xc700a8c00100a8c0719c06400040461c28000065 =
      some (.ip4NotV4 { ipF1 with version := 6 }) := by decide
theorem test_decode_tcp :
    decodeTableWord 168 0x000000000020023a00000000010000005000d20430 =
      some (.tcpDoff03 { tcpF1 with dataOffsetWords := 3 } 10) ∧
    decodeTableWord 168 0x000000000020024000000000010000005000d20430 =
      some (.tcpDoff4 { tcpF1 with dataOffsetWords := 4 } 0) ∧
    decodeTableWord 168 0x000000000020025f00000000010000005000d20430 = some (.tcpOk tcpF1 15) := by decide
theorem test_decode_reserved :
    decodeTableWord 8 0x0a = none ∧ decodeTableWord 8 0xff = none ∧ decode [0x03, 0x00, 0x00, 0x01] = none ∧
    decode [] = none := by decide
theorem test_withFetchWord :
    (nextOf (step (State.reset.withFetchWord 8 0x09))).map (fun t => (t.phase, t.reason)) =
      some (.done, some .tooShortForEthernet) ∧
    refusalOf (step (State.reset.withFetchWord 8 0x0a)) = some .reservedEncoding := by decide

/-! ### The cursor (K vectors) -/

/-- K1, K5 -/
theorem test_readU8 :
    answer .curReadU8 (onBuffer bufK 0) = some (.u8 0xde, 1) ∧
    answer .curReadU8 (onBuffer bufK 7) = some (.outOfBounds, 7) := by decide
/-- K2, K6 -/
theorem test_readU16Be :
    answer .curReadU16Be (onBuffer bufK 1) = some (.u16 0xadbe, 3) ∧
    answer .curReadU16Be (onBuffer bufK 6) = some (.outOfBounds, 6) := by decide
/-- K3, K7 -/
theorem test_readU32Be :
    answer .curReadU32Be (onBuffer bufK 3) = some (.u32 0xef010203, 7) ∧
    answer .curReadU32Be (onBuffer bufK 4) = some (.outOfBounds, 4) := by decide
/-- K8, K9, K10 -/
theorem test_readBytes :
    answer (.curReadBytes 3) (onBuffer bufK 4) = some (.view 4 3 [0x01, 0x02, 0x03], 7) ∧
    answer (.curReadBytes 4) (onBuffer bufK 4) = some (.outOfBounds, 4) ∧
    answer (.curReadBytes 0) (onBuffer bufK 7) = some (.view 7 0 [], 7) := by decide
/-- K4, K20 -/
theorem test_remaining :
    answer .curRemaining (onBuffer bufK 7) = some (.u32 0, 7) ∧
    answer .curRemaining (onBuffer bufK 2) = some (.u32 5, 2) := by decide
/-- K11, K12, K13, K14 -/
theorem test_advance :
    answer (.curAdvance 0) (onBuffer bufK 7) = some (.ok, 7) ∧
    answer (.curAdvance 7) (onBuffer bufK 0) = some (.ok, 7) ∧
    answer (.curAdvance 8) (onBuffer bufK 0) = some (.outOfBounds, 0) ∧
    answer (.curAdvance 4294967295) (onBuffer bufK 1) = some (.outOfBounds, 1) := by decide

/-! ### The readers (E, I and T vectors) -/

/-- E1 -/
theorem test_ethRead : answer .ethRead (onBuffer ethA 0) = some (.eth ethF1, 14) := by decide
/-- E2 -/
theorem test_ethRead_short : answer .ethRead (onBuffer (ethA.take 13) 0) = some (.skip .tooShortForEthernet, 0) := by
  decide
/-- I1, I2 -/
theorem test_ip4Read :
    answer .ip4Read (onBuffer (ethA ++ [0x45] ++ ipTail) 14) = some (.ip4 ipF1, 34) ∧
    answer .ip4Read (onBuffer (ethA ++ [0x46] ++ ipTail ++ [0x94, 0x04, 0x00, 0x00]) 14) =
      some (.ip4 { ipF1 with headerLenWords := 6 }, 38) := by decide
/-- I4, I5, I7, I8, I9, I10, I11, I12 -/
theorem test_ip4Read_fails :
    answer .ip4Read (onBuffer ethA 14) = some (.skip .tooShortForIp, 14) ∧
    answer .ip4Read (onBuffer (ethA ++ [0x44]) 14) = some (.skip .invalidIpHeaderLength, 15) ∧
    answer .ip4Read (onBuffer (ethA ++ [0x63] ++ ipTail) 14) = some (.skip .invalidIpHeaderLength, 15) ∧
    answer .ip4Read (onBuffer (ethA ++ [0x65] ++ ipTail) 14) = some (.skip .notIpv4, 15) ∧
    answer .ip4Read (onBuffer (ethA ++ [0x46] ++ ipTail ++ [0x94, 0x04]) 14) = some (.skip .tooShortForIp, 34) ∧
    answer .ip4Read (onBuffer (ethA ++ [0x45] ++ ipTail.take 18) 14) = some (.skip .tooShortForIp, 30) ∧
    answer .ip4Read (onBuffer (ethA ++ [0x45]) 14) = some (.skip .tooShortForIp, 15) ∧
    answer .ip4Read (onBuffer (ethA ++ [0x65]) 14) = some (.skip .notIpv4, 15) := by decide
/-- T1, T7, T10 -/
theorem test_tcpRead :
    answer .tcpRead (onBuffer frameF1 34) = some (.tcp tcpF1, 54) ∧
    answer .tcpRead (onBuffer (frameF1.take 34 ++ tcpWith 0x5f) 34) = some (.tcp tcpF1, 54) ∧
    answer .tcpRead (onBuffer (frameF1.take 34 ++ tcpWith 0x60 ++ [0x01, 0x01, 0x01, 0x00]) 34) =
      some (.tcp { tcpF1 with dataOffsetWords := 6 }, 58) := by decide
/-- T3, T4, T5, T6, T8, T9, T13 -/
theorem test_tcpRead_fails :
    answer .tcpRead (onBuffer (frameF1.take 53) 34) = some (.skip .tooShortForTcp, 34) ∧
    answer .tcpRead (onBuffer (frameF1.take 34 ++ (tcpWith 0x30).take 14) 34) =
      some (.skip .tooShortForTcp, 34) ∧
    answer .tcpRead (onBuffer (frameF1.take 34 ++ tcpWith 0x40) 34) = some (.skip .invalidTcpHeaderLength, 54) ∧
    answer .tcpRead (onBuffer (frameF1.take 34 ++ tcpWith 0x0f) 34) = some (.skip .invalidTcpHeaderLength, 54) ∧
    answer .tcpRead (onBuffer (frameF1.take 34 ++ tcpWith 0x60) 34) = some (.skip .tooShortForTcp, 54) ∧
    answer .tcpRead (onBuffer (frameF1.take 34 ++ tcpWith 0x60 ++ [0x01, 0x01, 0x01]) 34) =
      some (.skip .tooShortForTcp, 54) ∧
    answer .tcpRead (onBuffer (frameF1.take 34) 34) = some (.skip .tooShortForTcp, 34) := by decide

/-! ### FRAME.DECODE (V vectors) -/

/-- V1, V2 -/
theorem test_frameDecode :
    verdict (onBuffer frameF1 0) = some (0x06, some (54, 0, 0)) ∧
    verdict (onBuffer frameF2 0) = some (0x06, some (70, 25, 20)) := by decide
/-- V4 (13 bytes), V6 (ARP type), V24, V27 -/
theorem test_frameDecode_skips :
    verdict (onBuffer (frameF1.take 13) 0) = some (0x0a, none) ∧
    verdict (onBuffer (ethA.take 12 ++ [0x08, 0x06]) 0) = some (0x12, none) ∧
    verdict (onBuffer (ethA ++ [0x40]) 0) = some (0x22, none) ∧
    verdict (onBuffer (ethA.take 12 ++ [0x00, 0x08] ++ frameF1.drop 14) 0) = some (0x12, none) :=
  ⟨by decide, by decide, by decide, by decide⟩
/-- P7, P9 -/
theorem test_frameDecode_ipSkips :
    verdict (onBuffer (ethA ++ [0x46] ++ ipTail ++ [0x94, 0x04]) 0) = some (0x1a, none) ∧
    verdict (onBuffer (frameF1.take 23 ++ [0x11] ++ frameF1.drop 24) 0) = some (0x2a, none) := by decide
/-- V17, V18, V19 -/
theorem test_frameDecode_tcpSkips :
    verdict (onBuffer (frameF1.take 48) 0) = some (0x32, none) ∧
    verdict (onBuffer (frameF1.take 34 ++ tcpWith 0x40) 0) = some (0x3a, none) ∧
    verdict (onBuffer (frameF2.take 66) 0) = some (0x32, none) := by decide
/-- V1's registers 5 to 31, by number -/
theorem test_registersV1 :
    (HostReg.all.drop 5).map (fun r => hostRead r (stepsF1 8)) =
      [.bytes [0xff, 0xff, 0xff, 0xff, 0xff, 0xff], .bytes [0x00, 0x11, 0x22, 0x33, 0x44, 0x55], .word 0x0800,
       .word 4, .word 5, .word 0, .word 40, .word 0x1c46, .word 0x4000, .word 64, .word 6, .word 0x9c71,
       .bytes [0xc0, 0xa8, 0x00, 0x01], .bytes [0xc0, 0xa8, 0x00, 0xc7],
       .word 1234, .word 80, .word 1, .word 0, .word 5, .word 0x02, .word 8192, .word 0, .word 0,
       .word 54, .word 0, .word 0, .word 54] := by decide
set_option maxRecDepth 2000 in
/-- V23a, V23b: `PREVIEW_CAP` 0 and 4294967295 -/
theorem test_previewCap :
    verdict (withCap 0 (onBuffer frameF2 0)) = some (0x06, some (70, 25, 0)) ∧
    verdict (withCap 4294967295 (onBuffer frameF2 0)) = some (0x06, some (70, 25, 25)) :=
  ⟨by decide, by decide⟩
set_option maxRecDepth 2000 in
/-- PG1: the payload view and the preview of V2 -/
theorem test_payloadViewV2 :
    (nextOf (exec .frameDecode (onBuffer frameF2 0))).map (fun t => (payloadView t, previewView t)) =
      some (some (frameF2.drop 70), some ((frameF2.drop 70).take 20)) := by decide
/-- R24: the phases a decode of F1 goes through -/
theorem test_phases :
    (List.range 9).map (fun k => (stepsF1 k).phase) =
      [.idle, .s1, .s2, .s3, .s4, .s5, .s6, .s7, .done] := by decide

/-- R104, R35: a start given in `DONE` shows `BUSY = 1`, `DONE = 0` and nothing of the frame before it, at once -/
theorem test_startHidesTheLastFrame :
    (nextOf (hostAct (.writeCtrl 1) (stepsF1 8))).map
        (fun t => ((List.range 7).map (statusBit t), hostRead .ethType t, hostReadOutcome t)) =
      some ([some true, some false, none, none, none, none, some false],
        .refused .readOfNoValue, .refused .readOfNoValue) := by decide
/-- R26: `STATUS` after a `NotTcp` skip (code 5): bits 1, 3 and 5 are set -/
theorem test_statusNotTcp :
    (List.range 7).map (statusBit (stepsOf (frameF1.take 23 ++ [0x11] ++ frameF1.drop 24) 5)) =
      [some false, some true, some false, some true, some false, some true, some false] := by decide

/-! ### The wire rows (the "effect" column of R68's tables) -/

theorem test_ethRows :
    rowEnd (.ethIpv4 ethF1) (onBuffer frameF1 0) = some (.s3, none) ∧
    rowEnd (.ethOther { ethF1 with etherType := 0x0806 }) (onBuffer frameF1 0) = some (.done, some .notIpv4) := by decide
theorem test_ip4Rows :
    rowEnd (.ip4Ihl03 { ipF1 with headerLenWords := 3 }) (onBuffer frameF1 14) =
      some (.done, some .invalidIpHeaderLength) ∧
    rowEnd (.ip4Ihl4 { ipF1 with headerLenWords := 4 }) (onBuffer frameF1 14) =
      some (.done, some .invalidIpHeaderLength) ∧
    rowEnd (.ip4V4Tcp ipF1) (onBuffer frameF1 14) = some (.s5, none) ∧
    rowEnd (.ip4V4Other { ipF1 with protocol := 17 }) (onBuffer frameF1 14) = some (.done, some .notTcp) ∧
    rowEnd (.ip4NotV4 { ipF1 with version := 6 }) (onBuffer frameF1 14) = some (.done, some .notIpv4) := by decide
theorem test_tcpRows :
    rowEnd (.tcpDoff03 { tcpF1 with dataOffsetWords := 3 } 0) (stepsF1 5) =
      some (.done, some .invalidTcpHeaderLength) ∧
    rowEnd (.tcpDoff4 { tcpF1 with dataOffsetWords := 4 } 0) (stepsF1 5) =
      some (.done, some .invalidTcpHeaderLength) ∧
    rowEnd (.tcpOk tcpF1 0) (stepsF1 5) = some (.done, none) ∧
    rowEnd (.tcpOk { tcpF1 with dataOffsetWords := 6 } 0) (stepsF1 5) = some (.done, some .tooShortForTcp) := by decide

/-! ### Witnesses: the hypotheses of the statements are met -/

theorem test_witness_StepRunsTheIssuedInstruction :
    decode (State.reset.withFetchWord 8 0x06).issue = some (.ethRead, []) ∧
    (State.reset.withFetchWord 8 0x0a).issue ≠ [] ∧ decode (State.reset.withFetchWord 8 0x0a).issue = none := by
  decide

theorem test_witness_ControlSequence_s1 :
    (stepsF1 1).issue = [] ∧ (stepsF1 1).phase = .s1 ∧ answer .ethRead (stepsF1 1) = some (.eth ethF1, 14) ∧
    (stepsOf (ethA.take 13) 1).phase = .s1 ∧
    answer .ethRead (stepsOf (ethA.take 13) 1) = some (.skip .tooShortForEthernet, 0) := by decide

theorem test_witness_ControlSequence_s2_s3 :
    (stepsF1 2).phase = .s2 ∧ (stepsF1 3).phase = .s3 ∧ answer .ip4Read (stepsF1 3) = some (.ip4 ipF1, 34) ∧
    (stepsOf (ethA ++ [0x44]) 3).phase = .s3 ∧
    answer .ip4Read (stepsOf (ethA ++ [0x44]) 3) = some (.skip .invalidIpHeaderLength, 15) := by decide

theorem test_witness_ControlSequence_s4_s5 :
    (stepsF1 4).phase = .s4 ∧ 5 ≤ (stepsF1 4).held.ip.headerLenWords.toNat ∧ (stepsF1 4).held.ip.version = 4#4 ∧
    (stepsF1 5).phase = .s5 ∧ answer .tcpRead (stepsF1 5) = some (.tcp tcpF1, 54) := by decide

theorem test_witness_ControlSequence_s5_s6 :
    (stepsOf (frameF1.take 53) 5).phase = .s5 ∧
    answer .tcpRead (stepsOf (frameF1.take 53) 5) = some (.skip .tooShortForTcp, 34) ∧
    (stepsF1 6).phase = .s6 ∧ answer .curRemaining (stepsF1 6) = some (.u32 0, 54) := by decide

theorem test_witness_DecodeInvertsEncode :
    (Instr.curAdvance 0xffffffff).wf = true ∧ (Instr.ethOther { ethF1 with etherType := 0x86dd }).wf = true ∧
    (Instr.ip4NotV4 { ipF1 with version := 15, headerLenWords := 15 }).wf = true ∧
    (Instr.tcpOk { tcpF1 with dataOffsetWords := 15 } 15).wf = true := by decide

theorem test_witness_EncodeInvertsDecode :
    decode (0x10 :: (ethA ++ [0x09])) = some (.ethIpv4 ethF1, [0x09]) := by decide

/-- The cursor has not passed the end. -/
abbrev Inside (s : State) : Prop := s.curOff.toNat ≤ s.curLen.toNat

theorem test_witness_ReadU8Result :
    (onBuffer bufK 7).curOff.toNat ≤ (onBuffer bufK 7).curLen.toNat ∧ (onBuffer bufK 7).curOff = (onBuffer bufK 7).curLen ∧
    (onBuffer bufK 6).curOff ≠ (onBuffer bufK 6).curLen ∧ Memory.read (onBuffer bufK 6).mem 6 = some 0x03 := by decide

theorem test_witness_ReadU16BeResult :
    Inside (onBuffer bufK 6) ∧ Inside (onBuffer bufK 5) ∧
    (onBuffer bufK 6).curLen.toNat - (onBuffer bufK 6).curOff.toNat < 2 ∧
    2 ≤ (onBuffer bufK 5).curLen.toNat - (onBuffer bufK 5).curOff.toNat ∧
    Memory.read (onBuffer bufK 5).mem 5 = some 0x02 ∧ Memory.read (onBuffer bufK 5).mem 6 = some 0x03 := by decide

theorem test_witness_ReadU32BeResult :
    Inside (onBuffer bufK 4) ∧ Inside (onBuffer bufK 3) ∧
    (onBuffer bufK 4).curLen.toNat - (onBuffer bufK 4).curOff.toNat < 4 ∧
    4 ≤ (onBuffer bufK 3).curLen.toNat - (onBuffer bufK 3).curOff.toNat ∧
    Memory.read (onBuffer bufK 3).mem 3 = some 0xef ∧ Memory.read (onBuffer bufK 3).mem 4 = some 0x01 ∧
    Memory.read (onBuffer bufK 3).mem 5 = some 0x02 ∧ Memory.read (onBuffer bufK 3).mem 6 = some 0x03 := by decide

theorem test_witness_ReadBytesResult :
    Inside (onBuffer bufK 4) ∧
    (onBuffer bufK 4).curLen.toNat - (onBuffer bufK 4).curOff.toNat < (4 : U32).toNat ∧
    (3 : U32).toNat ≤ (onBuffer bufK 4).curLen.toNat - (onBuffer bufK 4).curOff.toNat ∧
    ([0x01, 0x02, 0x03] : List Byte).length = (3 : U32).toNat ∧
    (∀ k, k < (3 : U32).toNat → Memory.read (onBuffer bufK 4).mem (4 + k) = ([0x01, 0x02, 0x03] : List Byte)[k]?) := by
  decide

theorem test_witness_RemainingAndAdvanceResult :
    Inside (onBuffer bufK 4) ∧
    (onBuffer bufK 7).curOff.toNat ≤ (onBuffer bufK 7).curLen.toNat ∧
    (onBuffer bufK 4).curLen.toNat - (onBuffer bufK 4).curOff.toNat < (4 : U32).toNat ∧
    (3 : U32).toNat ≤ (onBuffer bufK 4).curLen.toNat - (onBuffer bufK 4).curOff.toNat := by decide

/-- Four bytes claimed, one of them filled. -/
def partlyFilled : State := { onBuffer [0xde] 0 with caplen := 4, curLen := 4 }

theorem test_witness_UnfilledByteIsRefused :
    partlyFilled.curOff.toNat + 2 ≤ partlyFilled.curLen.toNat ∧
    Memory.read partlyFilled.mem (partlyFilled.curOff.toNat + 1) = none ∧
    refusalOf (exec .curReadU16Be partlyFilled) = some .unfilledFrameByte := by decide

theorem test_witness_CursorOperationsOnlyMoveTheCursor :
    (nextOf (exec .curReadU8 (onBuffer bufK 0))).isSome = true ∧
    answer .curReadU16Be (onBuffer bufK 5) = some (.u16 0x0203, 7) ∧
    answer .curReadU16Be (onBuffer bufK 6) = some (.outOfBounds, 6) := by decide

theorem test_witness_BoundsLaw :
    (onBuffer bufK 6).curOff.toNat ≤ (onBuffer bufK 6).curLen.toNat ∧
    Filled (onBuffer bufK 6).mem (onBuffer bufK 6).curOff.toNat
      ((onBuffer bufK 6).curLen.toNat - (onBuffer bufK 6).curOff.toNat) := by decide

theorem test_witness_WideReadIsTwoNarrowReads :
    answer .curReadU8 (onBuffer bufK 5) = some (.u8 0x02, 6) ∧
    answer .curReadU8 (onBuffer bufK 6) = some (.u8 0x03, 7) ∧
    answer .curReadU16Be (onBuffer bufK 3) = some (.u16 0xef01, 5) ∧
    answer .curReadU16Be (onBuffer bufK 5) = some (.u16 0x0203, 7) := by decide

theorem test_witness_EthReadResult :
    Inside (onBuffer (ethA.take 13) 0) ∧ Inside (onBuffer ethA 0) ∧
    (onBuffer (ethA.take 13) 0).curLen.toNat - (onBuffer (ethA.take 13) 0).curOff.toNat < 14 ∧
    14 ≤ (onBuffer ethA 0).curLen.toNat - (onBuffer ethA 0).curOff.toNat ∧ Filled (onBuffer ethA 0).mem 0 14 := by decide

/-- `F1` up to the end of its IPv4 header, the cursor at 14, with another first byte. -/
def atIp (b0 : Byte) : State := onBuffer (ethA ++ [b0] ++ ipTail) 14

theorem test_witness_Ip4ReadSucceeds :
    Inside (atIp 0x45) ∧
    Memory.read (atIp 0x45).mem 14 = some 0x45 ∧ 5 ≤ (0x45 : Byte).toNat % 16 ∧ (0x45 : Byte).toNat / 16 = 4 ∧
    4 * ((0x45 : Byte).toNat % 16) ≤ (atIp 0x45).curLen.toNat - (atIp 0x45).curOff.toNat ∧
    Filled (atIp 0x45).mem 14 20 := by decide

theorem test_witness_Ip4ReadFails_empty_length :
    Inside (onBuffer ethA 14) ∧ Inside (atIp 0x44) ∧
    (onBuffer ethA 14).curLen.toNat = (onBuffer ethA 14).curOff.toNat ∧
    (atIp 0x44).curOff.toNat < (atIp 0x44).curLen.toNat ∧ Memory.read (atIp 0x44).mem 14 = some 0x44 ∧
    (0x44 : Byte).toNat % 16 < 5 := by decide

theorem test_witness_Ip4ReadFails_version_short :
    Inside (atIp 0x65) ∧ Inside (atIp 0x46) ∧
    (atIp 0x65).curOff.toNat < (atIp 0x65).curLen.toNat ∧ (atIp 0x46).curOff.toNat < (atIp 0x46).curLen.toNat ∧
    Memory.read (atIp 0x65).mem 14 = some 0x65 ∧ 5 ≤ (0x65 : Byte).toNat % 16 ∧ (0x65 : Byte).toNat / 16 ≠ 4 ∧
    Memory.read (atIp 0x46).mem 14 = some 0x46 ∧
    (atIp 0x46).curLen.toNat - (atIp 0x46).curOff.toNat < 4 * ((0x46 : Byte).toNat % 16) ∧
    Filled (atIp 0x46).mem 14 ((atIp 0x46).curLen.toNat - (atIp 0x46).curOff.toNat) := by decide

theorem test_witness_TcpReadSucceeds :
    Inside (onBuffer frameF1 34) ∧
    Memory.read (onBuffer frameF1 34).mem (34 + 12) = some 0x50 ∧ 5 ≤ (0x50 : Byte).toNat / 16 ∧
    4 * ((0x50 : Byte).toNat / 16) ≤ (onBuffer frameF1 34).curLen.toNat - (onBuffer frameF1 34).curOff.toNat ∧
    Filled (onBuffer frameF1 34).mem 34 20 := by decide

/-- `F1` with another TCP byte 12, the cursor at 34. -/
def atTcp (b12 : Byte) : State := onBuffer (frameF1.take 34 ++ tcpWith b12) 34

theorem test_witness_TcpReadFails_fixed :
    Inside (onBuffer (frameF1.take 53) 34) ∧
    (onBuffer (frameF1.take 53) 34).curLen.toNat - (onBuffer (frameF1.take 53) 34).curOff.toNat < 20 := by decide

theorem test_witness_TcpReadFails_length :
    Inside (atTcp 0x4f) ∧ Inside (atTcp 0x60) ∧
    20 ≤ (atTcp 0x4f).curLen.toNat - (atTcp 0x4f).curOff.toNat ∧ Filled (atTcp 0x4f).mem 34 20 ∧
    Memory.read (atTcp 0x4f).mem 46 = some 0x4f ∧ (0x4f : Byte).toNat / 16 < 5 ∧
    Memory.read (atTcp 0x60).mem 46 = some 0x60 ∧
    20 ≤ (atTcp 0x60).curLen.toNat - (atTcp 0x60).curOff.toNat ∧ Filled (atTcp 0x60).mem 34 20 ∧
    (atTcp 0x60).curLen.toNat - (atTcp 0x60).curOff.toNat < 4 * ((0x60 : Byte).toNat / 16) := by decide

theorem test_witness_ReadersOnlyMoveTheCursor :
    Inside (atIp 0x45) ∧ Inside (atTcp 0x60) ∧
    (onBuffer frameF1 0).curOff.toNat ≤ (onBuffer frameF1 0).curLen.toNat ∧
    (nextOf (exec .ethRead (onBuffer frameF1 0))).isSome = true ∧ (nextOf (exec .ip4Read (atIp 0x45))).isSome = true ∧
    (nextOf (exec .tcpRead (atTcp 0x60))).isSome = true := by decide

theorem test_witness_TcpReadIgnoresReservedAndOptions :
    (∀ k, k < 20 → k ≠ 12 → Memory.read (atTcp 0x50).mem (34 + k) = Memory.read (atTcp 0x5f).mem (34 + k)) ∧
    Memory.read (atTcp 0x50).mem (34 + 12) = some 0x50 ∧ Memory.read (atTcp 0x5f).mem (34 + 12) = some 0x5f ∧
    (0x50 : Byte).toNat / 16 = (0x5f : Byte).toNat / 16 := by decide

/-- A frame with one option word in each header and three payload bytes. -/
def builtFrame : List Byte :=
  ethBytes ethF1 ++ ip4Bytes { ipF1 with headerLenWords := 6 } ++ [1, 1, 1, 1] ++
    tcpBytes { tcpF1 with dataOffsetWords := 6 } 15 ++ [1, 1, 1, 1] ++ [0xaa, 0xbb, 0xcc]

theorem test_witness_ReadersInvertTheWireFormats :
    14 ≤ (onBuffer builtFrame 0).curLen.toNat ∧ Shows (onBuffer builtFrame 0).mem 0 (ethBytes ethF1) ∧
    14 + 4 * 6 ≤ (onBuffer builtFrame 14).curLen.toNat ∧
    Shows (onBuffer builtFrame 14).mem 14 (ip4Bytes { ipF1 with headerLenWords := 6 }) ∧
    38 + 4 * 6 ≤ (onBuffer builtFrame 38).curLen.toNat ∧
    Shows (onBuffer builtFrame 38).mem 38 (tcpBytes { tcpF1 with dataOffsetWords := 6 } 15) := by decide

/-- The state in front of step 5 on `F1`, with another `c.len`. -/
def s5WithLen (n : U32) : State := { stepsF1 5 with curLen := n }

theorem test_witness_EthAndIpRowsEffect :
    (onBuffer (ethA.take 13) 0).curLen.toNat < 14 ∧ 14 ≤ (onBuffer ethA 0).curLen.toNat ∧
    (onBuffer ethA 0).curLen.toNat < 15 ∧ 15 ≤ (onBuffer (ethA ++ [0x45]) 0).curLen.toNat ∧
    (onBuffer (frameF1.take 33) 0).curLen.toNat < 14 + 4 * ipF1.headerLenWords.toNat ∧
    14 + 4 * ipF1.headerLenWords.toNat ≤ (onBuffer (frameF1.take 34) 0).curLen.toNat := by decide

theorem test_witness_TcpRowsEffect :
    34 = 14 + 4 * (s5WithLen 53).held.ip.headerLenWords.toNat ∧ (s5WithLen 53).curLen.toNat < 34 + 20 ∧
    34 + 20 ≤ (s5WithLen 54).curLen.toNat ∧
    (s5WithLen 54).curLen.toNat < 34 + 4 * ({ tcpF1 with dataOffsetWords := 6 } : TcpHeader).dataOffsetWords.toNat ∧
    34 + 4 * tcpF1.dataOffsetWords.toNat ≤ (s5WithLen 54).curLen.toNat := by decide

theorem test_witness_FrameDecode :
    Ready (onBuffer frameF1 0) ∧ Filled (onBuffer frameF1 0).mem 0 (onBuffer frameF1 0).caplen.toNat ∧
    decision (onBuffer frameF1 0).mem (onBuffer frameF1 0).caplen.toNat = none := by decide

theorem test_witness_FrameDecode_skip :
    Ready (onBuffer frameArp 0) ∧ Filled (onBuffer frameArp 0).mem 0 (onBuffer frameArp 0).caplen.toNat ∧
    decision (onBuffer frameArp 0).mem (onBuffer frameArp 0).caplen.toNat = some .notIpv4 := by decide

theorem test_witness_AtomicDecodeEqualsTheSevenSteps :
    Ready (stepsF1 0) ∧ (stepsF1 0).issue = [] ∧ Ready (stepsF1 8) ∧ (stepsF1 8).issue = [] ∧
    (1 : U32).getLsbD 0 = true := by decide

theorem test_witness_DecodeIsIdempotent :
    Ready (stepsF1 8) ∧ Ready (onBuffer frameF1 0) ∧ (onBuffer frameF1 0).caplen = (stepsF1 8).caplen ∧
    (onBuffer frameF1 0).previewCap = (stepsF1 8).previewCap ∧
    SameBelow (stepsF1 8).mem (onBuffer (frameF1 ++ [0xaa]) 0).mem (stepsF1 8).caplen.toNat := by decide

theorem test_witness_DecodedRecordInvariants :
    (nextOf (exec .frameDecode (onBuffer frameF1 0))).map (fun t => t.outcome) = some true := by decide

set_option maxRecDepth 2000 in
theorem test_witness_FrameRoundTrip :
    Ready (onBuffer builtFrame 0) ∧ ethF1.etherType = 0x0800#16 ∧ ipF1.version = 4#4 ∧ ipF1.protocol = 6#8 ∧
    ([1, 1, 1, 1] : List Byte).length = 4 * ((6 : U4).toNat - 5) ∧
    Shows (onBuffer (builtFrame ++ [0xdd]) 0).mem 0 builtFrame ∧ Shows (onBuffer builtFrame 0).mem 0 builtFrame ∧
    (onBuffer builtFrame 0).caplen.toNat = builtFrame.length := by decide

theorem test_witness_StartWhileBusyIsRefused :
    busy (stepsF1 1) = true ∧ busy (stepsF1 7) = true ∧ busy (stepsF1 8) = false := by decide

theorem test_witness_BytesBeyond :
    SameBelow (onBuffer ethA 0).mem (onBuffer (ethA ++ [0x45]) 0).mem
      (max (onBuffer ethA 0).caplen.toNat (onBuffer ethA 0).curLen.toNat) := by decide

/-- `builtFrame` with other option bytes and another payload. -/
def otherFrame : List Byte :=
  builtFrame.take 34 ++ [7, 7, 7, 7] ++ (builtFrame.drop 38).take 20 ++ [7, 7, 7, 7] ++ [0x11, 0x22, 0x33]

theorem test_witness_FrameDecodeReadsOnlyHeaders :
    tcpOffset (onBuffer builtFrame 0).mem = 38 ∧ builtFrame ≠ otherFrame ∧
    ∀ a, a < (onBuffer builtFrame 0).caplen.toNat →
      a < 34 ∨ (tcpOffset (onBuffer builtFrame 0).mem ≤ a ∧ a < tcpOffset (onBuffer builtFrame 0).mem + 20) →
      Memory.read (onBuffer builtFrame 0).mem a = Memory.read (onBuffer otherFrame 0).mem a := by decide

/-! The invariant holds in a state of every phase. -/

theorem test_inv_idle : Inv State.reset := ⟨rfl, rfl, by decide, by decide, by decide, by decide, rfl, rfl, rfl⟩

theorem test_inv_s1 : Inv (stepsF1 1) :=
  ⟨by decide, by decide, by decide, by decide, by decide, by decide,
    show (stepsF1 1).record = none ∧ (stepsF1 1).curOff = 0 by decide⟩

theorem test_inv_s2 : Inv (stepsF1 2) :=
  ⟨by decide, by decide, by decide, by decide, by decide, by decide,
    show AtS2 (stepsF1 2) ∧ (stepsF1 2).curOff.toNat = 14 by decide⟩

theorem test_inv_s2_arp : Inv (stepsOf frameArp 2) :=
  ⟨by decide, by decide, by decide, by decide, by decide, by decide,
    show AtS2 (stepsOf frameArp 2) ∧ (stepsOf frameArp 2).curOff.toNat = 14 by decide⟩

theorem test_inv_s3 : Inv (stepsF1 3) :=
  ⟨by decide, by decide, by decide, by decide, by decide, by decide,
    show AtS3 (stepsF1 3) ∧ (stepsF1 3).curOff.toNat = 14 by decide⟩

theorem test_inv_s4 : Inv (stepsF1 4) :=
  ⟨by decide, by decide, by decide, by decide, by decide, by decide,
    show AtS4 (stepsF1 4) ∧ (stepsF1 4).curOff.toNat = ip4End (stepsF1 4).held.ip by decide⟩

theorem test_inv_s4_udp : Inv (stepsOf frameUdp 4) :=
  ⟨by decide, by decide, by decide, by decide, by decide, by decide,
    show AtS4 (stepsOf frameUdp 4) ∧ (stepsOf frameUdp 4).curOff.toNat = ip4End (stepsOf frameUdp 4).held.ip by decide⟩

theorem test_inv_s5 : Inv (stepsF1 5) :=
  ⟨by decide, by decide, by decide, by decide, by decide, by decide,
    show AtS5 (stepsF1 5) ∧ (stepsF1 5).curOff.toNat = ip4End (stepsF1 5).held.ip by decide⟩

theorem test_inv_s6 : Inv (stepsF1 6) :=
  ⟨by decide, by decide, by decide, by decide, by decide, by decide,
    show AtS6 (stepsF1 6) ∧ (stepsF1 6).curOff.toNat = tcpEnd (stepsF1 6).held.tcp (stepsF1 6) by decide⟩

theorem test_inv_s7 : Inv (stepsF1 7) :=
  ⟨by decide, by decide, by decide, by decide, by decide, by decide,
    show AtS6 (stepsF1 7) ∧ (stepsF1 7).curOff.toNat = tcpEnd (stepsF1 7).held.tcp (stepsF1 7) ∧
      (stepsF1 7).held.payloadLen.toNat = (stepsF1 7).curLen.toNat - tcpEnd (stepsF1 7).held.tcp (stepsF1 7) by decide⟩

theorem test_inv_done : Inv (stepsF1 8) :=
  ⟨by decide, by decide, by decide, by decide, by decide, by decide,
    show AtDone (stepsF1 8) from .inl ⟨by decide, by decide, _, rfl, by decide⟩⟩

theorem test_inv_done_skipped : Inv (stepsOf frameArp 3) :=
  ⟨by decide, by decide, by decide, by decide, by decide, by decide,
    show AtDone (stepsOf frameArp 3) from .inr (by decide)⟩

theorem test_witness_StepKeepsTheInvariant :
    Inv (stepsF1 1) ∧ Inv (stepsF1 4) ∧ Inv (stepsF1 8) ∧ (nextOf (step (stepsF1 1))).isSome = true ∧
    (nextOf (step (stepsF1 4))).isSome = true ∧ (nextOf (step (stepsF1 8))).isSome = true :=
  ⟨test_inv_s1, test_inv_s4, test_inv_done, by decide⟩

theorem test_witness_DecodeReachesDoneInSevenSteps :
    Inv (stepsF1 1) ∧ busy (stepsF1 1) = true ∧ Filled (stepsF1 1).mem 0 (stepsF1 1).curLen.toNat :=
  ⟨test_inv_s1, by decide⟩

theorem test_witness_FilterSteps :
    Inv (stepsOf frameArp 2) ∧ Inv (stepsF1 2) ∧ Inv (stepsOf frameUdp 4) ∧ Inv (stepsF1 4) ∧
    (stepsOf frameArp 2).phase = .s2 ∧ (stepsOf frameArp 2).held.eth.etherType ≠ 0x0800#16 ∧
    (stepsF1 2).phase = .s2 ∧ (stepsF1 2).held.eth.etherType = 0x0800#16 ∧
    (stepsOf frameUdp 4).phase = .s4 ∧ (stepsOf frameUdp 4).held.ip.protocol ≠ 6#8 ∧
    (stepsF1 4).phase = .s4 ∧ (stepsF1 4).held.ip.protocol = 6#8 :=
  ⟨test_inv_s2_arp, test_inv_s2, test_inv_s4_udp, test_inv_s4, by decide⟩

theorem test_witness_EveryFailureIsOneSkip :
    Inv (stepsOf frameArp 2) ∧ Inv (stepsOf frameUdp 4) ∧
    busy (stepsOf frameArp 2) = true ∧ busy (stepsOf frameUdp 4) = true ∧
    (nextOf (step (stepsOf frameArp 2))).map (fun t => (t.phase, t.outcome, t.reason)) =
      some (.done, false, some .notIpv4) ∧
    (nextOf (step (stepsOf frameUdp 4))).map (fun t => (t.phase, t.outcome, t.reason)) =
      some (.done, false, some .notTcp) :=
  ⟨test_inv_s2_arp, test_inv_s4_udp, by decide⟩

theorem test_witness_PayloadLengthAndProduceStep :
    Inv (stepsF1 6) ∧ (stepsF1 6).phase = .s6 ∧ (stepsF1 7).issue = [] ∧ (stepsF1 7).phase = .s7 :=
  ⟨test_inv_s6, by decide⟩

theorem test_witness_IdleAndDoneWait :
    Ready (stepsF1 8) ∧ (stepsF1 8).issue = [] ∧ (stepsF1 8).ctrlStart = false ∧
    Ready State.reset ∧ State.reset.issue = [] ∧ State.reset.ctrlStart = false := by decide

theorem test_witness_StartIsAccepted :
    Ready (stepsF1 8) ∧ Ready State.reset ∧ (0x80000001 : U32).getLsbD 0 = true := by decide

theorem test_witness_PhaseMovesAlongTheArrows :
    (stepsF1 3).issue = [] ∧ (nextOf (step (stepsF1 3))).isSome = true ∧
    (nextOf (hostAct (.writeCtrl 1) (stepsF1 8))).isSome = true ∧
    (nextOf (hostAct (.writeBuffer 54 0xaa) (stepsF1 3))).isSome = true := by decide

theorem test_witness_Host :
    Inv (stepsF1 3) ∧ Inv State.reset ∧ busy (stepsF1 3) = true ∧ busy State.reset = false ∧
    (1 : U32).getLsbD 0 = true ∧ (2 : U32).getLsbD 0 = false ∧
    (53 : U32).toNat < (stepsF1 3).caplen.toNat ∧ (stepsF1 3).caplen.toNat ≤ (54 : U32).toNat ∧
    (nextOf (hostAct (.writeBuffer 54 0xaa) (stepsF1 3))).isSome = true ∧
    refusalOf (hostAct (.writeBuffer 53 0xaa) (stepsF1 3)) = some .bufferWriteWhileBusy ∧
    (53 : U32).toNat < (stepsF1 8).caplen.toNat ∧ (nextOf (hostAct (.writeCtrl 1) (stepsF1 8))).isSome = true :=
  ⟨test_inv_s3, test_inv_idle, by decide⟩

theorem test_witness_HostReads :
    isDone (stepsF1 7) = false ∧ isDone (stepsOf frameArp 3) = true ∧ (stepsOf frameArp 3).record = none ∧
    isDone (stepsF1 8) = true ∧ (stepsF1 8).ctrlStart = false ∧ (stepsF1 8).record.isSome = true := by decide

theorem test_witness_InstancesAreIndependent :
    [stepsF1 1, State.reset][1]? = some State.reset ∧ (nextOf (step State.reset)).isSome = true ∧
    (nextOf (hostAct (.writeCtrl 1) State.reset)).isSome = true := by decide

end Sys2Proof.Tests
end

/-! SUPPORT. What a step of a decode in progress can do, said once: either the frame is skipped, or the step `PHASE`
names succeeds. The invariant of a run, the arrows of `PHASE` and the termination of a decode follow from it. -/

namespace Sys2Proof.Machine

open Sys2Proof.Safety

/-! ### The step relation of a decode in progress -/

/-- Everything a step of a decode in progress can answer (R105 to R111), with the guards that let it: the frame is
skipped with the cursor moved inside `[0, c.len]`, or one of the seven steps succeeds. -/
inductive DecodeStep (s : State) : State → Prop where
  | skip (r : SkipReason) (n : Nat) (hp : phaseArrow s.phase .done = true)
      (hn : s.curOff.toNat ≤ s.curLen.toNat → s.curOff.toNat + n ≤ s.curLen.toNat) :
      DecodeStep s (skipped r (moveCursor n s))
  | ethernet (hp : s.phase = .s1) (hl : s.curOff.toNat + 14 ≤ s.curLen.toNat)
      (hf : Filled s.mem s.curOff.toNat 14) :
      DecodeStep s { moveCursor 14 s with
        phase := .s2, held := { s.held with eth := ethAt s.mem s.curOff.toNat } }
  | isIpv4 (hp : s.phase = .s2) (hl : 14 ≤ s.curLen.toNat) (ht : s.held.eth.etherType = 0x0800#16) :
      DecodeStep s { s with phase := .s3, curOff := 14#32 }
  | ipv4 (hp : s.phase = .s3) (h : Ipv4Header) (hh : h = ip4At s.mem s.curOff.toNat)
      (hl : s.curOff.toNat + headerBytes h.headerLenWords ≤ s.curLen.toNat) (hf : Filled s.mem s.curOff.toNat 20)
      (hw : 5 ≤ h.headerLenWords.toNat) (hv : h.version = 4#4) :
      DecodeStep s { moveCursor (headerBytes h.headerLenWords) s with phase := .s4, held := { s.held with ip := h } }
  | isTcp (hp : s.phase = .s4) (hl : ip4End s.held.ip ≤ s.curLen.toNat) (ht : s.held.ip.protocol = 6#8) :
      DecodeStep s { s with phase := .s5, curOff := BitVec.ofNat 32 (ip4End s.held.ip) }
  | tcp (hp : s.phase = .s5) (h : TcpHeader) (hh : h = tcpAt s.mem s.curOff.toNat)
      (hl : s.curOff.toNat + headerBytes h.dataOffsetWords ≤ s.curLen.toNat) (hf : Filled s.mem s.curOff.toNat 20)
      (hw : 5 ≤ h.dataOffsetWords.toNat) :
      DecodeStep s { moveCursor (headerBytes h.dataOffsetWords) s with phase := .s6, held := { s.held with tcp := h } }
  | payload (hp : s.phase = .s6) :
      DecodeStep s { s with phase := .s7, held := { s.held with payloadLen := remainingWord s } }
  | finish (hp : s.phase = .s7) : DecodeStep s (decoded s)

/-- A wire row skips without a move of the cursor. -/
theorem DecodeStep.skipHere {s : State} (r : SkipReason) (hp : phaseArrow s.phase .done = true) :
    DecodeStep s (skipped r s) := by
  simpa using DecodeStep.skip r 0 hp (by simp)

/-- What `x or Skipped(r); k` can answer: the skip of the reader's failure, or what follows its value. -/
theorem Run.orSkipped_next {α : Type} {x : Run SkipReason α} {k : α → State → Host.Outcome State Fault Refusal}
    {t : State} (h : x.orSkipped k = .next t) :
    (∃ r u, x = .fail r u ∧ t = skipped r u) ∨ ∃ v u, x = .value v u ∧ k v u = .next t := by
  cases x with
  | value v u => exact .inr ⟨v, u, rfl, h⟩
  | fail r u => cases h; exact .inl ⟨r, u, rfl, rfl⟩
  | fault f => cases h
  | refused r => cases h

/-- A reader inside a decode: its failure is a skip, so that only its success is left to look at. -/
theorem DecodeStep.of_orSkipped {α : Type} {s t : State} {x : Run SkipReason α}
    {k : α → State → Host.Outcome State Fault Refusal} (hp : phaseArrow s.phase .done = true) (hx : OnlyMoves s x)
    (h : x.orSkipped k = .next t) (hk : ∀ v u, x = .value v u → k v u = .next t → DecodeStep s t) :
    DecodeStep s t := by
  rcases Run.orSkipped_next h with ⟨r, u, rfl, rfl⟩ | ⟨v, u, hv, ht⟩
  · obtain ⟨n, rfl, hn⟩ := hx
    exact .skip r n hp hn
  · exact hk v u hv ht

theorem step1_decodeStep {s t : State} (hp : s.phase = .s1) (h : step1 s = .next t) : DecodeStep s t := by
  refine .of_orSkipped (by rw [hp]; rfl) (readEthernet_onlyMoves s) h fun v u hv ht => ?_
  obtain ⟨hl, hf, rfl, rfl⟩ := readEthernet_success hv
  cases ht
  exact .ethernet hp hl hf

theorem step2_decodeStep {s t : State} (hp : s.phase = .s2) (h : step2 s = .next t) : DecodeStep s t := by
  unfold step2 runEthRow execEthIpv4 execEthOther at h
  split_ifs at h with ht hl hl <;> cases h
  · exact .skipHere _ (by rw [hp]; rfl)
  · exact .isIpv4 hp (Nat.not_lt.mp hl) ht
  · exact .skipHere _ (by rw [hp]; rfl)
  · exact .skipHere _ (by rw [hp]; rfl)

theorem step3_decodeStep {s t : State} (hp : s.phase = .s3) (h : step3 s = .next t) : DecodeStep s t := by
  refine .of_orSkipped (by rw [hp]; rfl) (readIpv4_onlyMoves s) h fun v u hv ht => ?_
  obtain ⟨hl, hf, hh, hw, hver, rfl⟩ := readIpv4_success hv
  cases ht
  exact .ipv4 hp v hh hl hf hw hver

theorem step4_decodeStep {s t : State} (hp : s.phase = .s4) (h : step4 s = .next t) : DecodeStep s t := by
  unfold step4 execIp4V4Tcp execIp4V4Other at h
  split_ifs at h with ht hl hl <;> cases h
  · exact .skipHere _ (by rw [hp]; rfl)
  · exact .isTcp hp (Nat.not_lt.mp hl) ht
  · exact .skipHere _ (by rw [hp]; rfl)
  · exact .skipHere _ (by rw [hp]; rfl)

theorem step5_decodeStep {s t : State} (hp : s.phase = .s5) (h : step5 s = .next t) : DecodeStep s t := by
  refine .of_orSkipped (by rw [hp]; rfl) (readTcp_onlyMoves s) h fun v u hv ht => ?_
  obtain ⟨hl, hf, hh, hw, rfl⟩ := readTcp_success hv
  cases ht
  exact .tcp hp v hh hl hf hw

/-- The inversion lemma of the control sequence while busy. -/
theorem controlStep_decodeStep {s t : State} (hb : busy s = true) (h : controlStep s = .next t) : DecodeStep s t := by
  unfold controlStep at h
  unfold busy at hb
  cases hp : s.phase <;> simp only [hp] at h hb
  case idle => cases hb
  case done => cases hb
  case s1 => exact step1_decodeStep hp h
  case s2 => exact step2_decodeStep hp h
  case s3 => exact step3_decodeStep hp h
  case s4 => exact step4_decodeStep hp h
  case s5 => exact step5_decodeStep hp h
  case s6 => cases h; exact .payload hp
  case s7 => cases h; exact .finish hp

/-- The machine is not busy exactly in `IDLE` and `DONE`. -/
theorem busy_eq_false_iff (s : State) : busy s = false ↔ s.phase = .idle ∨ s.phase = .done := by
  unfold busy
  cases s.phase <;> simp [Phase.busy]

/-- In `IDLE` and `DONE` the control sequence waits. -/
theorem controlStep_ready {s : State} (hb : busy s = false) : controlStep s = await s := by
  rcases (busy_eq_false_iff s).mp hb with hp | hp <;> simp only [controlStep, hp]

/-! ### The arrows of `PHASE` -/

/-- The acceptance of a start leaves `IDLE` or `DONE` for `S1`. -/
theorem phaseArrow_accept {s : State} (hb : busy s = false) : phaseArrow s.phase (accept s).phase = true := by
  rcases (busy_eq_false_iff s).mp hb with hp | hp <;> rw [hp] <;> rfl

/-- `IDLE` and `DONE` may stay. -/
theorem phaseArrow_self {s : State} (hb : busy s = false) : phaseArrow s.phase s.phase = true := by
  rcases (busy_eq_false_iff s).mp hb with hp | hp <;> rw [hp] <;> rfl

theorem DecodeStep.phaseArrow {s t : State} (h : DecodeStep s t) : phaseArrow s.phase t.phase = true := by
  cases h with
  | skip r n hp hn => exact hp
  | ethernet hp => rw [hp]; rfl
  | isIpv4 hp => rw [hp]; rfl
  | ipv4 hp => rw [hp]; rfl
  | isTcp hp => rw [hp]; rfl
  | tcp hp => rw [hp]; rfl
  | payload hp => rw [hp]; rfl
  | finish hp => rw [hp]; rfl

theorem controlStep_phaseArrow {s t : State} (h : controlStep s = .next t) : phaseArrow s.phase t.phase = true := by
  cases hb : busy s with
  | true => exact (controlStep_decodeStep hb h).phaseArrow
  | false =>
    rw [controlStep_ready hb, await_eq] at h
    cases h
    split
    · exact phaseArrow_accept hb
    · exact phaseArrow_self hb

theorem hostAct_phaseArrow {s t : State} {a : HostAction} (ha : a ≠ .assertReset) (h : hostAct a s = .next t) :
    t.phase = s.phase ∨ phaseArrow s.phase t.phase = true := by
  rcases hostAct_cases h with ⟨v, -, hb, ⟨-, rfl⟩ | ⟨-, rfl⟩⟩ | ⟨r, v, -, -, rfl⟩ | ⟨o, b, -, -, rfl⟩ | ⟨hr, -⟩
  · exact .inr (phaseArrow_accept hb)
  · exact .inl rfl
  · exact .inl (setInput_phase r v s)
  · exact .inl rfl
  · exact absurd hr ha

/-! ### What a decode in progress leaves alone -/

/-- The fields no step of a decode in progress writes: everything but `PHASE`, the cursor's offset, the held values and
the results. -/
structure SameInputs (s t : State) : Prop where
  issue      : t.issue = s.issue
  mem        : t.mem = s.mem
  ctrlStart  : t.ctrlStart = s.ctrlStart
  caplen     : t.caplen = s.caplen
  previewCap : t.previewCap = s.previewCap
  curLen     : t.curLen = s.curLen
  capLatch   : t.capLatch = s.capLatch

theorem DecodeStep.sameInputs {s t : State} (h : DecodeStep s t) : SameInputs s t := by
  cases h <;> exact ⟨rfl, rfl, rfl, rfl, rfl, rfl, rfl⟩

/-- An offset inside `[0, c.len]` is not cut off by the cursor's 32 bits. -/
theorem offset_toNat {s : State} {n : Nat} (h : n ≤ s.curLen.toNat) : (BitVec.ofNat 32 n).toNat = n :=
  Nat.mod_eq_of_lt (h.trans_lt s.curLen.isLt)

/-- The cursor stays inside `[0, c.len]` (R25). -/
theorem DecodeStep.cursorInside {s t : State} (h : DecodeStep s t) (hs : s.curOff.toNat ≤ s.curLen.toNat) :
    t.curOff.toNat ≤ t.curLen.toNat := by
  cases h with
  | skip r n hp hn => exact (moveCursor_toNat n s (hn hs)).trans_le (hn hs)
  | ethernet hp hl => exact (moveCursor_toNat 14 s hl).trans_le hl
  | isIpv4 hp hl => exact hl
  | ipv4 hp h hh hl => exact (moveCursor_toNat _ s hl).trans_le hl
  | isTcp hp hl => exact (offset_toNat hl).trans_le hl
  | tcp hp h hh hl => exact (moveCursor_toNat _ s hl).trans_le hl
  | payload => exact hs
  | finish => exact hs

/-! ### The headers a reader held -/

theorem ethOfBytes_readSpan {m : List Host.Cell} {a : Nat} (hf : Filled m a 14) :
    (readSpan m a 14).bind ethOfBytes = some (ethAt m a, []) := by
  simp [readSpan_filled m a 14 hf, List.range_succ, ethOfBytes, ethAt, macAt, u16At, Nat.add_assoc]

theorem ip4OfBytes_readSpan {m : List Host.Cell} {a : Nat} (hf : Filled m a 20) :
    (readSpan m a 20).bind ip4OfBytes = some (ip4At m a, []) := by
  simp [readSpan_filled m a 20 hf, List.range_succ, ip4OfBytes, ip4At, addrAt, u16At, Nat.add_assoc]

theorem tcpOfBytes_readSpan {m : List Host.Cell} {a : Nat} (hf : Filled m a 20) :
    (readSpan m a 20).bind tcpOfBytes = some ((tcpAt m a, lowNibble (byteAt m (a + 12))), []) := by
  simp [readSpan_filled m a 20 hf, List.range_succ, tcpOfBytes, tcpAt, u16At, u32At, Nat.add_assoc]

/-! ### The record of a decoded frame -/

/-- What has been established of a frame when its record is written: the headers are of the kind the decoder wants and
lie within `c.len`, and the cursor and the payload length are what is left behind them. -/
structure FrameComplete (s : State) : Prop where
  etherType  : s.held.eth.etherType = 0x0800#16
  version    : s.held.ip.version = 4#4
  ipWords    : 5 ≤ s.held.ip.headerLenWords.toNat
  protocol   : s.held.ip.protocol = 6#8
  tcpWords   : 5 ≤ s.held.tcp.dataOffsetWords.toNat
  inside     : tcpEnd s.held.tcp s ≤ s.curLen.toNat
  cursor     : s.curOff.toNat = tcpEnd s.held.tcp s
  payloadLen : s.held.payloadLen.toNat = s.curLen.toNat - tcpEnd s.held.tcp s

theorem tcpEnd_eq (h : TcpHeader) (s : State) :
    tcpEnd h s = 14 + 4 * s.held.ip.headerLenWords.toNat + 4 * h.dataOffsetWords.toNat := by
  unfold tcpEnd tcpStart ip4End headerBytes Config.ethHlen
  omega

theorem previewLength_toNat (cap len : U32) : (previewLength cap len).toNat = min cap.toNat len.toNat := by
  unfold previewLength
  split <;> rename_i h <;> rw [BitVec.le_def] at h <;> omega

/-- The ten invariants of R36 hold of the record that step 7 writes. -/
theorem FrameComplete.recordOk {s : State} (h : FrameComplete s) : RecordOk (recordOf s) s.curLen s.capLatch := by
  obtain ⟨hty, hv, hi, hp, ht, hin, hc, hl⟩ := h
  rw [tcpEnd_eq] at hin hc hl
  have hi15 := s.held.ip.headerLenWords.isLt
  have ht15 := s.held.tcp.dataOffsetWords.isLt
  have hpl := previewLength_toNat s.capLatch s.held.payloadLen
  refine ⟨by omega, hty, hv, hi, Nat.le_of_lt_succ hi15, Nat.le_of_add_right_le hin, hp, ht,
    Nat.le_of_lt_succ ht15, hin, hc, ?_, rfl, hpl, hpl.trans_le (Nat.min_le_right _ _)⟩
  show s.curOff.toNat + s.held.payloadLen.toNat = s.curLen.toNat
  omega

/-- What step 7 relies on (R110, R111). -/
theorem FrameComplete.of_atS6 {s : State} (h : AtS6 s) (hc : s.curOff.toNat = tcpEnd s.held.tcp s)
    (hl : s.held.payloadLen.toNat = s.curLen.toNat - tcpEnd s.held.tcp s) : FrameComplete s := by
  obtain ⟨⟨⟨⟨-, hty⟩, -, -, hv, hi⟩, hp⟩, hin, -, ht⟩ := h
  exact ⟨hty, hv, hi, hp, ht, hin, hc, hl⟩

/-! ### The invariant of a run -/

/-- `CUR.REMAINING` as a number. -/
theorem remainingWord_toNat (s : State) : (remainingWord s).toNat = s.curLen.toNat - s.curOff.toNat :=
  offset_toNat (s := s) (Nat.sub_le _ _)

/-- What the step `PHASE` names relies on is established by the step before it. -/
theorem DecodeStep.phaseOk {s t : State} (h : DecodeStep s t) (hs : PhaseOk s) : PhaseOk t := by
  unfold PhaseOk at hs
  cases h with
  | skip r n hp hn => exact .inr ⟨rfl, rfl, rfl⟩
  | ethernet hp hl hf =>
    simp only [hp] at hs
    obtain ⟨hrec, hoff⟩ := hs
    have h0 : s.curOff.toNat = 0 := by rw [hoff]; rfl
    have hc := moveCursor_toNat 14 s hl
    rw [h0] at hl hf hc ⊢
    exact ⟨⟨hrec, by simpa using hl, ethOfBytes_readSpan hf⟩, hc⟩
  | isIpv4 hp hl ht =>
    simp only [hp] at hs
    exact ⟨⟨hs.1, ht⟩, rfl⟩
  | ipv4 hp h hh hl hf hw hv =>
    simp only [hp] at hs
    obtain ⟨hs3, hoff⟩ := hs
    have hc := moveCursor_toNat _ s hl
    rw [hoff] at hl hf hc hh
    exact ⟨⟨hs3, hl, hh ▸ ip4OfBytes_readSpan hf, hv, hw⟩, hc⟩
  | isTcp hp hl ht =>
    simp only [hp] at hs
    exact ⟨⟨hs.1, ht⟩, offset_toNat hl⟩
  | tcp hp h hh hl hf hw =>
    simp only [hp] at hs
    obtain ⟨hs5, hoff⟩ := hs
    have hc := moveCursor_toNat _ s hl
    rw [hoff] at hl hf hc hh
    refine ⟨⟨hs5, hl, ?_, hw⟩, hc⟩
    exact hh ▸ congrArg (Option.map _) (tcpOfBytes_readSpan hf)
  | payload hp =>
    simp only [hp] at hs
    obtain ⟨hs6, hoff⟩ := hs
    exact ⟨hs6, hoff, (remainingWord_toNat s).trans (congrArg (s.curLen.toNat - ·) hoff)⟩
  | finish hp =>
    simp only [hp] at hs
    obtain ⟨hs6, hoff, hl⟩ := hs
    exact .inl ⟨rfl, rfl, _, rfl, (FrameComplete.of_atS6 hs6 hoff hl).recordOk⟩

theorem DecodeStep.inv {s t : State} (h : DecodeStep s t) (hb : busy s = true) (hs : Inv s) : Inv t := by
  obtain ⟨hi, hm, hcs, hcap, hpc, hcl, hlat⟩ := h.sameInputs
  exact
    { nothingIssued := hi ▸ hs.nothingIssued
      bufferWf := hm ▸ hs.bufferWf
      cursorInside := h.cursorInside hs.cursorInside
      noCommand := hcs ▸ hs.noCommand
      lenSampled := fun _ => by rw [hcl, hcap, hs.lenSampled hb]
      capSampled := fun _ => by rw [hlat, hpc, hs.capSampled hb]
      phaseOk := h.phaseOk hs.phaseOk }

/-- In a run a busy machine takes a step of the decode. -/
theorem inv_step_decodeStep {s t : State} (hs : Inv s) (hb : busy s = true) (h : step s = .next t) : DecodeStep s t :=
  controlStep_decodeStep hb (step_nil s hs.nothingIssued ▸ h)

/-- In a run a machine that is not busy waits: no start command is left standing. -/
theorem inv_step_ready {s : State} (hs : Inv s) (hb : busy s = false) : step s = .next s := by
  rw [step_nil s hs.nothingIssued, controlStep_ready hb, await_eq, hs.noCommand, if_neg Bool.false_ne_true]

theorem inv_step {s t : State} (hs : Inv s) (h : step s = .next t) : Inv t := by
  cases hb : busy s with
  | true => exact (inv_step_decodeStep hs hb h).inv hb hs
  | false =>
    rw [inv_step_ready hs hb] at h
    cases h
    exact hs

/-! ### A decode of filled bytes goes on to `DONE` -/

/-- The operation is not stopped: it succeeds or fails. -/
def Run.Ends {ε α : Type} (x : Run ε α) : Prop := (∃ v t, x = .value v t) ∨ ∃ e t, x = .fail e t

theorem Run.Ends.orSkipped {α : Type} {x : Run SkipReason α} {k : α → State → Host.Outcome State Fault Refusal}
    (hx : x.Ends) (hk : ∀ v u, ∃ t, k v u = .next t) : ∃ t, x.orSkipped k = .next t := by
  rcases hx with ⟨v, u, rfl⟩ | ⟨r, u, rfl⟩
  · exact hk v u
  · exact ⟨_, rfl⟩

section
variable {s : State} (hf : Filled s.mem 0 s.curLen.toNat)
include hf

theorem readEthernet_ends : (readEthernet s).Ends := by
  by_cases h : s.curOff.toNat + 14 ≤ s.curLen.toNat
  · exact .inl ⟨_, _, readEthernet_value s h (filled_sub hf _ _ (by omega) (by omega))⟩
  · exact .inr ⟨_, _, readEthernet_short s (by unfold remaining; omega)⟩

theorem readIpv4_ends : (readIpv4 s).Ends := by
  by_cases h1 : s.curOff.toNat + 1 ≤ s.curLen.toNat
  swap
  · exact .inr ⟨_, _, readIpv4_empty s (by unfold remaining; omega)⟩
  have hz := readIpv4_byteZero s h1 (filled_sub hf _ _ (by omega) (by omega))
  by_cases hl : (lowNibble (byteAt s.mem s.curOff.toNat)).toNat < 5
  · exact .inr ⟨_, _, hz.trans (if_pos hl)⟩
  rw [if_neg hl] at hz
  by_cases hv : highNibble (byteAt s.mem s.curOff.toNat) = 4#4
  swap
  · exact .inr ⟨_, _, hz.trans (if_pos hv)⟩
  have hl := Nat.not_lt.mp hl
  by_cases h : s.curOff.toNat + headerBytes (lowNibble (byteAt s.mem s.curOff.toNat)) ≤ s.curLen.toNat
  · have h20 : 20 ≤ headerBytes (lowNibble (byteAt s.mem s.curOff.toNat)) := by unfold headerBytes; omega
    exact .inl ⟨_, _, readIpv4_value s (filled_sub hf _ _ (by omega) (by omega)) hl hv h⟩
  · obtain ⟨k, -, -, -, hk⟩ := readIpv4_short s h1 (filled_sub hf _ _ (by omega) (by omega)) hl hv (by omega)
    exact .inr ⟨_, _, hk⟩

theorem readTcp_ends : (readTcp s).Ends := by
  by_cases h20 : s.curOff.toNat + 20 ≤ s.curLen.toNat
  swap
  · exact .inr ⟨_, _, readTcp_short s (by unfold remaining; omega)⟩
  have hf20 : Filled s.mem s.curOff.toNat 20 := filled_sub hf _ _ (by omega) (by omega)
  by_cases hd : (highNibble (byteAt s.mem (s.curOff.toNat + 12))).toNat < 5
  · exact .inr ⟨_, _, (readTcp_fixed s h20 hf20).trans (if_pos hd)⟩
  by_cases h : s.curOff.toNat + headerBytes (highNibble (byteAt s.mem (s.curOff.toNat + 12))) ≤ s.curLen.toNat
  · exact .inl ⟨_, _, readTcp_value s hf20 (Nat.not_lt.mp hd) h⟩
  · exact .inr ⟨_, _, readTcp_shortOptions s h20 hf20 (Nat.not_le.mp h)⟩

/-- With the bytes below `c.len` filled the control sequence never stops. -/
theorem controlStep_answers : ∃ t, controlStep s = .next t := by
  unfold controlStep
  split
  · exact ⟨_, await_eq s⟩
  · exact (readEthernet_ends hf).orSkipped fun _ _ => ⟨_, rfl⟩
  · unfold step2 runEthRow execEthIpv4 execEthOther
    split_ifs <;> exact ⟨_, rfl⟩
  · exact (readIpv4_ends hf).orSkipped fun _ _ => ⟨_, rfl⟩
  · unfold step4 execIp4V4Tcp execIp4V4Other
    split_ifs <;> exact ⟨_, rfl⟩
  · exact (readTcp_ends hf).orSkipped fun _ _ => ⟨_, rfl⟩
  · exact ⟨_, rfl⟩
  · exact ⟨_, rfl⟩
  · exact ⟨_, await_eq s⟩

end

/-- The steps a decode has before it, from each phase on. -/
def stepsLeft : Phase → Nat
  | .idle => 0
  | .s1 => 7
  | .s2 => 6
  | .s3 => 5
  | .s4 => 4
  | .s5 => 3
  | .s6 => 2
  | .s7 => 1
  | .done => 0

theorem stepsLeft_le (p : Phase) : stepsLeft p ≤ 7 := by cases p <;> decide

/-- An arrow out of a busy phase ends in `DONE`, or in a busy phase with fewer steps left. -/
theorem stepsLeft_phaseArrow {p q : Phase} (hb : p.busy = true) (h : phaseArrow p q = true) :
    stepsLeft q < stepsLeft p ∧ (q = .done ∨ q.busy = true) := by
  cases p with
  | idle => cases hb
  | done => cases hb
  | s6 => simp only [phaseArrow, decide_eq_true_eq] at h; subst h; decide
  | s7 => simp only [phaseArrow, decide_eq_true_eq] at h; subst h; decide
  | _ =>
    simp only [phaseArrow, decide_eq_true_eq] at h
    rcases h with rfl | rfl <;> decide

/-- A decode in progress, or just ended, reaches `DONE` within the steps its phase has left: by induction on their
number, each step answered, kept in the invariant and moved along an arrow. -/
theorem run_reaches_done (s : State) (hs : Inv s) (hf : Filled s.mem 0 s.curLen.toNat)
    (hd : s.phase = .done ∨ busy s = true) :
    ∃ k t, k ≤ stepsLeft s.phase ∧ Host.Core.run Sys2Proof.core k s = .next t ∧ t.phase = .done := by
  induction hn : stepsLeft s.phase using Nat.strong_induction_on generalizing s with
  | _ n ih =>
    rcases hd with hd | hb
    · exact ⟨0, s, Nat.zero_le n, rfl, hd⟩
    obtain ⟨u, hu⟩ := controlStep_answers hf
    rw [← step_nil s hs.nothingIssued] at hu
    have hstep := inv_step_decodeStep hs hb hu
    obtain ⟨hlt, hq⟩ := stepsLeft_phaseArrow hb hstep.phaseArrow
    have hfu : Filled u.mem 0 u.curLen.toNat := by rwa [hstep.sameInputs.mem, hstep.sameInputs.curLen]
    obtain ⟨k, t, hk, hrun, ht⟩ := ih _ (hn ▸ hlt) u (hstep.inv hb hs) hfu hq rfl
    exact ⟨k + 1, t, by omega, (run_succ k s u hu).trans hrun, ht⟩

/-! ### `FRAME.DECODE` in one go -/

theorem payloadLength_toNat (s : State) (ip : Ipv4Header) (tcp : TcpHeader) :
    (payloadLength s ip tcp).toNat =
      s.curLen.toNat - (14 + headerBytes ip.headerLenWords + headerBytes tcp.dataOffsetWords) :=
  (offset_toNat (s := s) (by unfold Config.ethHlen; omega)).trans (by unfold Config.ethHlen; omega)

/-- A frame that `decodeFrame` ends as decoded, from a cursor at the start of the buffer, has complete headers. -/
theorem decodeFrame_decoded {s t : State} (h0 : s.curOff.toNat = 0) (h : decodeFrame s = .next t)
    (ht : t.outcome = true) :
    ∃ u, t = decoded u ∧ FrameComplete u ∧ u.curLen = s.curLen ∧ u.capLatch = s.capLatch := by
  rcases Run.orSkipped_next h with ⟨r, u, -, rfl⟩ | ⟨eth, u1, he, h⟩
  · cases ht
  obtain ⟨hl1, -, -, rfl⟩ := readEthernet_success he
  split_ifs at h with hty
  · cases h; cases ht
  rcases Run.orSkipped_next h with ⟨r, u, -, rfl⟩ | ⟨ip, u2, hi, h⟩
  · cases ht
  obtain ⟨hl2, -, -, hiw, hiv, rfl⟩ := readIpv4_success hi
  split_ifs at h with hpr
  · cases h; cases ht
  rcases Run.orSkipped_next h with ⟨r, u, -, rfl⟩ | ⟨tcp, u3, htc, h⟩
  · cases ht
  obtain ⟨hl3, -, -, htw, rfl⟩ := readTcp_success htc
  have hoff := moveCursor_toNat _ _ hl3
  rw [moveCursor_toNat _ _ hl2, moveCursor_toNat _ _ hl1, h0, Nat.zero_add] at hl3 hoff
  cases h
  exact ⟨_, rfl, ⟨not_not.mp hty, hiv, hiw, not_not.mp hpr, htw, hl3, hoff, payloadLength_toNat _ ip tcp⟩, rfl, rfl⟩

/-! ### What the host reads -/

theorem busy_eq_decide (s : State) : busy s = decide (s.phase ≠ .idle ∧ s.phase ≠ .done) := by
  unfold busy
  cases s.phase <;> rfl

/-- `OUTCOME` is the lowest of the four field bits, `REASON` the three above it (R26). -/
theorem statusFields_outcome (s : State) : (statusFields s).getLsbD 0 = s.outcome :=
  (BitVec.getLsbD_append (x := reasonCode s.reason) (y := BitVec.ofBool s.outcome)).trans (by simp)

theorem statusFields_reason (s : State) (i : Nat) :
    (statusFields s).getLsbD (1 + i) = (reasonCode s.reason).getLsbD i :=
  (BitVec.getLsbD_append (x := reasonCode s.reason) (y := BitVec.ofBool s.outcome)).trans (by simp)

/-- With no record, or with `DONE = 0`, a result register yields no value (R35). -/
theorem hostRead_noValue {r : HostReg} (hr : r ∈ HostReg.all.drop 5) {s : State}
    (h : isDone s = false ∨ s.record = none) : hostRead r s = .refused .readOfNoValue := by
  rw [hostRead_result hr s]
  rcases h with hd | hn
  · rw [hd]; rfl
  · rw [hn]; exact ite_self _

/-- In `DONE` with a record a result register yields the record's value. -/
theorem hostRead_record {r : HostReg} (hr : r ∈ HostReg.all.drop 5) {s : State} {rec : Record}
    (hd : isDone s = true) (hrec : s.record = some rec) :
    hostRead r s = (recordReg r rec).getD (.refused .readOfNoValue) := by
  rw [hostRead_result hr s, hd, hrec, if_pos rfl]
  simp only [Option.bind_some]
  cases recordReg r rec <;> rfl

end Sys2Proof.Machine

/-! ### The obligations of the state -/

namespace Sys2Proof.Proofs

open Sys2Proof.Machine Sys2Proof.Safety

/-- Settles O44: a busy machine takes a step of the decode, each of which establishes what the next phase relies on;
a machine that is not busy stays as it is. -/
theorem stepKeepsTheInvariant : Obligations.StepKeepsTheInvariant := fun _ _ hs h => inv_step hs h

/-- Settles O33, by induction on the number of steps the phase has left, which is at most seven. -/
theorem decodeReachesDoneInSevenSteps : Obligations.DecodeReachesDoneInSevenSteps := by
  intro s hs hb hf
  obtain ⟨k, t, hk, hrun, ht⟩ := run_reaches_done s hs hf (.inr hb)
  exact ⟨k, t, hk.trans (stepsLeft_le s.phase), hrun, ht⟩

/-- Settles O37: a decoded frame has complete headers, of which the record step 7 writes meets R36. -/
theorem decodedRecordInvariants : Obligations.DecodedRecordInvariants := by
  intro s t h ht
  change execFrameDecode s = .next t at h
  unfold execFrameDecode at h
  split_ifs at h
  obtain ⟨u, rfl, hu, hl, hc⟩ := decodeFrame_decoded rfl h ht
  refine ⟨rfl, recordOf u, rfl, ?_⟩
  have hok := hu.recordOk
  rwa [hl, hc] at hok

/-- Settles O47: the step relation of a decode and the host's actions, arrow by arrow. -/
theorem phaseMovesAlongTheArrows : Obligations.PhaseMovesAlongTheArrows := fun s _ =>
  ⟨fun hi h => controlStep_phaseArrow (step_nil s hi ▸ h), fun _ ha h => hostAct_phaseArrow ha h⟩

/-- Settles O56. -/
theorem noValueIsNeverRead : Obligations.NoValueIsNeverRead := by
  intro s
  refine ⟨fun h r hr => hostRead_noValue hr h, fun hd => ?_, fun hd => ⟨?_, ?_⟩⟩
  · have hn : ¬ isDone s = true := by simp [hd]
    exact ⟨if_neg hn, if_neg hn, fun i h2 h5 => statusBit_noValue hd h2 h5⟩
  · exact ⟨_, if_pos hd, by cases s.outcome <;> rfl⟩
  · exact ⟨_, if_pos hd, BitVec.toNat_setWidth_of_le (by decide)⟩

/-- Settles O58, bit by bit. -/
theorem statusFieldPositions : Obligations.StatusFieldPositions := by
  intro s
  have hbit : ∀ i, i < 32 → ((List.range 32).map (statusBit s))[i]? = some (statusBit s i) :=
    fun i hi => by simp [hi]
  refine ⟨_, rfl, by simp, ?_, ?_, fun i h6 hi => ?_, fun hd => ⟨?_, fun i hi => ?_⟩, fun hd i h2 h5 => ?_⟩
  · rw [hbit 0 (by omega), statusBit_busy, busy_eq_decide]
  · exact (hbit 1 (by omega)).trans (congrArg some (statusBit_done s))
  · rw [hbit i hi, statusBit_unused s h6]
  · rw [hbit 2 (by omega), statusBit_fields hd (i := 0) (by omega), statusFields_outcome]
  · rw [hbit (3 + i) (by omega), show 3 + i = 2 + (1 + i) by omega, statusBit_fields hd (by omega),
      statusFields_reason]
  · rw [hbit i (by omega), statusBit_noValue hd h2 h5]

/-- Settles O1: the reset state is a constant but for the buffer, and waits. -/
theorem resetGivesTheResetState : Obligations.ResetGivesTheResetState := fun s =>
  have hstatus : statusWord State.reset = 0 := by decide
  ⟨resetState s, rfl, rfl, rfl, rfl, rfl, rfl, hstatus, rfl, rfl, rfl, rfl, rfl, rfl, rfl, rfl⟩

/-- Settles O45. -/
theorem resetMeetsTheInvariant : Obligations.ResetMeetsTheInvariant where
  nothingIssued := rfl
  bufferWf := Memory.reset_wf
  cursorInside := Nat.le_refl 0
  noCommand := rfl
  lenSampled := fun _ => rfl
  capSampled := fun hb => nomatch hb
  phaseOk := ⟨rfl, rfl, rfl⟩

/-- Settles O57: every register of the list holds the record's value under its name. -/
theorem resultRegistersAreReadable : Obligations.ResultRegistersAreReadable :=
  ⟨fun _ _ hd _ hrec => List.map_congr_left fun _ hr => hostRead_record hr hd hrec, fun _ => ⟨rfl, rfl, rfl, rfl⟩⟩

end Sys2Proof.Proofs

/-! SUPPORT. The frame an instruction reads: what keeps it, and what of it can change an outcome. An instruction writes
neither the buffer nor an input register and issues no `MemRead` beyond `c.len`; a change of `WIRELEN` and of the bytes
outside the ones it takes passes through it. -/

namespace Sys2Proof.Machine

open Sys2Proof.Safety

/-! ### One step -/

/-- Everything a step is: the control sequence's, an issued instruction, or the refusal of bytes that are none. -/
theorem step_cases (s : State) :
    (s.issue = [] ∧ step s = controlStep s) ∨
    (∃ i rest, decode s.issue = some (i, rest) ∧ step s = exec i { s with issue := rest }) ∨
    (s.issue ≠ [] ∧ decode s.issue = none ∧ step s = .refused .reservedEncoding) := by
  by_cases h : s.issue = []
  · exact .inl ⟨h, step_nil s h⟩
  · cases hd : decode s.issue with
    | none => exact .inr (.inr ⟨h, rfl, step_reserved s h hd⟩)
    | some p => exact .inr (.inl ⟨p.1, p.2, rfl, step_issued s p.1 p.2 hd⟩)

/-! ### What is never written -/

/-- The frame and the input registers other than `CTRL` are the same (R34, R43). -/
structure SameFrame (s t : State) : Prop where
  mem        : t.mem = s.mem
  caplen     : t.caplen = s.caplen
  wirelen    : t.wirelen = s.wirelen
  previewCap : t.previewCap = s.previewCap

theorem SameFrame.refl (s : State) : SameFrame s s := ⟨rfl, rfl, rfl, rfl⟩

theorem SameFrame.trans {s t u : State} (h : SameFrame s t) (h' : SameFrame t u) : SameFrame s u :=
  ⟨h'.mem.trans h.mem, h'.caplen.trans h.caplen, h'.wirelen.trans h.wirelen, h'.previewCap.trans h.previewCap⟩

/-- An answer that leaves the frame alone and is no fault, so that no `MemRead` was issued outside `[0, c.len)`. -/
def KeepsFrame (s : State) (o : Host.Outcome State Fault Refusal) : Prop :=
  match o with
  | .next t => SameFrame s t
  | .fault _ => False
  | .refused _ => True

theorem KeepsFrame.of_sameFrame {s t : State} {o : Host.Outcome State Fault Refusal} (h : KeepsFrame t o)
    (hs : SameFrame s t) : KeepsFrame s o := by
  cases o with
  | next u => exact hs.trans h
  | fault f => exact h
  | refused r => trivial

theorem KeepsFrame.ite {c : Prop} [Decidable c] {s : State} {o o' : Host.Outcome State Fault Refusal}
    (h : KeepsFrame s o) (h' : KeepsFrame s o') : KeepsFrame s (if c then o else o') := by
  split
  · exact h
  · exact h'

/-- The instruction of an operation that only moves the cursor writes `ret` besides. -/
theorem OnlyMoves.finish {ε α : Type} {s : State} {x : Run ε α} (hx : OnlyMoves s x) (g : α → Ret)
    (e : ε → Ret) : KeepsFrame s (x.finish g e) := by
  cases x with
  | value v t => obtain ⟨n, rfl, -⟩ := hx; exact ⟨rfl, rfl, rfl, rfl⟩
  | fail r t => obtain ⟨n, rfl, -⟩ := hx; exact ⟨rfl, rfl, rfl, rfl⟩
  | fault f => exact hx
  | refused r => trivial

/-- A reader inside a decode: its failure skips the frame, so that only what follows its success is left to look at. -/
theorem OnlyMoves.orSkipped {α : Type} {s : State} {x : Run SkipReason α}
    {k : α → State → Host.Outcome State Fault Refusal} (hx : OnlyMoves s x) (hk : ∀ v t, KeepsFrame t (k v t)) :
    KeepsFrame s (x.orSkipped k) := by
  cases x with
  | value v t => obtain ⟨n, rfl, -⟩ := hx; exact (hk v _).of_sameFrame ⟨rfl, rfl, rfl, rfl⟩
  | fail r t => obtain ⟨n, rfl, -⟩ := hx; exact ⟨rfl, rfl, rfl, rfl⟩
  | fault f => exact hx
  | refused r => trivial

theorem decodeFrame_keepsFrame (s : State) : KeepsFrame s (decodeFrame s) :=
  (readEthernet_onlyMoves s).orSkipped fun _ t => .ite ⟨rfl, rfl, rfl, rfl⟩ <|
  (readIpv4_onlyMoves t).orSkipped fun _ t => .ite ⟨rfl, rfl, rfl, rfl⟩ <|
  (readTcp_onlyMoves t).orSkipped fun _ _ => ⟨rfl, rfl, rfl, rfl⟩

theorem exec_keepsFrame (i : Instr) (s : State) : KeepsFrame s (exec i s) := by
  cases i with
  | curReadU8 => exact (readU8_onlyMoves s).finish _ _
  | curReadU16Be => exact (readU16Be_onlyMoves s).finish _ _
  | curReadU32Be => exact (readU32Be_onlyMoves s).finish _ _
  | curReadBytes n => exact (readBytes_onlyMoves n.toNat s).finish _ _
  | curRemaining => exact ⟨rfl, rfl, rfl, rfl⟩
  | curAdvance n => exact (advance_onlyMoves n.toNat s).finish _ _
  | ethRead => exact (readEthernet_onlyMoves s).finish _ _
  | ip4Read => exact (readIpv4_onlyMoves s).finish _ _
  | tcpRead => exact (readTcp_onlyMoves s).finish _ _
  | frameDecode => exact .ite trivial ((decodeFrame_keepsFrame (accept s)).of_sameFrame ⟨rfl, rfl, rfl, rfl⟩)
  | tcpOk => exact .ite ⟨rfl, rfl, rfl, rfl⟩ (.ite ⟨rfl, rfl, rfl, rfl⟩ ⟨rfl, rfl, rfl, rfl⟩)
  | _ => exact .ite ⟨rfl, rfl, rfl, rfl⟩ ⟨rfl, rfl, rfl, rfl⟩

theorem await_keepsFrame (s : State) : KeepsFrame s (await s) := .ite ⟨rfl, rfl, rfl, rfl⟩ (.refl s)

theorem controlStep_keepsFrame (s : State) : KeepsFrame s (controlStep s) := by
  unfold controlStep
  cases s.phase with
  | idle => exact await_keepsFrame s
  | s1 => exact (readEthernet_onlyMoves s).orSkipped fun _ _ => ⟨rfl, rfl, rfl, rfl⟩
  | s2 => exact .ite (exec_keepsFrame (.ethIpv4 s.held.eth) s) (exec_keepsFrame (.ethOther s.held.eth) s)
  | s3 => exact (readIpv4_onlyMoves s).orSkipped fun _ _ => ⟨rfl, rfl, rfl, rfl⟩
  | s4 => exact .ite (exec_keepsFrame (.ip4V4Tcp s.held.ip) s) (exec_keepsFrame (.ip4V4Other s.held.ip) s)
  | s5 => exact (readTcp_onlyMoves s).orSkipped fun _ _ => ⟨rfl, rfl, rfl, rfl⟩
  | s6 => exact ⟨rfl, rfl, rfl, rfl⟩
  | s7 => exact ⟨rfl, rfl, rfl, rfl⟩
  | done => exact await_keepsFrame s

theorem step_keepsFrame (s : State) : KeepsFrame s (step s) := by
  rcases step_cases s with ⟨-, h⟩ | ⟨i, rest, -, h⟩ | ⟨-, -, h⟩ <;> rw [h]
  · exact controlStep_keepsFrame s
  · exact (exec_keepsFrame i { s with issue := rest }).of_sameFrame ⟨rfl, rfl, rfl, rfl⟩
  · trivial

/-! ### What cannot be seen -/

/-- The frame as another host would supply it: the buffer and `WIRELEN` changed, everything else left. -/
def reframe (buf : List Host.Cell → List Host.Cell) (wire : U32 → U32) (s : State) : State :=
  { s with mem := buf s.mem, wirelen := wire s.wirelen }

/-- `decodeFrame` cannot see a change `f` that leaves alone the bytes of the three fixed portions; the two ends of a
decode turn the change into `g`. -/
theorem decodeFrame_mapState {f g : State → State} (hf : Blind f) (hskip : ∀ r t, skipped r (f t) = g (skipped r t))
    (hdec : ∀ h t, decoded { f t with held := h } = g (decoded { t with held := h })) {s : State}
    (heth : AgreeFor f 14 s) (hip : AgreeFor f 20 (moveCursor 14 s))
    (htcp : ∀ ip t, readIpv4 (moveCursor 14 s) = .value ip t → AgreeFor f 20 t) :
    decodeFrame (f s) = mapNext g (decodeFrame s) := by
  refine Run.orSkipped_mapState hskip (readEthernet_blind hf s heth) fun eth t ht => ?_
  obtain ⟨rfl, -⟩ := readEthernet_moves s eth t ht
  split_ifs
  · exact congrArg Host.Outcome.next (hskip _ _)
  refine Run.orSkipped_mapState hskip (readIpv4_blind hf _ hip) fun ip t ht => ?_
  split_ifs
  · exact congrArg Host.Outcome.next (hskip _ _)
  refine Run.orSkipped_mapState hskip (readTcp_blind hf t (htcp ip t ht)) fun tcp t _ => ?_
  have hlen : payloadLength (f t) ip tcp = payloadLength t ip tcp := by simp only [payloadLength, hf.curLen]
  rw [hlen]
  exact congrArg Host.Outcome.next (hdec _ _)

/-- Two answers alike branch by branch, the test the same. -/
theorem mapNext_ite {c : Prop} [Decidable c] {f : State → State} {o o' p p' : Host.Outcome State Fault Refusal}
    (h : p = mapNext f o) (h' : p' = mapNext f o') : (if c then p else p') = mapNext f (if c then o else o') := by
  split
  · exact h
  · exact h'

/-- The TCP header stands where an IPv4 reader at offset 14 leaves the cursor. -/
theorem tcpOffset_eq (m : List Host.Cell) : tcpOffset m = 14 + headerBytes (ip4At m 14).headerLenWords := by
  simp only [tcpOffset, ihl, headerBytes, ip4At, Nat.mul_comm]

section
variable (buf : List Host.Cell → List Host.Cell) (wire : U32 → U32)

theorem reframe_blind : Blind (reframe buf wire) := ⟨fun _ => rfl, fun _ => rfl, fun _ _ => rfl⟩

/-- A buffer that shows the same bytes below `c.len` shows the same to every read. -/
theorem agreeFor_reframe {s : State} (h : SameBelow s.mem (buf s.mem) s.curLen.toNat) (k : Nat) :
    AgreeFor (reframe buf wire) k s := fun a _ _ ha => (h a ha).symm

theorem execFrameDecode_reframe {s : State} (heth : AgreeFor (reframe buf wire) 14 (accept s))
    (hip : AgreeFor (reframe buf wire) 20 (moveCursor 14 (accept s)))
    (htcp : ∀ ip t, readIpv4 (moveCursor 14 (accept s)) = .value ip t → AgreeFor (reframe buf wire) 20 t) :
    execFrameDecode (reframe buf wire s) = mapNext (reframe buf wire) (execFrameDecode s) :=
  mapNext_ite rfl <| decodeFrame_mapState (reframe_blind buf wire) (fun _ _ => rfl) (fun _ _ => rfl) heth hip htcp

section
variable {s : State} (hc : SameBelow s.mem (buf s.mem) s.curLen.toNat)
include hc

/-- Every step of the control sequence looks at the bytes below `c.len` alone, those of the wire rows at none. -/
theorem controlStep_reframe : controlStep (reframe buf wire s) = mapNext (reframe buf wire) (controlStep s) := by
  have hb := reframe_blind buf wire
  have hs := agreeFor_reframe buf wire hc
  unfold controlStep
  rw [show (reframe buf wire s).phase = s.phase from rfl]
  cases s.phase with
  | idle => exact mapNext_ite rfl rfl
  | s1 => exact Run.orSkipped_mapState (fun _ _ => rfl) (readEthernet_blind hb s (hs 14)) fun _ _ _ => rfl
  | s2 => exact mapNext_ite (mapNext_ite rfl rfl) (mapNext_ite rfl rfl)
  | s3 => exact Run.orSkipped_mapState (fun _ _ => rfl) (readIpv4_blind hb s (hs 20)) fun _ _ _ => rfl
  | s4 => exact mapNext_ite (mapNext_ite rfl rfl) (mapNext_ite rfl rfl)
  | s5 => exact Run.orSkipped_mapState (fun _ _ => rfl) (readTcp_blind hb s (hs 20)) fun _ _ _ => rfl
  | s6 => rfl
  | s7 => rfl
  | done => exact mapNext_ite rfl rfl

variable (hl : SameBelow s.mem (buf s.mem) s.caplen.toNat)
include hl

/-- An instruction looks at the bytes below `c.len` alone; `FRAME.DECODE` at those below the `CAPLEN` it samples. -/
theorem exec_reframe (i : Instr) : exec i (reframe buf wire s) = mapNext (reframe buf wire) (exec i s) := by
  have hb := reframe_blind buf wire
  have hs := agreeFor_reframe buf wire hc
  cases i with
  | curReadU8 => exact Run.finish_mapState (fun _ _ => rfl) (readU8_blind hb s (hs 1)) _ _
  | curReadU16Be => exact Run.finish_mapState (fun _ _ => rfl) (readU16Be_blind hb s (hs 2)) _ _
  | curReadU32Be => exact Run.finish_mapState (fun _ _ => rfl) (readU32Be_blind hb s (hs 4)) _ _
  | curReadBytes n => exact Run.finish_mapState (fun _ _ => rfl) (readBytes_blind hb n.toNat s (hs n.toNat)) _ _
  | curRemaining => rfl
  | curAdvance n => exact Run.finish_mapState (fun _ _ => rfl) (skipBytes_blind hb n.toNat s) _ _
  | ethRead => exact Run.finish_mapState (fun _ _ => rfl) (readEthernet_blind hb s (hs 14)) _ _
  | ip4Read => exact Run.finish_mapState (fun _ _ => rfl) (readIpv4_blind hb s (hs 20)) _ _
  | tcpRead => exact Run.finish_mapState (fun _ _ => rfl) (readTcp_blind hb s (hs 20)) _ _
  | frameDecode =>
    refine execFrameDecode_reframe buf wire (agreeFor_reframe buf wire hl 14) (agreeFor_reframe buf wire hl 20)
      fun ip t ht => ?_
    obtain ⟨-, -, -, -, -, rfl⟩ := readIpv4_success ht
    exact agreeFor_reframe buf wire hl 20
  | tcpOk => exact mapNext_ite rfl (mapNext_ite rfl rfl)
  | _ => exact mapNext_ite rfl rfl

theorem step_reframe : step (reframe buf wire s) = mapNext (reframe buf wire) (step s) := by
  rcases step_cases s with ⟨hi, h⟩ | ⟨i, rest, hi, h⟩ | ⟨hn, hi, h⟩ <;> rw [h]
  · exact (step_nil (reframe buf wire s) hi).trans (controlStep_reframe buf wire hc)
  · exact (step_issued (reframe buf wire s) i rest hi).trans
      (exec_reframe buf wire (s := { s with issue := rest }) hc hl i)
  · exact step_reserved (reframe buf wire s) hn hi

end

/-- The fixed portions of the three headers, below `caplen`, are all that `FRAME.DECODE` looks at. -/
theorem execFrameDecode_headers {s : State}
    (h : ∀ a, a < s.caplen.toNat → a < 34 ∨ (tcpOffset s.mem ≤ a ∧ a < tcpOffset s.mem + 20) →
      Memory.read s.mem a = Memory.read (buf s.mem) a) :
    execFrameDecode (reframe buf wire s) = mapNext (reframe buf wire) (execFrameDecode s) := by
  have h0 : (accept s).curOff.toNat = 0 := rfl
  have h14 : (moveCursor 14 (accept s)).curOff.toNat = 14 := rfl
  refine execFrameDecode_reframe buf wire (fun a _ h2 h3 => ?_) (fun a _ h2 h3 => ?_) fun ip t ht a h1 h2 h3 => ?_
  · exact (h a h3 (.inl (by omega))).symm
  · exact (h a h3 (.inl (by omega))).symm
  · obtain ⟨hl, -, rfl, -, -, rfl⟩ := readIpv4_success ht
    have ht : (moveCursor _ (moveCursor 14 (accept s))).curOff.toNat = tcpOffset s.mem :=
      (moveCursor_toNat _ _ hl).trans (tcpOffset_eq s.mem).symm
    rw [ht] at h1 h2
    exact (h a h3 (.inr ⟨h1, h2⟩)).symm

end

end Sys2Proof.Machine

/-! ### The obligations of the memory -/

namespace Sys2Proof.Proofs

open Sys2Proof.Machine Sys2Proof.Safety

/-- Settles O42: each read is blind to the bytes beyond `c.len`, which is `CAPLEN` for a decode that starts now. -/
theorem bytesBeyondCaplenNeverMatter : Obligations.BytesBeyondCaplenNeverMatter := by
  intro s m' h
  have hc : SameBelow s.mem m' s.curLen.toNat := fun a ha => h a (lt_max_of_lt_right ha)
  have hl : SameBelow s.mem m' s.caplen.toNat := fun a ha => h a (lt_max_of_lt_left ha)
  exact ⟨exec_reframe (fun _ => m') id hc hl, step_reframe (fun _ => m') id hc hl⟩

/-- Settles O40: the cursor, a reader, a wire row and the ends of a decode all keep the frame. -/
theorem nothingWritesInputsOrBuffer : Obligations.NothingWritesInputsOrBuffer := by
  intro s t h
  have hk : KeepsFrame s (.next t) := by
    rcases h with ⟨i, h⟩ | h
    · exact h ▸ exec_keepsFrame i s
    · exact h ▸ step_keepsFrame s
  obtain ⟨hm, hcap, hw, hp⟩ := hk
  exact ⟨hm, fun a => by rw [hm], hcap, hw, hp⟩

/-- Settles O41: the bounds law stands before every `MemRead`. -/
theorem noMemReadLeavesTheBuffer : Obligations.NoMemReadLeavesTheBuffer := fun s f =>
  have hf : ¬ KeepsFrame s (.fault f) := id
  ⟨fun i h => hf (h ▸ exec_keepsFrame i s), fun h => hf (h ▸ step_keepsFrame s)⟩

/-- Settles O43: the three readers take the fixed portions alone, the third where the second leaves the cursor. -/
theorem frameDecodeReadsOnlyHeaders : Obligations.FrameDecodeReadsOnlyHeaders := fun _ m' h =>
  execFrameDecode_headers (fun _ => m') id h

end Sys2Proof.Proofs

/-! SUPPORT. The encoding, both ways, and the wire rows as masks over a header's bytes. -/

namespace Sys2Proof

open Sys2Proof.Machine

/-! ### Decoding there and back -/

/-- The family RoundTrip, put together over the rows of the table. -/
theorem decode_encode : ∀ i, Laws.RoundTrip.Statement i
  | .curReadU8 => Laws.RoundTrip.curReadU8
  | .curReadU16Be => Laws.RoundTrip.curReadU16Be
  | .curReadU32Be => Laws.RoundTrip.curReadU32Be
  | .curReadBytes n => Laws.RoundTrip.curReadBytes n
  | .curRemaining => Laws.RoundTrip.curRemaining
  | .curAdvance n => Laws.RoundTrip.curAdvance n
  | .ethRead => Laws.RoundTrip.ethRead
  | .ip4Read => Laws.RoundTrip.ip4Read
  | .tcpRead => Laws.RoundTrip.tcpRead
  | .frameDecode => Laws.RoundTrip.frameDecode
  | .ethIpv4 h => Laws.RoundTrip.ethIpv4 h
  | .ethOther h => Laws.RoundTrip.ethOther h
  | .ip4Ihl03 h => Laws.RoundTrip.ip4Ihl03 h
  | .ip4Ihl4 h => Laws.RoundTrip.ip4Ihl4 h
  | .ip4V4Tcp h => Laws.RoundTrip.ip4V4Tcp h
  | .ip4V4Other h => Laws.RoundTrip.ip4V4Other h
  | .ip4NotV4 h => Laws.RoundTrip.ip4NotV4 h
  | .tcpDoff03 h r => Laws.RoundTrip.tcpDoff03 h r
  | .tcpDoff4 h r => Laws.RoundTrip.tcpDoff4 h r
  | .tcpOk h r => Laws.RoundTrip.tcpOk h r

/-- The bytes `bs` are those of the well-formed instruction of `p`, and then the rest of `p`. -/
def Reads (bs : List Byte) (p : Instr × List Byte) : Prop := p.1.wf = true ∧ encode p.1 ++ p.2 = bs

/-- An operation without an operand is its format byte alone. -/
theorem Reads.of_operation {n : Nat} {tag : Byte} {rest : List Byte} {i : Instr} {p : Instr × List Byte}
    (hn : tag.toNat = n) (h : some (i, rest) = some p) (hwf : i.wf = true) (henc : encode i = [BitVec.ofNat 8 n]) :
    Reads (tag :: rest) p := by
  cases h
  exact ⟨hwf, by rw [henc, ← hn, BitVec.ofNat_toNat, BitVec.setWidth_eq]; rfl⟩

/-- A format with an operand or a header: what it reads it would write, behind the same format byte. -/
theorem Reads.of_format {α : Type} {n : Nat} {tag : Byte} {rest : List Byte} {o : Option (α × List Byte)}
    {mk : α → Instr} {toBytes : α → List Byte} {p : Instr × List Byte} (hn : tag.toNat = n)
    (h : (o.map fun q => (mk q.1, q.2)) = some p) (hwf : ∀ a, (mk a).wf = true)
    (henc : ∀ a, encode (mk a) = BitVec.ofNat 8 n :: toBytes a)
    (hbytes : ∀ a r, o = some (a, r) → toBytes a ++ r = rest) : Reads (tag :: rest) p := by
  obtain ⟨⟨a, r⟩, ho, rfl⟩ := Option.map_eq_some_iff.mp h
  exact ⟨hwf a, by rw [henc, List.cons_append, hbytes a r ho, ← hn, BitVec.ofNat_toNat, BitVec.setWidth_eq]⟩

/-- What decodes is well-formed and was read from its own encoding, by the cases of the format byte. -/
theorem reads_of_decode {bs : List Byte} {p : Instr × List Byte} (h : decode bs = some p) : Reads bs p := by
  unfold decode at h
  split at h
  · cases h
  · split at h <;> rename_i hn
    · exact .of_operation hn h rfl rfl
    · exact .of_operation hn h rfl rfl
    · exact .of_operation hn h rfl rfl
    · exact .of_format hn h (fun _ => rfl) (fun _ => rfl) fun n r => bytes32_of_u32OfBytes _ r n
    · exact .of_operation hn h rfl rfl
    · exact .of_format hn h (fun _ => rfl) (fun _ => rfl) fun n r => bytes32_of_u32OfBytes _ r n
    · exact .of_operation hn h rfl rfl
    · exact .of_operation hn h rfl rfl
    · exact .of_operation hn h rfl rfl
    · exact .of_operation hn h rfl rfl
    · exact .of_format hn h ethRow_wf encode_ethRow fun eth r => ethBytes_of_ethOfBytes _ r eth
    · exact .of_format hn h ip4Row_wf encode_ip4Row fun ip r => ip4Bytes_of_ip4OfBytes _ r ip
    · exact .of_format hn h (fun _ => tcpRow_wf _ _) (fun _ => encode_tcpRow _ _)
        fun tcp r => tcpBytes_of_tcpOfBytes _ r tcp.1 tcp.2
    · cases h

/-! ### The wire rows as masks -/

theorem byte_and_ff (b : Byte) : b &&& 0xFF#8 = b := BitVec.and_allOnes

theorem packNibbles_and_0c (v w : U4) : packNibbles v w &&& 0x0C#8 = 0#8 ↔ w &&& 0xC#4 = 0#4 := by
  revert v w
  decide

theorem packNibbles_and_0f (v w : U4) : packNibbles v w &&& 0x0F#8 = 4#8 ↔ w = 4#4 := by
  revert v w
  decide

theorem packNibbles_and_c0 (v w : U4) : packNibbles v w &&& 0xC0#8 = 0#8 ↔ v &&& 0xC#4 = 0#4 := by
  revert v w
  decide

theorem packNibbles_and_f0 (v w : U4) : packNibbles v w &&& 0xF0#8 = 64#8 ↔ v = 4#4 := by
  revert v w
  decide

theorem bytes16_eq_ethertypeIpv4 (t : U16) :
    (t >>> 8).setWidth 8 = 8#8 ∧ t.setWidth 8 = 0#8 ↔ t = Config.ethertypeIpv4 := by
  constructor
  · rintro ⟨hhi, hlo⟩
    rw [← be16_bytes16 t, hhi, hlo]
    rfl
  · rintro rfl
    decide

/-- Which rows of format ETH a header matches, in the table's order. -/
theorem ethTable_matches (h : EthernetHeader) :
    ethTable.map (rowMatches (ethBytes h)) = [decide (h.etherType = Config.ethertypeIpv4), true] := by
  simp [rowMatches, ethTable, ethBytes, macBytes, bytes16, byte_and_ff, ← bytes16_eq_ethertypeIpv4]

/-- Which rows of format IP4 a header matches, in the table's order. -/
theorem ip4Table_matches (h : Ipv4Header) :
    ip4Table.map (rowMatches (ip4Bytes h)) =
      [decide (h.headerLenWords &&& 0xC#4 = 0#4), decide (h.headerLenWords = 4#4),
       decide (h.version = Config.ipVersion ∧ h.protocol = Config.ipprotoTcp),
       decide (h.version = Config.ipVersion), true] := by
  simp [rowMatches, ip4Table, ip4Bytes, addrBytes, bytes16, byte_and_ff, packNibbles_and_0c, packNibbles_and_0f,
    packNibbles_and_f0]

/-- Which rows of format TCP a header matches, in the table's order. -/
theorem tcpTable_matches (h : TcpHeader) (r : U4) :
    tcpTable.map (rowMatches (tcpBytes h r)) =
      [decide (h.dataOffsetWords &&& 0xC#4 = 0#4), decide (h.dataOffsetWords = 4#4), true] := by
  simp [rowMatches, tcpTable, tcpBytes, bytes16, bytes32, packNibbles_and_c0, packNibbles_and_f0]

/-- The name of the first row that passes a test, from the list of the test's answers. -/
theorem find?_mnemonic (p : WireRow → Bool) (rows : List WireRow) :
    (rows.find? p).map WireRow.mnemonic = ((rows.map p).zip (rows.map WireRow.mnemonic)).lookup true := by
  induction rows with
  | nil => rfl
  | cons row rows ih =>
    simp only [List.find?_cons, List.map_cons, List.zip_cons_cons, List.lookup_cons, ← ih]
    cases p row <;> rfl

/-- The decoder's tests are the table's masks in the table's order, so that the first to hold names the same row. -/
theorem ethTable_firstMatch (h : EthernetHeader) :
    (ethTable.find? (rowMatches (ethBytes h))).map WireRow.mnemonic = some (ethRow h).mnemonic := by
  rw [find?_mnemonic, ethTable_matches]
  unfold ethRow
  split_ifs with hty
  · rw [decide_eq_true hty]; rfl
  · rw [decide_eq_false hty]; rfl

theorem ip4Table_firstMatch (h : Ipv4Header) :
    (ip4Table.find? (rowMatches (ip4Bytes h))).map WireRow.mnemonic = some (ip4Row h).mnemonic := by
  rw [find?_mnemonic, ip4Table_matches]
  unfold ip4Row
  split_ifs with hmask h4 htcp hver
  · rw [decide_eq_true hmask]; rfl
  · rw [decide_eq_false hmask, decide_eq_true h4]; rfl
  · rw [decide_eq_false hmask, decide_eq_false h4, decide_eq_true htcp]; rfl
  · rw [decide_eq_false hmask, decide_eq_false h4, decide_eq_false htcp, decide_eq_true hver]; rfl
  · rw [decide_eq_false hmask, decide_eq_false h4, decide_eq_false htcp, decide_eq_false hver]; rfl

theorem tcpTable_firstMatch (h : TcpHeader) (r : U4) :
    (tcpTable.find? (rowMatches (tcpBytes h r))).map WireRow.mnemonic = some (tcpRow h r).mnemonic := by
  rw [find?_mnemonic, tcpTable_matches]
  unfold tcpRow
  split_ifs with hmask h4
  · rw [decide_eq_true hmask]; rfl
  · rw [decide_eq_false hmask, decide_eq_true h4]; rfl
  · rw [decide_eq_false hmask, decide_eq_false h4]; rfl

end Sys2Proof

/-! ### The obligations of the encoding -/

namespace Sys2Proof.Proofs

open Sys2Proof.Machine Sys2Proof.Safety

/-- Settles O5, row by row. -/
theorem decodeInvertsEncode : Obligations.DecodeInvertsEncode := fun i rest hwf => decode_encode i hwf rest

/-- Settles O6, format byte by format byte. -/
theorem encodeInvertsDecode : Obligations.EncodeInvertsDecode := fun _ _ _ h => reads_of_decode h

/-- Settles O2: an issued instruction decodes, so that it is well-formed. -/
theorem stepRunsTheIssuedInstruction : Obligations.StepRunsTheIssuedInstruction := fun s =>
  ⟨fun i rest h => ⟨(reads_of_decode h).1, step_issued s i rest h⟩, step_reserved s⟩

/-- Settles O7, format by format. -/
theorem wireRowIsTheFirstMatch : Obligations.WireRowIsTheFirstMatch :=
  ⟨ethTable_firstMatch, ip4Table_firstMatch, tcpTable_firstMatch⟩

/-- Settles O4: each is one closed run of the decoder. -/
theorem sampleWordsDecode : Obligations.SampleWordsDecode := by
  unfold Obligations.SampleWordsDecode
  decide

end Sys2Proof.Proofs

/-! SUPPORT. The wire rows at work: what the row of a header does, format by format, and the readers on filled bytes as
the same chain of tests. The control sequence and the decode that looks at wire rows alone follow from it. -/

namespace Sys2Proof.Machine

open Sys2Proof.Safety

/-! ### The effect of the row of a header -/

/-- Where `ETH.IPV4` goes on: step 3 at the end of the Ethernet header, the header held (R106). -/
def ontoStep3 (h : EthernetHeader) (s : State) : State :=
  { s with phase := .s3, curOff := 14, held := { s.held with eth := h } }

/-- Where `IP4.V4_TCP` goes on: step 5 past the options, the header held (R108). -/
def ontoStep5 (h : Ipv4Header) (s : State) : State :=
  { s with phase := .s5, curOff := BitVec.ofNat 32 (ip4End h), held := { s.held with ip := h } }

/-- What `TCP.OK` has when it writes the record: the cursor past the options, the header and the payload's length held
(R99, R110). -/
def ontoStep7 (h : TcpHeader) (s : State) : State :=
  { s with
    curOff := BitVec.ofNat 32 (tcpEnd h s)
    held := { s.held with tcp := h, payloadLen := BitVec.ofNat 32 (s.curLen.toNat - tcpEnd h s) } }

theorem exec_ethRow (h : EthernetHeader) {s : State} {n : Nat} (hn : s.curLen.toNat = n) :
    exec (ethRow h) s = .next
      (if n < 14 then skipped .tooShortForEthernet s
       else if h.etherType ≠ 0x0800#16 then skipped .notIpv4 s
       else ontoStep3 h s) := by
  subst hn
  by_cases hty : h.etherType = 0x0800#16
  · rw [ethRow, if_pos hty, if_neg (not_not.mpr hty)]
    exact (apply_ite Host.Outcome.next _ _ _).symm
  · rw [ethRow, if_neg hty, if_pos hty]
    exact (apply_ite Host.Outcome.next _ _ _).symm

/-- Of the length words below 5 only 4 passes the mask 0c. -/
theorem nibble_eq_four {w : U4} (h : w.toNat < 5) (hm : w &&& 0xC#4 ≠ 0#4) : w = 4#4 :=
  BitVec.eq_of_toNat_eq (by have := mt (nibble_mask w).mpr hm; simp only [BitVec.toNat_ofNat]; omega)

theorem exec_ip4Row_short {h : Ipv4Header} (hl : h.headerLenWords.toNat < 5) (s : State) :
    exec (ip4Row h) s = byteZeroRow .invalidIpHeaderLength s := by
  unfold ip4Row
  split_ifs with hm h4
  · rfl
  · rfl
  all_goals exact absurd (nibble_eq_four hl hm) h4

theorem ip4Row_notV4 {h : Ipv4Header} (hl : 5 ≤ h.headerLenWords.toNat) (hv : h.version ≠ 4#4) :
    ip4Row h = .ip4NotV4 h := by
  obtain ⟨hm, h4⟩ := nibble_long _ hl
  rw [ip4Row, if_neg hm, if_neg h4, if_neg (fun hv' => hv hv'.1), if_neg hv]

theorem ip4Row_v4 {h : Ipv4Header} (hl : 5 ≤ h.headerLenWords.toNat) (hv : h.version = 4#4) :
    ip4Row h = if h.protocol = 6#8 then .ip4V4Tcp h else .ip4V4Other h := by
  obtain ⟨hm, h4⟩ := nibble_long _ hl
  simp only [ip4Row, if_neg hm, if_neg h4, hv, true_and, if_true]

/-- By the order of the rows: byte 0 is looked at first, the header's end only for version 4 with a legal length. -/
theorem exec_ip4Row (h : Ipv4Header) {s : State} {n : Nat} (hn : s.curLen.toNat = n) :
    exec (ip4Row h) s = .next
      (if n < 14 + 1 then skipped .tooShortForIp s
       else if h.headerLenWords.toNat < 5 then skipped .invalidIpHeaderLength s
       else if h.version ≠ 4#4 then skipped .notIpv4 s
       else if n < 14 + headerBytes h.headerLenWords then skipped .tooShortForIp s
       else if h.protocol ≠ 6#8 then skipped .notTcp s
       else ontoStep5 h s) := by
  subst hn
  by_cases hl : h.headerLenWords.toNat < 5
  · rw [exec_ip4Row_short hl, if_pos hl]
    exact (apply_ite Host.Outcome.next _ _ _).symm
  rw [if_neg hl]
  have hl := Nat.not_lt.mp hl
  by_cases hv : h.version = 4#4
  swap
  · rw [ip4Row_notV4 hl hv, if_pos hv]
    exact (apply_ite Host.Outcome.next _ _ _).symm
  rw [ip4Row_v4 hl hv, if_neg (not_not.mpr hv)]
  by_cases hs : s.curLen.toNat < 14 + headerBytes h.headerLenWords
  · rw [if_pos hs, ite_self]
    split_ifs <;> exact if_pos hs
  · rw [if_neg hs, if_neg (show ¬ s.curLen.toNat < 14 + 1 by unfold headerBytes at hs; omega)]
    by_cases hp : h.protocol = 6#8
    · rw [if_pos hp, if_neg (not_not.mpr hp)]
      exact if_neg hs
    · rw [if_neg hp, if_pos hp]
      exact if_neg hs

theorem exec_tcpRow_short {h : TcpHeader} (hd : h.dataOffsetWords.toNat < 5) (r : U4) (s : State) :
    exec (tcpRow h r) s = dataOffsetRow s := by
  unfold tcpRow
  split_ifs with hm h4
  · rfl
  · rfl
  · exact absurd (nibble_eq_four hd hm) h4

theorem tcpRow_ok {h : TcpHeader} (hd : 5 ≤ h.dataOffsetWords.toNat) (r : U4) : tcpRow h r = .tcpOk h r := by
  obtain ⟨hm, h4⟩ := nibble_long _ hd
  rw [tcpRow, if_neg hm, if_neg h4]

theorem exec_tcpRow (h : TcpHeader) (r : U4) {s : State} {n a : Nat} (hn : s.curLen.toNat = n)
    (ha : tcpStart s = a) :
    exec (tcpRow h r) s = .next
      (if n < a + 20 then skipped .tooShortForTcp s
       else if h.dataOffsetWords.toNat < 5 then skipped .invalidTcpHeaderLength s
       else if n < a + headerBytes h.dataOffsetWords then skipped .tooShortForTcp s
       else decoded (ontoStep7 h s)) := by
  subst hn ha
  by_cases hd : h.dataOffsetWords.toNat < 5
  · rw [exec_tcpRow_short hd, if_pos hd]
    exact (apply_ite Host.Outcome.next _ _ _).symm
  · rw [tcpRow_ok (Nat.not_lt.mp hd), if_neg hd]
    exact ((apply_ite Host.Outcome.next _ _ _).trans (congrArg _ (apply_ite Host.Outcome.next _ _ _))).symm

/-! ### The readers on filled bytes -/

/-- The cursor stands at `a` in a frame of `n` bytes of `m`, all of them filled. -/
structure InFrame (s : State) (m : List Host.Cell) (n a : Nat) : Prop where
  mem    : s.mem = m
  len    : s.curLen.toNat = n
  off    : s.curOff.toNat = a
  filled : Filled m 0 n

theorem inFrame_accept {s : State} (hf : Filled s.mem 0 s.caplen.toNat) {a : Nat} (ha : a ≤ s.caplen.toNat) :
    InFrame (moveCursor a (accept s)) s.mem s.caplen.toNat a :=
  ⟨rfl, rfl, (moveCursor_toNat a (accept s) (by simpa using ha)).trans (Nat.zero_add a), hf⟩

/-- `ETH.READ` as its one test (R83). -/
theorem readEthernet_inFrame {s : State} {m : List Host.Cell} {n a : Nat} (h : InFrame s m n a) :
    readEthernet s = if n < a + 14 then .fail .tooShortForEthernet s else .value (ethAt m a) (moveCursor 14 s) := by
  obtain ⟨rfl, rfl, rfl, hf⟩ := h
  split_ifs with hl
  · exact readEthernet_short s (by unfold remaining; omega)
  · exact readEthernet_value s (by omega) (filled_sub hf _ _ (by omega) (by omega))

/-- `IP4.READ` as the chain of its tests (R86), the cursor of a failure left open. -/
theorem readIpv4_inFrame {s : State} {m : List Host.Cell} {n a : Nat} (h : InFrame s m n a) :
    ∃ k, readIpv4 s =
      if n < a + 1 then .fail .tooShortForIp (moveCursor k s)
      else if (ip4At m a).headerLenWords.toNat < 5 then .fail .invalidIpHeaderLength (moveCursor k s)
      else if (ip4At m a).version ≠ 4#4 then .fail .notIpv4 (moveCursor k s)
      else if n < a + headerBytes (ip4At m a).headerLenWords then .fail .tooShortForIp (moveCursor k s)
      else .value (ip4At m a) (moveCursor (headerBytes (ip4At m a).headerLenWords) s) := by
  obtain ⟨rfl, rfl, rfl, hf⟩ := h
  by_cases h1 : s.curLen.toNat < s.curOff.toNat + 1
  · exact ⟨0, by rw [if_pos h1, moveCursor_zero, readIpv4_empty s (by unfold remaining; omega)]⟩
  have hz := readIpv4_byteZero s (by omega) (filled_sub hf _ _ (by omega) (by omega))
  by_cases hl : (ip4At s.mem s.curOff.toNat).headerLenWords.toNat < 5
  · exact ⟨1, by rw [if_neg h1, if_pos hl, hz]; exact if_pos hl⟩
  by_cases hv : (ip4At s.mem s.curOff.toNat).version = 4#4
  swap
  · exact ⟨1, by rw [if_neg h1, if_neg hl, if_pos hv, hz]; exact (if_neg hl).trans (if_pos hv)⟩
  simp only [if_neg h1, if_neg hl, if_neg (not_not.mpr hv)]
  have h5 : 5 ≤ (ip4At s.mem s.curOff.toNat).headerLenWords.toNat := Nat.not_lt.mp hl
  by_cases hs : s.curLen.toNat < s.curOff.toNat + headerBytes (ip4At s.mem s.curOff.toNat).headerLenWords
  · obtain ⟨k, -, -, -, hk⟩ := readIpv4_short s (by omega) (filled_sub hf _ _ (by omega) (by omega)) h5 hv hs
    exact ⟨k, by rw [if_pos hs, hk]⟩
  · have h20 : 20 ≤ headerBytes (ip4At s.mem s.curOff.toNat).headerLenWords := by unfold headerBytes; omega
    have hf20 : Filled s.mem s.curOff.toNat 20 := filled_sub hf _ _ (by omega) (by omega)
    exact ⟨0, (readIpv4_value s hf20 h5 hv (Nat.not_lt.mp hs)).trans (if_neg hs).symm⟩

/-- `TCP.READ` as the chain of its tests (R95), the cursor of a failure left open. -/
theorem readTcp_inFrame {s : State} {m : List Host.Cell} {n a : Nat} (h : InFrame s m n a) :
    ∃ k, readTcp s =
      if n < a + 20 then .fail .tooShortForTcp (moveCursor k s)
      else if (tcpAt m a).dataOffsetWords.toNat < 5 then .fail .invalidTcpHeaderLength (moveCursor k s)
      else if n < a + headerBytes (tcpAt m a).dataOffsetWords then .fail .tooShortForTcp (moveCursor k s)
      else .value (tcpAt m a) (moveCursor (headerBytes (tcpAt m a).dataOffsetWords) s) := by
  obtain ⟨rfl, rfl, rfl, hf⟩ := h
  by_cases h20 : s.curLen.toNat < s.curOff.toNat + 20
  · exact ⟨0, by rw [if_pos h20, moveCursor_zero, readTcp_short s (by unfold remaining; omega)]⟩
  refine ⟨20, ?_⟩
  rw [if_neg h20]
  have h20 := Nat.not_lt.mp h20
  have hf20 : Filled s.mem s.curOff.toNat 20 := filled_sub hf _ _ (by omega) (by omega)
  split_ifs with hd hs
  · exact (readTcp_fixed s h20 hf20).trans (if_pos hd)
  · exact readTcp_shortOptions s h20 hf20 hs
  · exact readTcp_value s hf20 (Nat.not_lt.mp hd) (Nat.not_lt.mp hs)

/-! ### The operations of the control sequence -/

/-- The instruction of a reader and the step that calls it: the value the instruction returns is what the step goes on
with, its reason the step's skip. Neither touches what is held before that. -/
theorem OnlyMoves.orSkipped_of_finish {α : Type} {s t : State} {x : Run SkipReason α} {g : α → Ret}
    {k : α → State → Host.Outcome State Fault Refusal} (hx : OnlyMoves s x) (hg : Function.Injective g)
    (hgr : ∀ v r, g v ≠ .skip r) (h : x.finish g Ret.skip = .next t) :
    (∀ v, t.ret = g v → x.orSkipped k = k v { t with ret := s.ret, held := s.held }) ∧
    (∀ r, t.ret = .skip r → x.orSkipped k = .next (skipped r { t with ret := s.ret })) := by
  cases x with
  | value v u =>
    obtain ⟨n, rfl, -⟩ := hx
    cases h
    exact ⟨fun w hw => by rw [← hg hw]; rfl, fun r hr => absurd hr (hgr v r)⟩
  | fail e u =>
    obtain ⟨n, rfl, -⟩ := hx
    cases h
    exact ⟨fun w hw => absurd hw.symm (hgr w e), fun r hr => by cases hr; rfl⟩
  | fault f => cases h
  | refused r => cases h

/-- Step 2 runs the row of the held header (R106). -/
theorem step2_eq (s : State) : step2 s = exec (ethRow s.held.eth) s := by
  unfold step2 runEthRow ethRow
  split_ifs <;> rfl

/-- Step 4 runs the row of a held header that step 3 let pass (R108). -/
theorem step4_eq {s : State} (hl : 5 ≤ s.held.ip.headerLenWords.toNat) (hv : s.held.ip.version = 4#4) :
    step4 s = exec (ip4Row s.held.ip) s := by
  rw [ip4Row_v4 hl hv]
  unfold step4
  split_ifs <;> rfl

/-! ### The decode that looks at wire rows alone -/

theorem rowDecode_of_ethRow {s s1 : State} (h1 : exec (ethRow (ethAt s.mem 0)) (accept s) = .next s1)
    (hp1 : s1.phase ≠ .s3) : rowDecode s = .next s1 := by
  unfold rowDecode
  rw [h1]
  exact if_neg hp1

theorem rowDecode_of_ip4Row {s s1 s2 : State} (h1 : exec (ethRow (ethAt s.mem 0)) (accept s) = .next s1)
    (hp1 : s1.phase = .s3) (h2 : exec (ip4Row (ip4At s.mem 14)) s1 = .next s2) (hp2 : s2.phase ≠ .s5) :
    rowDecode s = .next s2 := by
  unfold rowDecode
  rw [h1]
  refine (if_pos hp1).trans ?_
  rw [h2]
  exact if_neg hp2

theorem rowDecode_of_tcpRow {s s1 s2 : State} (h1 : exec (ethRow (ethAt s.mem 0)) (accept s) = .next s1)
    (hp1 : s1.phase = .s3) (h2 : exec (ip4Row (ip4At s.mem 14)) s1 = .next s2) (hp2 : s2.phase = .s5) :
    rowDecode s =
      exec (tcpRow (tcpAt s.mem (tcpStart s2)) (lowNibble (byteAt s.mem (tcpStart s2 + 12)))) s2 := by
  unfold rowDecode
  rw [h1]
  refine (if_pos hp1).trans ?_
  rw [h2]
  exact if_pos hp2

/-- Both answers are a state, and the same one, but for the cursor's place in a skipped frame. -/
def EndsAlike (o o' : Host.Outcome State Fault Refusal) : Prop :=
  ∃ t u, o = .next t ∧ o' = .next u ∧ { u with curOff := t.curOff } = t ∧ (t.outcome = true → u = t)

/-- Two frames skipped for one reason. -/
theorem EndsAlike.of_skipped {r : SkipReason} {t u : State}
    (h : { skipped r u with curOff := t.curOff } = skipped r t) :
    EndsAlike (.next (skipped r t)) (.next (skipped r u)) := ⟨_, _, rfl, rfl, h, nofun⟩

theorem EndsAlike.of_eq {t u : State} (h : t = u) : EndsAlike (.next t) (.next u) :=
  ⟨t, u, rfl, rfl, by rw [h], fun _ => h.symm⟩

theorem EndsAlike.of_ethRow {s t u : State} {r : SkipReason}
    (h1 : exec (ethRow (ethAt s.mem 0)) (accept s) = .next (skipped r u))
    (h : { skipped r u with curOff := t.curOff } = skipped r t) : EndsAlike (.next (skipped r t)) (rowDecode s) := by
  rw [rowDecode_of_ethRow h1 nofun]
  exact .of_skipped h

theorem EndsAlike.of_ip4Row {s s1 t u : State} {r : SkipReason}
    (h1 : exec (ethRow (ethAt s.mem 0)) (accept s) = .next s1) (hp1 : s1.phase = .s3)
    (h2 : exec (ip4Row (ip4At s.mem 14)) s1 = .next (skipped r u))
    (h : { skipped r u with curOff := t.curOff } = skipped r t) : EndsAlike (.next (skipped r t)) (rowDecode s) := by
  rw [rowDecode_of_ip4Row h1 hp1 h2 nofun]
  exact .of_skipped h

/-- Steps 5 to 7 of `FRAME.DECODE`, two headers read. -/
def decodeTcp (eth : EthernetHeader) (ip : Ipv4Header) (s : State) : Host.Outcome State Fault Refusal :=
  (readTcp s).orSkipped fun tcp s =>
    .next (decoded { s with held := { eth := eth, ip := ip, tcp := tcp, payloadLen := payloadLength s ip tcp } })

/-- Steps 3 to 7 of `FRAME.DECODE`, one header read. -/
def decodeIp4 (eth : EthernetHeader) (s : State) : Host.Outcome State Fault Refusal :=
  (readIpv4 s).orSkipped fun ip s =>
    if ip.protocol ≠ 6#8 then .next (skipped .notTcp s) else decodeTcp eth ip s

theorem decodeFrame_eq (s : State) :
    decodeFrame s = (readEthernet s).orSkipped fun eth s =>
      if eth.etherType ≠ 0x0800#16 then .next (skipped .notIpv4 s) else decodeIp4 eth s := rfl

/-- Steps 6 and 7 after the TCP reader give the record that `TCP.OK` gives. -/
theorem decoded_eq_ontoStep7 (eth : EthernetHeader) (ip : Ipv4Header) (tcp : TcpHeader) (s : State) :
    decoded { moveCursor (ip4End ip + headerBytes tcp.dataOffsetWords) (accept s) with
      held := { eth := eth, ip := ip, tcp := tcp, payloadLen := payloadLength (accept s) ip tcp } } =
      decoded (ontoStep7 tcp (ontoStep5 ip (ontoStep3 eth (accept s)))) := by
  have hoff : moveCursor (ip4End ip + headerBytes tcp.dataOffsetWords) (accept s) =
      { accept s with curOff := BitVec.ofNat 32 (ip4End ip + headerBytes tcp.dataOffsetWords) } := by
    simp [moveCursor]
  have hlen : payloadLength (accept s) ip tcp =
      BitVec.ofNat 32 (s.caplen.toNat - (ip4End ip + headerBytes tcp.dataOffsetWords)) := by
    simp only [payloadLength, ip4End, accept_curLen, Nat.sub_sub]
  rw [hoff, hlen]
  rfl

section
variable {s : State} (hf : Filled s.mem 0 s.caplen.toNat)
include hf

/-- The TCP header: reader and row make the same tests. -/
theorem decodeTcp_endsAlike (eth : EthernetHeader) {ip : Ipv4Header} (hl : ip4End ip ≤ s.caplen.toNat) (r : U4) :
    EndsAlike (decodeTcp eth ip (moveCursor (ip4End ip) (accept s)))
      (exec (tcpRow (tcpAt s.mem (ip4End ip)) r) (ontoStep5 ip (ontoStep3 eth (accept s)))) := by
  obtain ⟨k, hk⟩ := readTcp_inFrame (inFrame_accept hf hl)
  rw [exec_tcpRow _ r (n := s.caplen.toNat) (a := ip4End ip) rfl rfl, decodeTcp, hk]
  split_ifs
  · exact .of_skipped rfl
  · exact .of_skipped rfl
  · exact .of_skipped rfl
  · rw [Run.orSkipped_value, moveCursor_moveCursor]
    exact .of_eq (decoded_eq_ontoStep7 eth ip _ s)

/-- The IPv4 header and what follows. -/
theorem decodeIp4_endsAlike {eth : EthernetHeader} (hl : 14 ≤ s.caplen.toNat)
    (h1 : exec (ethRow (ethAt s.mem 0)) (accept s) = .next (ontoStep3 eth (accept s))) :
    EndsAlike (decodeIp4 eth (moveCursor 14 (accept s))) (rowDecode s) := by
  obtain ⟨k, hk⟩ := readIpv4_inFrame (inFrame_accept hf hl)
  have h2 := exec_ip4Row (ip4At s.mem 14) (s := ontoStep3 eth (accept s)) (n := s.caplen.toNat) rfl
  rw [decodeIp4, hk]
  split_ifs at h2 ⊢ with _ _ _ hend hp
  · exact .of_ip4Row h1 rfl h2 rfl
  · exact .of_ip4Row h1 rfl h2 rfl
  · exact .of_ip4Row h1 rfl h2 rfl
  · exact .of_ip4Row h1 rfl h2 rfl
  · rw [Run.orSkipped_value, if_pos hp]
    exact .of_ip4Row h1 rfl h2 rfl
  · rw [rowDecode_of_tcpRow h1 rfl h2 rfl, Run.orSkipped_value, if_neg hp, moveCursor_moveCursor]
    exact decodeTcp_endsAlike hf eth (Nat.not_lt.mp hend) _

/-- The whole frame, from the Ethernet header on. -/
theorem decodeFrame_endsAlike : EndsAlike (decodeFrame (accept s)) (rowDecode s) := by
  have h1 := exec_ethRow (ethAt s.mem 0) (s := accept s) (n := s.caplen.toNat) rfl
  have hk := readEthernet_inFrame (inFrame_accept hf (Nat.zero_le _))
  rw [moveCursor_zero] at hk
  rw [decodeFrame_eq, hk]
  split_ifs at h1 ⊢ with hl hty
  · exact .of_ethRow h1 rfl
  · rw [Run.orSkipped_value, if_pos hty]
    exact .of_ethRow h1 rfl
  · rw [Run.orSkipped_value, if_neg hty]
    exact decodeIp4_endsAlike hf (Nat.not_lt.mp hl) h1

end

end Sys2Proof.Machine

/-! ### The obligations of the control sequence and of the wire rows -/

namespace Sys2Proof.Proofs

open Sys2Proof.Machine Sys2Proof.Safety

/-- Settles O3: the readers' instructions and the readers' steps are the same operation, with `ret` or with what is
held. -/
theorem controlSequenceRunsItsOperations : Obligations.ControlSequenceRunsItsOperations := by
  intro s hi
  rw [step_nil s hi]
  unfold controlStep
  refine ⟨fun hp t h => ?_, fun hp => ?_, fun hp t h => ?_, fun hp hl hv => ?_, fun hp t h => ?_, fun hp t v h hv => ?_⟩ <;>
    rw [hp]
  · exact (readEthernet_onlyMoves s).orSkipped_of_finish (fun _ _ => Ret.eth.inj) nofun h
  · exact step2_eq s
  · exact (readIpv4_onlyMoves s).orSkipped_of_finish (fun _ _ => Ret.ip4.inj) nofun h
  · exact step4_eq hl hv
  · exact (readTcp_onlyMoves s).orSkipped_of_finish (fun _ _ => Ret.tcp.inj) nofun h
  · cases h
    cases hv
    rfl

/-- Settles O30: header by header, the reader makes the tests of the row. -/
theorem wireRowsDecodeLikeFrameDecode : Obligations.WireRowsDecodeLikeFrameDecode := by
  intro s hs hf
  obtain ⟨t, u, ht, hu, hoff, heq⟩ := decodeFrame_endsAlike hf
  exact ⟨t, u, (if_neg (by simp [hs])).trans ht, hu, hoff, heq⟩

/-- Settles O26: both rows make the one test of the captured length. -/
theorem ethRowsEffect : Obligations.EthRowsEffect := fun _ _ =>
  ⟨fun hl => ⟨if_pos hl, if_pos hl⟩, fun hl => ⟨if_neg (Nat.not_lt.mpr hl), if_neg (Nat.not_lt.mpr hl)⟩⟩

end Sys2Proof.Proofs

/-! SUPPORT. The cursor operations as instructions: the four that read are one `takeBytes` each, and the five that
consume obey one bounds law (R70, R71). The obligations of spec/40_bytecursor.md follow from it. -/

namespace Sys2Proof.Machine

open Sys2Proof.Safety

/-! ### Spans and moves -/

/-- A span whose bytes are those of `bs`, one by one, reads as `bs`. -/
theorem readSpan_of_reads {m : List Host.Cell} {a : Nat} {bs : List Byte}
    (h : ∀ k, k < bs.length → Memory.read m (a + k) = bs[k]?) : readSpan m a bs.length = some bs := by
  induction bs generalizing a with
  | nil => rfl
  | cons b bs ih =>
    have h0 : Memory.read m a = some b := h 0 (Nat.succ_pos _)
    have htail : readSpan m (a + 1) bs.length = some bs := ih fun k hk => by
      rw [Nat.add_assoc, Nat.add_comm 1]
      exact h (k + 1) (Nat.succ_lt_succ hk)
    simp only [List.length_cons, readSpan, h0, htail]

/-- A span of `j` and then `k` bytes reads as the one and then the other. -/
theorem readSpan_append {m : List Host.Cell} {a j k : Nat} {bs cs : List Byte} (hb : readSpan m a j = some bs)
    (hc : readSpan m (a + j) k = some cs) : readSpan m a (j + k) = some (bs ++ cs) := by
  induction j generalizing a bs with
  | zero =>
    cases hb
    simpa using hc
  | succ j ih =>
    rw [readSpan] at hb
    split at hb
    · rename_i b bs h0 htail
      cases hb
      have hrest : readSpan m (a + 1) (j + k) = some (bs ++ cs) :=
        ih htail (by rwa [show a + 1 + j = a + (j + 1) by omega])
      simp only [Nat.succ_add, readSpan, h0, hrest, List.cons_append]
    · cases hb

/-- The move by a word is the addition of words. -/
theorem moveCursor_word (n : U32) (s : State) : moveCursor n.toNat s = { s with curOff := s.curOff + n } := by
  simp only [moveCursor, BitVec.ofNat_add, BitVec.ofNat_toNat, BitVec.setWidth_eq]

/-- R46: a four-byte value from its two halves. -/
theorem be32_toNat_halves (a b c d : Byte) :
    (be32 a b c d).toNat = (be16 a b).toNat * 65536 + (be16 c d).toNat := by
  rw [be32_toNat, be16_toNat, be16_toNat]
  omega

/-! ### The reading instructions -/

/-- What an operation returns may be computed where it ends. -/
theorem Run.finish_bind_value {ε α β : Type} (x : Run ε α) (g : α → β) (f : β → Ret) (e : ε → Ret) :
    (x.bind fun v s => .value (g v) s).finish f e = x.finish (fun v => f (g v)) e := by
  cases x <;> rfl

/-- The instruction `i` takes `n` bytes at the cursor and returns what `g` makes of them. -/
def ReturnsBytes (i : Instr) (n : Nat) (g : State → List Byte → Ret) : Prop :=
  ∀ s, exec i s = (takeBytes n s).finish (g s) cursorRet

theorem curReadU8_returnsBytes : ReturnsBytes .curReadU8 1 fun _ bs => .u8 (bs.getD 0 0) :=
  fun s => Run.finish_bind_value (takeBytes 1 s) _ _ _

theorem curReadU16Be_returnsBytes :
    ReturnsBytes .curReadU16Be 2 fun _ bs => .u16 (be16 (bs.getD 0 0) (bs.getD 1 0)) :=
  fun s => Run.finish_bind_value (takeBytes 2 s) _ _ _

theorem curReadU32Be_returnsBytes :
    ReturnsBytes .curReadU32Be 4 fun _ bs =>
      .u32 (be32 (bs.getD 0 0) (bs.getD 1 0) (bs.getD 2 0) (bs.getD 3 0)) :=
  fun s => Run.finish_bind_value (takeBytes 4 s) _ _ _

theorem curReadBytes_returnsBytes (n : U32) :
    ReturnsBytes (.curReadBytes n) n.toNat fun s bs => .view s.curOff n bs := fun _ => rfl

namespace ReturnsBytes

variable {i : Instr} {n : Nat} {g : State → List Byte → Ret} {s t : State}

theorem exec_value (h : ReturnsBytes i n g) {bs : List Byte} (hb : s.curOff.toNat + n ≤ s.curLen.toNat)
    (hr : readSpan s.mem s.curOff.toNat n = some bs) : exec i s = .next { moveCursor n s with ret := g s bs } := by
  rw [h s, takeBytes_value n s bs hb hr, Run.finish_value]

/-- The instruction on the bytes that stand at the cursor. -/
theorem exec_of_reads {n : U32} (h : ReturnsBytes i n.toNat g) {bs : List Byte}
    (hb : s.curOff.toNat + n.toNat ≤ s.curLen.toNat) (hn : bs.length = n.toNat)
    (hr : ∀ k, k < n.toNat → Memory.read s.mem (s.curOff.toNat + k) = bs[k]?) :
    exec i s = .next { s with curOff := s.curOff + n, ret := g s bs } := by
  rw [h.exec_value hb (hn ▸ readSpan_of_reads (hn ▸ hr)), moveCursor_word]

/-- An answer that is no `OutOfBounds` has read `n` bytes and moved the cursor past them. -/
theorem success (h : ReturnsBytes i n g) (hx : exec i s = .next t) (ht : t.ret ≠ .outOfBounds) :
    s.curOff.toNat + n ≤ s.curLen.toNat ∧ ∃ bs, readSpan s.mem s.curOff.toNat n = some bs ∧ bs.length = n ∧
      t = { moveCursor n s with ret := g s bs } := by
  rw [h s] at hx
  rcases takeBytes_cases n s with ⟨-, hc⟩ | ⟨-, -, hc⟩ | ⟨hb, bs, hr, hl, hc⟩ <;> rw [hc] at hx <;> cases hx
  · exact absurd rfl ht
  · exact ⟨hb, bs, hr, hl, rfl⟩

/-- Two reads in a row have read what one of the double width returns, and end where it ends (R46). -/
theorem twice {j : Instr} {g' : State → List Byte → Ret} {u : State} (hi : ReturnsBytes i n g)
    (hj : ReturnsBytes j (n + n) g') (hst : exec i s = .next t) (ht : t.ret ≠ .outOfBounds)
    (htu : exec i t = .next u) (hu : u.ret ≠ .outOfBounds) :
    ∃ bs cs, bs.length = n ∧ cs.length = n ∧ t.ret = g s bs ∧ u.ret = g t cs ∧
      exec j s = .next { u with ret := g' s (bs ++ cs) } := by
  obtain ⟨hb, bs, hbs, hbl, rfl⟩ := hi.success hst ht
  obtain ⟨hc, cs, hcs, hcl, rfl⟩ := hi.success htu hu
  refine ⟨bs, cs, hbl, hcl, rfl, rfl, ?_⟩
  have hoff := moveCursor_toNat n s hb
  have hend : s.curOff.toNat + (n + n) ≤ s.curLen.toNat := by
    rw [← Nat.add_assoc, ← hoff]
    exact hc
  rw [hj.exec_value hend (readSpan_append hbs (hoff ▸ hcs)), ← moveCursor_moveCursor]
  rfl

end ReturnsBytes

/-! ### The bounds law -/

/-- The instruction `i` consumes `n` bytes: beyond the end it fails and changes nothing; inside it moves the cursor by
`n`, unless it is refused for a byte that was never filled (R70, R71). -/
structure Consumes (i : Instr) (n : Nat) : Prop where
  outOfBounds : ∀ s, s.curLen.toNat < s.curOff.toNat + n → exec i s = .next { s with ret := .outOfBounds }
  inBounds : ∀ s, s.curOff.toNat + n ≤ s.curLen.toNat →
    (∃ r, r ≠ .outOfBounds ∧ exec i s = .next { moveCursor n s with ret := r }) ∨
    (¬ Filled s.mem s.curOff.toNat n ∧ exec i s = .refused .unfilledFrameByte)

theorem ReturnsBytes.consumes {i : Instr} {n : Nat} {g : State → List Byte → Ret} (h : ReturnsBytes i n g)
    (hg : ∀ s bs, g s bs ≠ .outOfBounds) : Consumes i n where
  outOfBounds s hs := by rw [h s, takeBytes_outOfBounds n s hs]; rfl
  inBounds s hs := by
    cases hr : readSpan s.mem s.curOff.toNat n with
    | some bs => exact .inl ⟨g s bs, hg s bs, h.exec_value hs hr⟩
    | none =>
      refine .inr ⟨fun hf => ?_, by rw [h s, takeBytes_unfilled n s hs hr]; rfl⟩
      rw [readSpan_filled _ _ _ hf] at hr
      cases hr

theorem curReadU8_consumes : Consumes .curReadU8 1 := curReadU8_returnsBytes.consumes fun _ _ => nofun
theorem curReadU16Be_consumes : Consumes .curReadU16Be 2 := curReadU16Be_returnsBytes.consumes fun _ _ => nofun
theorem curReadU32Be_consumes : Consumes .curReadU32Be 4 := curReadU32Be_returnsBytes.consumes fun _ _ => nofun
theorem curReadBytes_consumes (n : U32) : Consumes (.curReadBytes n) n.toNat :=
  (curReadBytes_returnsBytes n).consumes fun _ _ => nofun

/-- `CUR.ADVANCE` inside the bounds, whatever the buffer holds (R80). -/
theorem exec_curAdvance_inBounds (n : U32) (s : State) (h : s.curOff.toNat + n.toNat ≤ s.curLen.toNat) :
    exec (.curAdvance n) s = .next { moveCursor n.toNat s with ret := .ok } := by
  have hv := advance_at 0 n.toNat s h
  rw [moveCursor_zero, Nat.zero_add] at hv
  exact congrArg (Run.finish · (fun _ => Ret.ok) cursorRet) hv

theorem curAdvance_consumes (n : U32) : Consumes (.curAdvance n) n.toNat where
  outOfBounds _ hs := congrArg (Run.finish · (fun _ => Ret.ok) cursorRet) (if_pos hs)
  inBounds _ hs := .inl ⟨.ok, nofun, exec_curAdvance_inBounds n _ hs⟩

namespace Consumes

variable {i : Instr} {n : Nat} {s t : State}

/-- R71: the cursor alone moves, by `n` or not at all; a failure has looked at no byte. -/
theorem onlyMovesCursor (h : Consumes i n) (hx : exec i s = .next t) :
    t = { s with curOff := t.curOff, ret := t.ret } ∧
    (t.ret ≠ .outOfBounds → t.curOff.toNat = s.curOff.toNat + n) ∧
    (t.ret = .outOfBounds → t.curOff = s.curOff ∧
      ∀ m', exec i { s with mem := m' } = .next { t with mem := m' }) := by
  rcases Nat.lt_or_ge s.curLen.toNat (s.curOff.toNat + n) with hb | hb
  · obtain rfl := Host.Outcome.next.inj ((h.outOfBounds s hb).symm.trans hx)
    exact ⟨rfl, fun hr => absurd rfl hr, fun _ => ⟨rfl, fun m' => h.outOfBounds { s with mem := m' } hb⟩⟩
  · rcases h.inBounds s hb with ⟨r, hr, ho⟩ | ⟨-, ho⟩ <;> rw [ho] at hx <;> cases hx
    exact ⟨rfl, fun _ => moveCursor_toNat n s hb, fun hr' => absurd hr' hr⟩

/-- R70: on filled bytes the instruction completes, and its test is the bounds law's. -/
theorem boundsLaw (h : Consumes i n) (hs : s.curOff.toNat ≤ s.curLen.toNat)
    (hf : Filled s.mem s.curOff.toNat (s.curLen.toNat - s.curOff.toNat)) :
    ∃ t, exec i s = .next t ∧ t.curOff.toNat ≤ t.curLen.toNat ∧
      (t.ret = .outOfBounds ↔ s.curLen.toNat - s.curOff.toNat < n) := by
  rcases Nat.lt_or_ge s.curLen.toNat (s.curOff.toNat + n) with hb | hb
  · exact ⟨_, h.outOfBounds s hb, hs, fun _ => by omega, fun _ => rfl⟩
  · rcases h.inBounds s hb with ⟨r, hr, ho⟩ | ⟨hn, -⟩
    · exact ⟨_, ho, (moveCursor_toNat n s hb).trans_le hb, fun hr' => absurd hr' hr, fun hlt => by omega⟩
    · exact absurd (filled_sub hf _ _ le_rfl (by omega)) hn

end Consumes

end Sys2Proof.Machine

/-! ### The obligations of the cursor -/

namespace Sys2Proof.Proofs

open Sys2Proof.Machine Sys2Proof.Safety

/-- Settles O15: five obey the law of an instruction that consumes; `CUR.REMAINING` writes `ret` alone. -/
theorem cursorOperationsOnlyMoveTheCursor : Obligations.CursorOperationsOnlyMoveTheCursor := by
  intro s t i n hi hx
  rcases hi with ⟨rfl, rfl⟩ | ⟨rfl, rfl⟩ | ⟨rfl, rfl⟩ | ⟨m, rfl, rfl⟩ | ⟨rfl, rfl⟩ | ⟨m, rfl, rfl⟩
  · exact curReadU8_consumes.onlyMovesCursor hx
  · exact curReadU16Be_consumes.onlyMovesCursor hx
  · exact curReadU32Be_consumes.onlyMovesCursor hx
  · exact (curReadBytes_consumes m).onlyMovesCursor hx
  · cases hx
    exact ⟨rfl, fun _ => rfl, nofun⟩
  · exact (curAdvance_consumes m).onlyMovesCursor hx

/-- Settles O16: each of the five obeys the bounds law for what it consumes. -/
theorem boundsLaw : Obligations.BoundsLaw := by
  intro s i n hi hs hf
  rcases hi with ⟨rfl, rfl⟩ | ⟨rfl, rfl⟩ | ⟨rfl, rfl⟩ | ⟨m, rfl, rfl⟩ | ⟨m, rfl, rfl⟩
  · exact curReadU8_consumes.boundsLaw hs hf
  · exact curReadU16Be_consumes.boundsLaw hs hf
  · exact curReadU32Be_consumes.boundsLaw hs hf
  · exact (curReadBytes_consumes m).boundsLaw hs hf
  · exact (curAdvance_consumes m).boundsLaw hs hf

/-- Settles O17: the wide read takes the span of the two narrow ones, and big-endian values append. -/
theorem wideReadIsTwoNarrowReads : Obligations.WideReadIsTwoNarrowReads := by
  constructor
  · intro s t u hi lo hst ht htu hu
    obtain ⟨bs, cs, hb, hc, hth, huh, hx⟩ := curReadU8_returnsBytes.twice curReadU16Be_returnsBytes hst
      (by rw [ht]; nofun) htu (by rw [hu]; nofun)
    obtain ⟨b, rfl⟩ := List.length_eq_one_iff.mp hb
    obtain ⟨c, rfl⟩ := List.length_eq_one_iff.mp hc
    obtain rfl := Ret.u8.inj (ht.symm.trans hth)
    obtain rfl := Ret.u8.inj (hu.symm.trans huh)
    exact ⟨_, be16_toNat hi lo, hx⟩
  · intro s t u hi lo hst ht htu hu
    obtain ⟨bs, cs, hb, hc, hth, huh, hx⟩ := curReadU16Be_returnsBytes.twice curReadU32Be_returnsBytes hst
      (by rw [ht]; nofun) htu (by rw [hu]; nofun)
    obtain ⟨b0, b1, rfl⟩ := List.length_eq_two.mp hb
    obtain ⟨b2, b3, rfl⟩ := List.length_eq_two.mp hc
    obtain rfl := Ret.u16.inj (ht.symm.trans hth)
    obtain rfl := Ret.u16.inj (hu.symm.trans huh)
    exact ⟨_, be32_toNat_halves b0 b1 b2 b3, hx⟩

/-- Settles O11: the bounds law, and the span at the cursor. -/
theorem readBytesResult : Obligations.ReadBytesResult := fun s n hs =>
  ⟨fun h => (curReadBytes_consumes n).outOfBounds s (by omega),
    fun h _ hl hr => (curReadBytes_returnsBytes n).exec_of_reads (by omega) hl hr⟩

/-- Settles O8: a span of one byte; inside the bounds an offset other than the end leaves one. -/
theorem readU8Result : Obligations.ReadU8Result := fun s hs =>
  ⟨fun h => curReadU8_consumes.outOfBounds s (by rw [h]; omega), fun h b hb =>
    have hne : s.curOff.toNat ≠ s.curLen.toNat := fun he => h (BitVec.eq_of_toNat_eq he)
    curReadU8_returnsBytes.exec_of_reads (n := 1) (bs := [b]) (by change _ + 1 ≤ _; omega) rfl fun
      | 0, _ => hb⟩

/-- Settles O9: a span of two bytes. -/
theorem readU16BeResult : Obligations.ReadU16BeResult := fun s hs =>
  ⟨fun h => curReadU16Be_consumes.outOfBounds s (by omega), fun h b0 b1 h0 h1 =>
    ⟨be16 b0 b1, be16_toNat b0 b1,
      curReadU16Be_returnsBytes.exec_of_reads (n := 2) (bs := [b0, b1]) (by change _ + 2 ≤ _; omega) rfl fun
        | 0, _ => h0
        | 1, _ => h1⟩⟩

/-- Settles O10: a span of four bytes. -/
theorem readU32BeResult : Obligations.ReadU32BeResult := fun s hs =>
  ⟨fun h => curReadU32Be_consumes.outOfBounds s (by omega), fun h b0 b1 b2 b3 h0 h1 h2 h3 =>
    ⟨be32 b0 b1 b2 b3, be32_toNat b0 b1 b2 b3,
      curReadU32Be_returnsBytes.exec_of_reads (n := 4) (bs := [b0, b1, b2, b3]) (by change _ + 4 ≤ _; omega) rfl fun
        | 0, _ => h0
        | 1, _ => h1
        | 2, _ => h2
        | 3, _ => h3⟩⟩

/-- Settles O12: the word `CUR.REMAINING` returns is the difference, cut off nowhere. -/
theorem remainingResult : Obligations.RemainingResult := fun s _ =>
  ⟨remainingWord s, remainingWord_toNat s, rfl⟩

/-- Settles O13: the bounds law, and the move alone. -/
theorem advanceResult : Obligations.AdvanceResult := fun s n hs =>
  ⟨fun h => (curAdvance_consumes n).outOfBounds s (by omega), fun h => by
    rw [exec_curAdvance_inBounds n s (by omega), moveCursor_word]⟩

end Sys2Proof.Proofs

/-! SUPPORT. The three readers as instructions: where they leave the cursor, and the headers a buffer shows. The bytes
of a header are those of its fields one after the other, so a buffer that shows them shows each field at its offset
(R57 to R59), and the readers answer with the header (R84, R93, R101). -/

namespace Sys2Proof.Machine

open Sys2Proof.Safety

/-! ### Where a reader leaves the cursor -/

theorem moveCursor_eq_add (n : Nat) (s : State) :
    moveCursor n s = { s with curOff := s.curOff + BitVec.ofNat 32 n } := by
  simp only [moveCursor, BitVec.ofNat_add, BitVec.ofNat_toNat, BitVec.setWidth_eq]

/-- An instruction that is a success of its operation. -/
theorem Run.finish_of_value {ε α : Type} {x : Run ε α} {v : α} {n : Nat} {s : State}
    (hx : x = .value v (moveCursor n s)) (f : α → Ret) (g : ε → Ret) :
    x.finish f g = .next { s with curOff := s.curOff + BitVec.ofNat 32 n, ret := f v } := by
  rw [hx, Run.finish_value, moveCursor_eq_add]

/-- The instruction of an operation that only moves the cursor, on success and on failure (R71). -/
theorem OnlyMoves.finish_next {ε α : Type} {s t : State} {x : Run ε α} {f : α → Ret} {g : ε → Ret}
    (hx : OnlyMoves s x) (hs : s.curOff.toNat ≤ s.curLen.toNat) (ht : x.finish f g = .next t) :
    t = { s with curOff := t.curOff, ret := t.ret } ∧
    s.curOff.toNat ≤ t.curOff.toNat ∧ t.curOff.toNat ≤ t.curLen.toNat := by
  have hmoved : ∃ n r, s.curOff.toNat + n ≤ s.curLen.toNat ∧ t = { moveCursor n s with ret := r } := by
    cases x with
    | value v u =>
      obtain ⟨n, rfl, hn⟩ := hx
      cases ht
      exact ⟨n, f v, hn hs, rfl⟩
    | fail e u =>
      obtain ⟨n, rfl, hn⟩ := hx
      cases ht
      exact ⟨n, g e, hn hs, rfl⟩
    | fault y => cases hx
    | refused y => cases ht
  obtain ⟨n, r, hn, rfl⟩ := hmoved
  have hoff : (moveCursor n s).curOff.toNat = s.curOff.toNat + n := moveCursor_toNat n s hn
  exact ⟨rfl, hoff ▸ Nat.le_add_right _ _, hoff ▸ hn⟩

/-! ### The fields a buffer shows -/

section
variable {m : List Host.Cell} {a : Nat}

theorem filled_of_shows {bs : List Byte} (h : Shows m a bs) : Filled m a bs.length := fun k hk => by
  rw [h k hk, List.getElem?_eq_getElem hk, Option.isSome_some]

/-- A buffer that shows one sequence after another shows each at its place. -/
theorem shows_append {bs cs : List Byte} (h : Shows m a (bs ++ cs)) : Shows m a bs ∧ Shows m (a + bs.length) cs := by
  constructor
  · intro k hk
    rw [h k (by rw [List.length_append]; omega), List.getElem?_append_left hk]
  · intro k hk
    rw [Nat.add_assoc, h _ (by rw [List.length_append]; omega), List.getElem?_append_right (Nat.le_add_right _ _),
      Nat.add_sub_cancel_left]

theorem byteAt_of_shows {bs : List Byte} (h : Shows m a bs) {k : Nat} {b : Byte} (hk : bs[k]? = some b) :
    byteAt m (a + k) = b := by
  rw [byteAt, h k (List.getElem?_eq_some_iff.mp hk).1, hk, Option.getD_some]

theorem u16At_of_shows {v : U16} (h : Shows m a (bytes16 v)) : u16At m a = v := by
  have h0 : byteAt m a = _ := byteAt_of_shows h (k := 0) rfl
  rw [u16At, h0, byteAt_of_shows h (k := 1) rfl, be16_bytes16]

theorem u32At_of_shows {v : U32} (h : Shows m a (bytes32 v)) : u32At m a = v := by
  have h0 : byteAt m a = _ := byteAt_of_shows h (k := 0) rfl
  rw [u32At, h0, byteAt_of_shows h (k := 1) rfl, byteAt_of_shows h (k := 2) rfl, byteAt_of_shows h (k := 3) rfl,
    be32_bytes32]

theorem macAt_of_shows {v : Mac} (h : Shows m a (macBytes v)) : macAt m a = v := by
  have h0 : byteAt m a = _ := byteAt_of_shows h (k := 0) rfl
  rw [macAt, h0, byteAt_of_shows h (k := 1) rfl, byteAt_of_shows h (k := 2) rfl, byteAt_of_shows h (k := 3) rfl,
    byteAt_of_shows h (k := 4) rfl, byteAt_of_shows h (k := 5) rfl]

theorem addrAt_of_shows {v : Ipv4Addr} (h : Shows m a (addrBytes v)) : addrAt m a = v := by
  have h0 : byteAt m a = _ := byteAt_of_shows h (k := 0) rfl
  rw [addrAt, h0, byteAt_of_shows h (k := 1) rfl, byteAt_of_shows h (k := 2) rfl, byteAt_of_shows h (k := 3) rfl]

/-! ### The headers a buffer shows -/

/-- R57. -/
theorem ethAt_of_shows {h : EthernetHeader} (hb : Shows m a (ethBytes h)) : ethAt m a = h := by
  obtain ⟨hb, htype⟩ := shows_append hb
  obtain ⟨hdst, hsrc⟩ := shows_append hb
  have h0 : macAt m a = h.destMac := macAt_of_shows hdst
  have h6 : macAt m (a + 6) = h.srcMac := macAt_of_shows hsrc
  have h12 : u16At m (a + 12) = h.etherType := u16At_of_shows htype
  simp only [ethAt, h0, h6, h12]

/-- R58. -/
theorem ip4At_of_shows {h : Ipv4Header} (hb : Shows m a (ip4Bytes h)) : ip4At m a = h := by
  obtain ⟨hb, hdst⟩ := shows_append hb
  obtain ⟨hb, hsrc⟩ := shows_append hb
  obtain ⟨hb, hsum⟩ := shows_append hb
  obtain ⟨hb, hproto⟩ := shows_append hb
  obtain ⟨hb, hfrag⟩ := shows_append hb
  obtain ⟨hb, hid⟩ := shows_append hb
  obtain ⟨hb, hlen⟩ := shows_append hb
  have h0 : byteAt m a = packNibbles h.version h.headerLenWords := byteAt_of_shows hb (k := 0) rfl
  have h1 : byteAt m (a + 1) = h.tos := byteAt_of_shows hb rfl
  have h8 : byteAt m (a + 8) = h.ttl := byteAt_of_shows hproto (k := 0) rfl
  have h9 : byteAt m (a + 9) = h.protocol := byteAt_of_shows hproto (k := 1) rfl
  have h2 : u16At m (a + 2) = h.totalLen := u16At_of_shows hlen
  have h4 : u16At m (a + 4) = h.id := u16At_of_shows hid
  have h6 : u16At m (a + 6) = h.flagsFrag := u16At_of_shows hfrag
  have h10 : u16At m (a + 10) = h.checksum := u16At_of_shows hsum
  have h12 : addrAt m (a + 12) = h.srcAddr := addrAt_of_shows hsrc
  have h16 : addrAt m (a + 16) = h.dstAddr := addrAt_of_shows hdst
  simp only [ip4At, h0, h1, h2, h4, h6, h8, h9, h10, h12, h16, highNibble_packNibbles, lowNibble_packNibbles]

/-- R59: the reserved nibble is in no field. -/
theorem tcpAt_of_shows {h : TcpHeader} {r : U4} (hb : Shows m a (tcpBytes h r)) : tcpAt m a = h := by
  obtain ⟨hb, hurgent⟩ := shows_append hb
  obtain ⟨hb, hsum⟩ := shows_append hb
  obtain ⟨hb, hwindow⟩ := shows_append hb
  obtain ⟨hb, hflags⟩ := shows_append hb
  obtain ⟨hb, hack⟩ := shows_append hb
  obtain ⟨hb, hseq⟩ := shows_append hb
  obtain ⟨hsrc, hdst⟩ := shows_append hb
  have h0 : u16At m a = h.srcPort := u16At_of_shows hsrc
  have h2 : u16At m (a + 2) = h.dstPort := u16At_of_shows hdst
  have h4 : u32At m (a + 4) = h.seq := u32At_of_shows hseq
  have h8 : u32At m (a + 8) = h.ack := u32At_of_shows hack
  have h12 : byteAt m (a + 12) = packNibbles h.dataOffsetWords r := byteAt_of_shows hflags (k := 0) rfl
  have h13 : byteAt m (a + 13) = h.flags := byteAt_of_shows hflags (k := 1) rfl
  have h14 : u16At m (a + 14) = h.window := u16At_of_shows hwindow
  have h16 : u16At m (a + 16) = h.checksum := u16At_of_shows hsum
  have h18 : u16At m (a + 18) = h.urgentPtr := u16At_of_shows hurgent
  simp only [tcpAt, h0, h2, h4, h8, h12, h13, h14, h16, h18, highNibble_packNibbles]

end

/-! ### The readers on a header the buffer shows -/

section
variable {s : State}

theorem readEthernet_of_shows {h : EthernetHeader} (hlen : s.curOff.toNat + 14 ≤ s.curLen.toNat)
    (hb : Shows s.mem s.curOff.toNat (ethBytes h)) : readEthernet s = .value h (moveCursor 14 s) := by
  rw [readEthernet_value s hlen (filled_of_shows hb), ethAt_of_shows hb]

theorem readIpv4_of_shows {h : Ipv4Header} (hv : h.version = 4#4) (hw : 5 ≤ h.headerLenWords.toNat)
    (hlen : s.curOff.toNat + 4 * h.headerLenWords.toNat ≤ s.curLen.toNat)
    (hb : Shows s.mem s.curOff.toNat (ip4Bytes h)) :
    readIpv4 s = .value h (moveCursor (4 * h.headerLenWords.toNat) s) := by
  obtain rfl := ip4At_of_shows hb
  rw [Nat.mul_comm] at hlen ⊢
  exact readIpv4_value s (filled_of_shows hb) hw hv hlen

theorem readTcp_of_shows {h : TcpHeader} {r : U4} (hw : 5 ≤ h.dataOffsetWords.toNat)
    (hlen : s.curOff.toNat + 4 * h.dataOffsetWords.toNat ≤ s.curLen.toNat)
    (hb : Shows s.mem s.curOff.toNat (tcpBytes h r)) :
    readTcp s = .value h (moveCursor (4 * h.dataOffsetWords.toNat) s) := by
  obtain rfl := tcpAt_of_shows hb
  rw [Nat.mul_comm] at hlen ⊢
  exact readTcp_value s (filled_of_shows hb) hw hlen

end

end Sys2Proof.Machine

/-! ### The obligations of the readers -/

namespace Sys2Proof.Proofs

open Sys2Proof.Machine Sys2Proof.Safety

/-- Settles O18: the length test, and the header that stands at the cursor. -/
theorem ethReadResult : Obligations.EthReadResult := fun s hs =>
  ⟨fun h => congrArg (Run.finish · Ret.eth Ret.skip) (readEthernet_short s h),
    fun h hf => Run.finish_of_value (readEthernet_value s (by omega) hf) Ret.eth Ret.skip⟩

/-- Settles O23: each reader is the instruction of an operation that only moves the cursor. -/
theorem readersOnlyMoveTheCursor : Obligations.ReadersOnlyMoveTheCursor := by
  rintro s t i (rfl | rfl | rfl) hs ht
  · exact (readEthernet_onlyMoves s).finish_next hs ht
  · exact (readIpv4_onlyMoves s).finish_next hs ht
  · exact (readTcp_onlyMoves s).finish_next hs ht

/-- Settles O25: the header a buffer shows is the one that stands there, and the readers return that one. -/
theorem readersInvertTheWireFormats : Obligations.ReadersInvertTheWireFormats := fun _ =>
  ⟨fun _ hlen hb => Run.finish_of_value (readEthernet_of_shows hlen hb) Ret.eth Ret.skip,
    fun _ hv hw hlen hb => Run.finish_of_value (readIpv4_of_shows hv hw hlen hb) Ret.ip4 Ret.skip,
    fun _ _ hw hlen hb => Run.finish_of_value (readTcp_of_shows hw hlen hb) Ret.tcp Ret.skip⟩

end Sys2Proof.Proofs

/-! SUPPORT. `IP4.READ` by its first byte: the nibbles the reader tests are those of the byte that stands at the cursor
(R87), so its answer is said in numbers of that byte (R86 to R91). -/

namespace Sys2Proof.Machine

open Sys2Proof.Safety

/-! ### The byte at an offset -/

theorem byteAt_of_read {m : List Host.Cell} {a : Nat} {b : Byte} (h : Memory.read m a = some b) : byteAt m a = b := by
  rw [byteAt, h, Option.getD_some]

theorem filled_one_of_read {m : List Host.Cell} {a : Nat} {b : Byte} (h : Memory.read m a = some b) : Filled m a 1
  | 0, _ => Option.isSome_of_eq_some h

theorem highNibble_eq_four_iff (b : Byte) : highNibble b = 4#4 ↔ b.toNat / 16 = 4 := by
  rw [← highNibble_toNat]
  exact BitVec.toNat_inj.symm

/-- R61, from the byte that holds the length in words. -/
theorem headerBytes_lowNibble (b : Byte) : headerBytes (lowNibble b) = 4 * (b.toNat % 16) := by
  rw [headerBytes, lowNibble_toNat, Nat.mul_comm]

/-- R85: the end of the IPv4 header in the frame. -/
theorem ip4End_eq (h : Ipv4Header) : ip4End h = 14 + 4 * h.headerLenWords.toNat :=
  congrArg (14 + ·) (Nat.mul_comm _ 4)

/-- An instruction that is a failure of its operation. -/
theorem Run.finish_of_fail {ε α : Type} {x : Run ε α} {e : ε} {n : Nat} {s : State}
    (hx : x = .fail e (moveCursor n s)) (f : α → Ret) (g : ε → Ret) :
    x.finish f g = .next { s with curOff := s.curOff + BitVec.ofNat 32 n, ret := g e } := by
  rw [hx, Run.finish_fail, moveCursor_eq_add]

/-! ### The reader by its first byte -/

section
variable {s : State} {b0 : Byte}

/-- R88: the length is looked at first. -/
theorem readIpv4_illegalLength (h1 : s.curOff.toNat < s.curLen.toNat)
    (hb : Memory.read s.mem s.curOff.toNat = some b0) (hw : b0.toNat % 16 < 5) :
    readIpv4 s = .fail .invalidIpHeaderLength (moveCursor 1 s) := by
  rw [readIpv4_byteZero s h1 (filled_one_of_read hb), byteAt_of_read hb, lowNibble_toNat, if_pos hw]

/-- R89: then the version. -/
theorem readIpv4_notV4 (h1 : s.curOff.toNat < s.curLen.toNat) (hb : Memory.read s.mem s.curOff.toNat = some b0)
    (hw : 5 ≤ b0.toNat % 16) (hv : b0.toNat / 16 ≠ 4) : readIpv4 s = .fail .notIpv4 (moveCursor 1 s) := by
  rw [readIpv4_byteZero s h1 (filled_one_of_read hb), byteAt_of_read hb, lowNibble_toNat, if_neg (Nat.not_lt.mpr hw),
    if_pos (mt (highNibble_eq_four_iff b0).mp hv)]

/-- R90, R91: then whether the fixed portion and the options are there. -/
theorem readIpv4_cutShort (h1 : s.curOff.toNat < s.curLen.toNat) (hb : Memory.read s.mem s.curOff.toNat = some b0)
    (hw : 5 ≤ b0.toNat % 16) (hv : b0.toNat / 16 = 4) (hlen : s.curLen.toNat < s.curOff.toNat + 4 * (b0.toNat % 16))
    (hf : Filled s.mem s.curOff.toNat (s.curLen.toNat - s.curOff.toNat)) :
    ∃ k, 1 ≤ k ∧ s.curOff.toNat + k ≤ s.curLen.toNat ∧ readIpv4 s = .fail .tooShortForIp (moveCursor k s) := by
  obtain rfl := byteAt_of_read hb
  rw [← headerBytes_lowNibble] at hlen
  rw [← lowNibble_toNat] at hw
  obtain ⟨k, hk1, -, hk, hx⟩ :=
    readIpv4_short s h1 (filled_sub hf _ _ le_rfl (by omega)) hw ((highNibble_eq_four_iff _).mpr hv) hlen
  exact ⟨k, hk1, hk, hx⟩

/-- R93. -/
theorem readIpv4_whole (hb : Memory.read s.mem s.curOff.toNat = some b0) (hw : 5 ≤ b0.toNat % 16)
    (hv : b0.toNat / 16 = 4) (hlen : s.curOff.toNat + 4 * (b0.toNat % 16) ≤ s.curLen.toNat)
    (hf : Filled s.mem s.curOff.toNat 20) :
    readIpv4 s = .value (ip4At s.mem s.curOff.toNat) (moveCursor (4 * (b0.toNat % 16)) s) := by
  obtain rfl := byteAt_of_read hb
  rw [← headerBytes_lowNibble] at hlen ⊢
  rw [← lowNibble_toNat] at hw
  exact readIpv4_value s hf hw ((highNibble_eq_four_iff _).mpr hv) hlen

end

end Sys2Proof.Machine

/-! ### The obligations of the IPv4 reader and of its wire rows -/

namespace Sys2Proof.Proofs

open Sys2Proof.Machine Sys2Proof.Safety

/-- Settles O19: the whole header stands at the cursor, and the skip of the options reads none. -/
theorem ip4ReadSucceeds : Obligations.Ip4ReadSucceeds := fun _ _ hs hb hw hv hlen hf =>
  have hlen := (Nat.le_sub_iff_add_le' hs).mp hlen
  Run.finish_of_value (readIpv4_whole hb hw hv hlen hf) Ret.ip4 Ret.skip

/-- Settles O20: one failure of the reader for each of its tests, in their order. -/
theorem ip4ReadFails : Obligations.Ip4ReadFails := by
  intro s hs
  refine ⟨fun hend => ?_, fun b0 h1 hb => ⟨fun hw => ?_, fun hw hv => ?_, fun hw hv hlen hf => ?_⟩⟩
  · have hr : remaining s < 1 := by unfold remaining; omega
    exact congrArg (Run.finish · Ret.ip4 Ret.skip) (readIpv4_empty s hr)
  · exact Run.finish_of_fail (readIpv4_illegalLength h1 hb hw) Ret.ip4 Ret.skip
  · exact Run.finish_of_fail (readIpv4_notV4 h1 hb hw hv) Ret.ip4 Ret.skip
  · obtain ⟨k, hk1, hk, hx⟩ := readIpv4_cutShort h1 hb hw hv ((Nat.sub_lt_iff_lt_add' hs).mp hlen) hf
    have hoff := moveCursor_toNat k s hk
    exact ⟨(moveCursor k s).curOff, by omega, by omega, congrArg (Run.finish · Ret.ip4 Ret.skip) hx⟩

/-- Settles O27: the three rows are the one test of byte 0, each with its reason. -/
theorem ip4ByteZeroRowsEffect : Obligations.Ip4ByteZeroRowsEffect := fun _ _ =>
  ⟨fun hl => ⟨if_pos hl, if_pos hl, if_pos hl⟩, fun hl =>
    have hl := Nat.not_lt.mpr hl
    ⟨if_neg hl, if_neg hl, if_neg hl⟩⟩

/-- Settles O28: both rows make the one test of the header's end. -/
theorem ip4VersionFourRowsEffect : Obligations.Ip4VersionFourRowsEffect := by
  intro h s
  rw [← ip4End_eq]
  exact ⟨fun hl => ⟨if_pos hl, if_pos hl⟩, fun hl => ⟨if_neg (Nat.not_lt.mpr hl), if_neg (Nat.not_lt.mpr hl)⟩⟩

end Sys2Proof.Proofs

/-! SUPPORT. `TCP.READ` by its byte 12: the nibble the reader tests is that of the byte that stands 12 bytes past the
cursor (R97), so its answer is said in numbers of that byte (R95 to R99). The reads of the fixed portion cannot fail
once 20 bytes are seen to remain (R95), so the header that stands there, and whether all its bytes are filled, is all
the reader depends on (R101 items 3 and 5). -/

namespace Sys2Proof.Machine

open Sys2Proof.Safety

/-! ### The byte of the data offset -/

/-- R61, from the byte that holds the data offset. -/
theorem headerBytes_highNibble (b : Byte) : headerBytes (highNibble b) = 4 * (b.toNat / 16) := by
  rw [headerBytes, highNibble_toNat, Nat.mul_comm]

theorem highNibble_congr {b b' : Byte} (h : b.toNat / 16 = b'.toNat / 16) : highNibble b = highNibble b' :=
  BitVec.eq_of_toNat_eq (by rw [highNibble_toNat, highNibble_toNat, h])

/-! ### The reader by its byte 12 -/

section
variable {s : State} {b12 : Byte} (hb : Memory.read s.mem (s.curOff.toNat + 12) = some b12)
  (hf : Filled s.mem s.curOff.toNat 20)
include hb hf

/-- R98: the data offset is looked at once the fixed portion is read. -/
theorem readTcp_illegalOffset (h20 : s.curOff.toNat + 20 ≤ s.curLen.toNat) (hw : b12.toNat / 16 < 5) :
    readTcp s = .fail .invalidTcpHeaderLength (moveCursor 20 s) := by
  rw [readTcp_fixed s h20 hf, byteAt_of_read hb, highNibble_toNat, if_pos hw]

/-- R99: then whether the options are there. -/
theorem readTcp_cutShort (h20 : s.curOff.toNat + 20 ≤ s.curLen.toNat)
    (hlen : s.curLen.toNat < s.curOff.toNat + 4 * (b12.toNat / 16)) :
    readTcp s = .fail .tooShortForTcp (moveCursor 20 s) := by
  obtain rfl := byteAt_of_read hb
  rw [← headerBytes_highNibble] at hlen
  exact readTcp_shortOptions s h20 hf hlen

/-- R101. -/
theorem readTcp_whole (hw : 5 ≤ b12.toNat / 16) (hlen : s.curOff.toNat + 4 * (b12.toNat / 16) ≤ s.curLen.toNat) :
    readTcp s = .value (tcpAt s.mem s.curOff.toNat) (moveCursor (4 * (b12.toNat / 16)) s) := by
  obtain rfl := byteAt_of_read hb
  rw [← headerBytes_highNibble] at hlen ⊢
  rw [← highNibble_toNat] at hw
  exact readTcp_value s hf hw hlen

end

/-! ### The fixed portion cannot fail once it is seen to be there -/

/-- With `j` bytes left the operation does not fail (R81 item 3). -/
def FailsOnlyBelow {ε α : Type} (j : Nat) (x : State → Run ε α) : Prop :=
  ∀ s e t, s.curOff.toNat + j ≤ s.curLen.toNat → x s ≠ .fail e t

theorem takeBytes_failsOnlyBelow {α : Type} (n : Nat) (g : List Byte → α) :
    FailsOnlyBelow n fun s => (takeBytes n s).bind fun bs s => .value (g bs) s := by
  intro s e t hs h
  rcases takeBytes_cases n s with ⟨hb, -⟩ | ⟨-, -, h'⟩ | ⟨-, bs, -, -, h'⟩
  · omega
  · simp [h'] at h
  · simp [h'] at h

theorem readU8_failsOnlyBelow : FailsOnlyBelow 1 readU8 := takeBytes_failsOnlyBelow 1 _
theorem readU16Be_failsOnlyBelow : FailsOnlyBelow 2 readU16Be := takeBytes_failsOnlyBelow 2 _
theorem readU32Be_failsOnlyBelow : FailsOnlyBelow 4 readU32Be := takeBytes_failsOnlyBelow 4 _

theorem FailsOnlyBelow.value {ε α : Type} (v : α) : FailsOnlyBelow 0 (fun s => (Run.value v s : Run ε α)) :=
  fun _ _ _ _ => nofun

theorem FailsOnlyBelow.bind {ε ε' α β : Type} {j : Nat} {x : State → Run ε α} {e : ε'} {k : α → State → Run ε' β}
    (n : Nat) (hm : Moves j x) (hx : FailsOnlyBelow j x) (hk : ∀ v, FailsOnlyBelow n (k v)) :
    FailsOnlyBelow (j + n) (fun s => ((x s).orFail e).bind k) := by
  intro s e' t hs h
  cases hr : x s with
  | value v u =>
    simp only [hr, Run.orFail_value, Run.bind_value] at h
    obtain ⟨rfl, -⟩ := hm s v u hr
    refine hk v _ e' t ?_ h
    rw [moveCursor_toNat j s (by omega), moveCursor_curLen]
    omega
  | fail y u => exact hx s y u (by omega) hr
  | fault y => simp [hr] at h
  | refused y => simp [hr] at h

/-- R95: the nine reads consume 2 + 2 + 4 + 4 + 1 + 1 + 2 + 2 + 2 = 20 bytes. -/
theorem readTcpFixed_failsOnlyBelow : FailsOnlyBelow 20 readTcpFixed :=
  .bind 18 readU16Be_moves readU16Be_failsOnlyBelow fun _ => .bind 16 readU16Be_moves readU16Be_failsOnlyBelow fun _ =>
  .bind 12 readU32Be_moves readU32Be_failsOnlyBelow fun _ => .bind 8 readU32Be_moves readU32Be_failsOnlyBelow fun _ =>
  .bind 7 readU8_moves readU8_failsOnlyBelow fun _ => .bind 6 readU8_moves readU8_failsOnlyBelow fun _ =>
  .bind 4 readU16Be_moves readU16Be_failsOnlyBelow fun _ => .bind 2 readU16Be_moves readU16Be_failsOnlyBelow fun _ =>
  .bind 0 readU16Be_moves readU16Be_failsOnlyBelow fun _ => .value _

section
variable {s : State} (h20 : s.curOff.toNat + 20 ≤ s.curLen.toNat) (hf : ¬ Filled s.mem s.curOff.toNat 20)
include h20 hf

/-- An unfilled byte of the fixed portion stops the nine reads (R141): they cannot fail, and a success reads all. -/
theorem readTcpFixed_unfilled : readTcpFixed s = .refused .unfilledFrameByte := by
  have hmoves := readTcpFixed_onlyMoves s
  cases hx : readTcpFixed s with
  | value v t => exact absurd (readTcpFixed_takes s v t hx) hf
  | fail e t => exact absurd hx (readTcpFixed_failsOnlyBelow s e t h20)
  | fault y => rw [hx] at hmoves; exact hmoves.elim
  | refused r => rw [hx] at hmoves; exact congrArg _ hmoves

end

/-! ### What the reader depends on -/

/-- R59, R97: the header is that of the 20 fixed bytes, the low nibble of byte 12 apart. -/
theorem tcpAt_congr {m m' : List Host.Cell} {a : Nat}
    (h : ∀ k, k < 20 → k ≠ 12 → Memory.read m (a + k) = Memory.read m' (a + k))
    (h12 : highNibble (byteAt m (a + 12)) = highNibble (byteAt m' (a + 12))) : tcpAt m a = tcpAt m' a := by
  have hbyte : ∀ k, k < 20 → k ≠ 12 → byteAt m (a + k) = byteAt m' (a + k) := fun k hk hne =>
    congrArg (Option.getD · 0) (h k hk hne)
  have h0 : byteAt m a = byteAt m' a := hbyte 0 (by decide) (by decide)
  simp [tcpAt, u16At, u32At, Nat.add_assoc, h0, h12, hbyte]

theorem filled_congr {m m' : List Host.Cell} {a n : Nat}
    (h : ∀ k, k < n → (Memory.read m (a + k)).isSome = (Memory.read m' (a + k)).isSome) :
    Filled m a n ↔ Filled m' a n :=
  forall₂_congr fun k hk => by rw [h k hk]

section
variable {s : State} {m' : List Host.Cell} (hf : Filled s.mem s.curOff.toNat 20 ↔ Filled m' s.curOff.toNat 20)
  (hh : tcpAt s.mem s.curOff.toNat = tcpAt m' s.curOff.toNat)
include hf hh

theorem readTcpFixed_reframe (h20 : s.curOff.toNat + 20 ≤ s.curLen.toNat) :
    readTcpFixed { s with mem := m' } = (readTcpFixed s).mapState (reframe (fun _ => m') id) := by
  by_cases hfs : Filled s.mem s.curOff.toNat 20
  · rw [readTcpFixed_value s h20 hfs, readTcpFixed_value { s with mem := m' } h20 (hf.mp hfs), hh]
    rfl
  · rw [readTcpFixed_unfilled h20 hfs, readTcpFixed_unfilled (s := { s with mem := m' }) h20 (mt hf.mpr hfs)]
    rfl

/-- R101 items 3 and 5: another buffer with the same header at the cursor, all its bytes filled in both or in
neither, changes nothing. -/
theorem readTcp_reframe : readTcp { s with mem := m' } = (readTcp s).mapState (reframe (fun _ => m') id) := by
  by_cases hr : remaining s < 20
  · rw [readTcp_short s hr, readTcp_short { s with mem := m' } hr]
    rfl
  have h20 : s.curOff.toNat + 20 ≤ s.curLen.toNat := by unfold remaining at hr; omega
  refine (if_neg hr).trans (.trans ?_ (congrArg _ (if_neg hr).symm))
  refine Run.bind_mapState (readTcpFixed_reframe hf hh h20) fun tcp t _ => ?_
  split_ifs
  · rfl
  · exact skipTcpOptions_blind (reframe_blind (fun _ => m') id) tcp t

end

/-! ### The wire rows -/

section
variable {s : State}

theorem dataOffsetRow_short (hl : s.curLen.toNat < tcpStart s + 20) :
    dataOffsetRow s = .next (skipped .tooShortForTcp s) := if_pos hl

theorem dataOffsetRow_illegal (hl : tcpStart s + 20 ≤ s.curLen.toNat) :
    dataOffsetRow s = .next (skipped .invalidTcpHeaderLength s) := if_neg (Nat.not_lt.mpr hl)

theorem execTcpOk_short (h : TcpHeader) (r : U4) (hl : s.curLen.toNat < tcpStart s + 20) :
    execTcpOk h r s = .next (skipped .tooShortForTcp s) := if_pos hl

theorem execTcpOk_cutShort {h : TcpHeader} (r : U4) (hl : tcpStart s + 20 ≤ s.curLen.toNat)
    (he : s.curLen.toNat < tcpEnd h s) : execTcpOk h r s = .next (skipped .tooShortForTcp s) :=
  (if_neg (Nat.not_lt.mpr hl)).trans (if_pos he)

theorem execTcpOk_decoded {h : TcpHeader} (r : U4) (hl : tcpStart s + 20 ≤ s.curLen.toNat)
    (he : tcpEnd h s ≤ s.curLen.toNat) : execTcpOk h r s = .next (decoded (ontoStep7 h s)) :=
  (if_neg (Nat.not_lt.mpr hl)).trans (if_neg (Nat.not_lt.mpr he))

end

end Sys2Proof.Machine

/-! ### The obligations of the TCP reader and of its wire rows -/

namespace Sys2Proof.Proofs

open Sys2Proof.Machine Sys2Proof.Safety

/-- Settles O21: the whole header stands at the cursor, and the skip of the options reads none. -/
theorem tcpReadSucceeds : Obligations.TcpReadSucceeds := fun _ _ hs hb hw hlen hf =>
  have hlen := (Nat.le_sub_iff_add_le' hs).mp hlen
  Run.finish_of_value (readTcp_whole hb hf hw hlen) Ret.tcp Ret.skip

/-- Settles O22: one failure of the reader for each of its tests, in their order. -/
theorem tcpReadFails : Obligations.TcpReadFails := by
  intro s hs
  refine ⟨fun hend => ?_, fun b12 h20 hf hb => ?_⟩
  · exact congrArg (Run.finish · Ret.tcp Ret.skip) (readTcp_short s hend)
  have h20 := (Nat.le_sub_iff_add_le' hs).mp h20
  refine ⟨fun hw => ?_, fun _ hlen => ?_⟩
  · exact Run.finish_of_fail (readTcp_illegalOffset hb hf h20 hw) Ret.tcp Ret.skip
  · exact Run.finish_of_fail (readTcp_cutShort hb hf h20 ((Nat.sub_lt_iff_lt_add' hs).mp hlen)) Ret.tcp Ret.skip

/-- Settles O24: both buffers show the reader the same header, and the same bytes of it filled. -/
theorem tcpReadIgnoresReservedAndOptions : Obligations.TcpReadIgnoresReservedAndOptions := by
  intro s m' b b' h hb hb' hnibble
  have h12 : highNibble (byteAt s.mem (s.curOff.toNat + 12)) = highNibble (byteAt m' (s.curOff.toNat + 12)) := by
    rw [byteAt_of_read hb, byteAt_of_read hb', highNibble_congr hnibble]
  have hf : Filled s.mem s.curOff.toNat 20 ↔ Filled m' s.curOff.toNat 20 := filled_congr fun k hk => by
    by_cases hk12 : k = 12
    · rw [hk12, hb, hb', Option.isSome_some, Option.isSome_some]
    · rw [h k hk hk12]
  exact Run.finish_mapState (fun _ _ => rfl) (readTcp_reframe hf (tcpAt_congr h h12)) Ret.tcp Ret.skip

/-- Settles O29: the two data-offset rows are one test, `TCP.OK` two, and its record is that of steps 6 and 7. -/
theorem tcpRowsEffect : Obligations.TcpRowsEffect := by
  intro h r s t ht
  have hend : tcpEnd h s = t + 4 * h.dataOffsetWords.toNat := ht ▸ tcpEnd_eq h s
  obtain rfl : t = tcpStart s := ht.trans (ip4End_eq s.held.ip).symm
  rw [← hend]
  refine ⟨fun hl => ⟨dataOffsetRow_short hl, dataOffsetRow_short hl, execTcpOk_short h r hl⟩, fun hl =>
    ⟨dataOffsetRow_illegal hl, dataOffsetRow_illegal hl, execTcpOk_cutShort r hl, fun he => ?_⟩⟩
  have hoff : (BitVec.ofNat 32 (tcpEnd h s)).toNat = tcpEnd h s := offset_toNat he
  have hlen : (BitVec.ofNat 32 (s.curLen.toNat - tcpEnd h s)).toNat = s.curLen.toNat - tcpEnd h s :=
    offset_toNat (s := s) (Nat.sub_le _ _)
  exact ⟨_, _, _, hoff, hlen.trans (by rw [hoff]), previewLength_toNat s.capLatch _, execTcpOk_decoded r hl he⟩

end Sys2Proof.Proofs

/-! SUPPORT. `FRAME.DECODE` as the decision list of R112: the readers make the list's tests in the list's order, so a
frame ends with the reason of the first that fails, or decoded with the headers that stand in the buffer. A buffer that
shows a frame of the kind the decoder wants fails none (R116). -/

namespace Sys2Proof.Machine

open Sys2Proof.Safety

/-! ### The decision list, header by header -/

/-- Lines 8 to 11 of R112, as tests on the TCP header. -/
def tcpDecision (m : List Host.Cell) (n : Nat) : Option SkipReason :=
  if n < tcpOffset m + 20 then some .tooShortForTcp
  else if (tcpAt m (tcpOffset m)).dataOffsetWords.toNat < 5 then some .invalidTcpHeaderLength
  else if n < tcpOffset m + headerBytes (tcpAt m (tcpOffset m)).dataOffsetWords then some .tooShortForTcp
  else none

/-- Lines 3 to 11 of R112, as tests on the IPv4 header and what follows it. -/
def ip4Decision (m : List Host.Cell) (n : Nat) : Option SkipReason :=
  if n < 14 + 1 then some .tooShortForIp
  else if (ip4At m 14).headerLenWords.toNat < 5 then some .invalidIpHeaderLength
  else if (ip4At m 14).version ≠ 4#4 then some .notIpv4
  else if n < tcpOffset m then some .tooShortForIp
  else if (ip4At m 14).protocol ≠ 6#8 then some .notTcp
  else tcpDecision m n

theorem u16At_toNat (m : List Host.Cell) (a : Nat) :
    (u16At m a).toNat = (byteAt m a).toNat * 256 + (byteAt m (a + 1)).toNat := be16_toNat _ _

theorem decision_eq (m : List Host.Cell) (n : Nat) :
    decision m n =
      if n < 14 then some .tooShortForEthernet
      else if (ethAt m 0).etherType ≠ 0x0800#16 then some .notIpv4
      else ip4Decision m n := by
  have htype : (byteAt m 12).toNat * 256 + (byteAt m 13).toNat ≠ 0x0800 ↔ (ethAt m 0).etherType ≠ 0x0800#16 := by
    rw [ne_eq, ne_eq, ← BitVec.toNat_inj]
    exact not_congr (u16At_toNat m 12 ▸ Iff.rfl)
  have hver : ver m ≠ 4 ↔ (ip4At m 14).version ≠ 4#4 := not_congr (BitVec.toNat_inj (y := 4#4))
  have hproto : (byteAt m 23).toNat ≠ 6 ↔ (ip4At m 14).protocol ≠ 6#8 := not_congr (BitVec.toNat_inj (y := 6#8))
  have hdoff : 4 * doff m = headerBytes (tcpAt m (tcpOffset m)).dataOffsetWords := Nat.mul_comm _ _
  simp only [decision, htype, hver, hproto, hdoff]
  rfl

/-- Where the payload begins, from the TCP header. -/
theorem payloadOffset_eq (m : List Host.Cell) :
    payloadOffset m = tcpOffset m + headerBytes (tcpAt m (tcpOffset m)).dataOffsetWords :=
  congrArg (tcpOffset m + ·) (Nat.mul_comm 4 (doff m))

/-- Line 11 of R112: a frame whose headers are of the kind the decoder wants, and whole. -/
theorem decision_eq_none {m : List Host.Cell} {n : Nat} (hty : (ethAt m 0).etherType = 0x0800#16)
    (hv : (ip4At m 14).version = 4#4) (hi : 5 ≤ (ip4At m 14).headerLenWords.toNat)
    (hp : (ip4At m 14).protocol = 6#8) (ht : 5 ≤ (tcpAt m (tcpOffset m)).dataOffsetWords.toNat)
    (hn : payloadOffset m ≤ n) : decision m n = none := by
  have hi' : 5 ≤ ihl m := hi
  have ht' : 5 ≤ doff m := ht
  have hend : ¬ n < tcpOffset m + headerBytes (tcpAt m (tcpOffset m)).dataOffsetWords :=
    Nat.not_lt.mpr ((payloadOffset_eq m).symm.trans_le hn)
  rw [payloadOffset] at hn
  have hoff : tcpOffset m = 14 + 4 * ihl m := rfl
  have hn14 : ¬ n < 14 := by omega
  have hn15 : ¬ n < 14 + 1 := by omega
  have hnip : ¬ n < tcpOffset m := by omega
  have hn20 : ¬ n < tcpOffset m + 20 := by omega
  rw [decision_eq, if_neg hn14, if_neg (not_not.mpr hty), ip4Decision, if_neg hn15, if_neg (Nat.not_lt.mpr hi),
    if_neg (not_not.mpr hv), if_neg hnip, if_neg (not_not.mpr hp), tcpDecision, if_neg hn20,
    if_neg (Nat.not_lt.mpr ht), if_neg hend]

/-! ### The two ends of a decode -/

/-- The least of two lengths is the word of the least of their values (R117). -/
theorem previewLength_eq (cap len : U32) : previewLength cap len = BitVec.ofNat 32 (min cap.toNat len.toNat) := by
  rw [← previewLength_toNat, BitVec.ofNat_toNat, BitVec.setWidth_eq]

/-- What the wire rows of the buffer's own headers lead to is the decoded frame's terminal state. -/
theorem decoded_ontoStep7_eq (s : State) :
    decoded (ontoStep7 (tcpAt s.mem (tcpOffset s.mem)) (ontoStep5 (ip4At s.mem 14) (ontoStep3 (ethAt s.mem 0)
      (accept s)))) = decodedState s := by
  have hoff : tcpEnd (tcpAt s.mem (tcpOffset s.mem)) (ontoStep5 (ip4At s.mem 14) (ontoStep3 (ethAt s.mem 0)
      (accept s))) = payloadOffset s.mem := tcpEnd_eq _ _
  have hlen : (BitVec.ofNat 32 (s.caplen.toNat - payloadOffset s.mem)).toNat = s.caplen.toNat - payloadOffset s.mem :=
    offset_toNat (s := accept s) (Nat.sub_le _ _)
  have hpre : previewLength s.previewCap (BitVec.ofNat 32 (s.caplen.toNat - payloadOffset s.mem)) =
      BitVec.ofNat 32 (min s.previewCap.toNat (s.caplen.toNat - payloadOffset s.mem)) := by
    rw [previewLength_eq, hlen]
  rw [ontoStep7, hoff, decodedState, frameRecord, ← hpre]
  rfl

/-- The answer is the terminal state that a line of R112 names, the cursor of a skipped frame left open. -/
def EndsAs (s : State) (o : Host.Outcome State Fault Refusal) (line : Option SkipReason) : Prop :=
  (∀ r, line = some r → ∃ off, o = .next (skippedState s r off)) ∧ (line = none → o = .next (decodedState s))

theorem EndsAs.of_skipped (s : State) (r : SkipReason) (k : Nat) :
    EndsAs s (.next (skipped r (moveCursor k (accept s)))) (some r) :=
  ⟨fun _ h => ⟨(moveCursor k (accept s)).curOff, by cases h; rfl⟩, nofun⟩

/-- A reader's failure is the frame's, wherever the reader began. -/
theorem EndsAs.of_fail {α : Type} (s : State) (r : SkipReason) (j k : Nat)
    (f : α → State → Host.Outcome State Fault Refusal) :
    EndsAs s ((Run.fail r (moveCursor k (moveCursor j (accept s)))).orSkipped f) (some r) := by
  rw [Run.orSkipped_fail, moveCursor_moveCursor]
  exact .of_skipped s r _

/-! ### Header by header, the readers make the tests of the list -/

section
variable {s : State} (hf : Filled s.mem 0 s.caplen.toNat)
include hf

theorem decodeTcp_endsAs (hl : tcpOffset s.mem ≤ s.caplen.toNat) :
    EndsAs s (decodeTcp (ethAt s.mem 0) (ip4At s.mem 14) (moveCursor (tcpOffset s.mem) (accept s)))
      (tcpDecision s.mem s.caplen.toNat) := by
  obtain ⟨k, hk⟩ := readTcp_inFrame (inFrame_accept hf hl)
  rw [decodeTcp, hk, tcpDecision]
  split_ifs
  · exact .of_fail s _ _ k _
  · exact .of_fail s _ _ k _
  · exact .of_fail s _ _ k _
  · refine ⟨nofun, fun _ => ?_⟩
    rw [Run.orSkipped_value, moveCursor_moveCursor, ← decoded_ontoStep7_eq, ← decoded_eq_ontoStep7, ip4End_eq]
    rfl

theorem decodeIp4_endsAs (hl : 14 ≤ s.caplen.toNat) :
    EndsAs s (decodeIp4 (ethAt s.mem 0) (moveCursor 14 (accept s))) (ip4Decision s.mem s.caplen.toNat) := by
  obtain ⟨k, hk⟩ := readIpv4_inFrame (inFrame_accept hf hl)
  rw [decodeIp4, hk, ip4Decision, tcpOffset_eq]
  split_ifs with _ _ _ hend hp
  · exact .of_fail s _ _ k _
  · exact .of_fail s _ _ k _
  · exact .of_fail s _ _ k _
  · exact .of_fail s _ _ k _
  · rw [Run.orSkipped_value, if_pos hp, moveCursor_moveCursor]
    exact .of_skipped s _ _
  · rw [Run.orSkipped_value, if_neg hp, moveCursor_moveCursor, ← tcpOffset_eq]
    exact decodeTcp_endsAs hf (tcpOffset_eq s.mem ▸ Nat.not_lt.mp hend)

theorem decodeFrame_endsAs : EndsAs s (decodeFrame (accept s)) (decision s.mem s.caplen.toNat) := by
  have hk := readEthernet_inFrame (inFrame_accept hf (Nat.zero_le _))
  rw [moveCursor_zero] at hk
  rw [decodeFrame_eq, hk, decision_eq]
  split_ifs with hl hty
  · exact .of_skipped s _ 0
  · rw [Run.orSkipped_value, if_pos hty]
    exact .of_skipped s _ _
  · rw [Run.orSkipped_value, if_neg hty]
    exact decodeIp4_endsAs hf (Nat.not_lt.mp hl)

end

/-- From a state that accepts a start, `FRAME.DECODE` is the accepted start and the decode (R103). -/
theorem exec_frameDecode_ready {s : State} (hs : Ready s) : exec .frameDecode s = decodeFrame (accept s) :=
  if_neg (by simp [hs])

/-! ### A frame the buffer shows -/

section
variable {m : List Host.Cell} {a : Nat} {bs : List Byte}

theorem readSpan_of_shows {n : Nat} (h : Shows m a bs) (hn : n = bs.length) : readSpan m a n = some bs :=
  hn ▸ readSpan_of_reads h

theorem shows_take (h : Shows m a bs) (n : Nat) : Shows m a (bs.take n) :=
  (shows_append (bs := bs.take n) (cs := bs.drop n) (by rwa [List.take_append_drop])).1

end

/-- What a buffer shows that shows a frame laid out from its parts (R116): its headers at their offsets, and the payload
behind them. -/
structure ShowsFrame (m : List Host.Cell) (eth : EthernetHeader) (ip : Ipv4Header) (tcp : TcpHeader)
    (payload : List Byte) : Prop where
  ethHeader  : ethAt m 0 = eth
  ip4Header  : ip4At m 14 = ip
  tcpHeader  : tcpAt m (tcpOffset m) = tcp
  payloadOff : payloadOffset m = 14 + 4 * ip.headerLenWords.toNat + 4 * tcp.dataOffsetWords.toNat
  shown      : Shows m (payloadOffset m) payload

theorem showsFrame_of_shows {m : List Host.Cell} {eth : EthernetHeader} {ip : Ipv4Header} {tcp : TcpHeader}
    {reserved : U4} {ipOptions tcpOptions payload : List Byte} (hi : 5 ≤ ip.headerLenWords.toNat)
    (ht : 5 ≤ tcp.dataOffsetWords.toNat) (hio : ipOptions.length = 4 * (ip.headerLenWords.toNat - 5))
    (hto : tcpOptions.length = 4 * (tcp.dataOffsetWords.toNat - 5))
    (hb : Shows m 0 (ethBytes eth ++ ip4Bytes ip ++ ipOptions ++ tcpBytes tcp reserved ++ tcpOptions ++ payload)) :
    ShowsFrame m eth ip tcp payload := by
  obtain ⟨hb, hpay⟩ := shows_append hb
  obtain ⟨hb, -⟩ := shows_append hb
  obtain ⟨hb, htcp⟩ := shows_append hb
  obtain ⟨hb, -⟩ := shows_append hb
  obtain ⟨heth, hip⟩ := shows_append hb
  obtain rfl : ethAt m 0 = eth := ethAt_of_shows heth
  obtain rfl : ip4At m 14 = ip := ip4At_of_shows hip
  have hihl : 5 ≤ ihl m := hi
  have hoff : tcpOffset m = 34 + ipOptions.length := by rw [hio]; change 14 + 4 * ihl m = 34 + 4 * (ihl m - 5); omega
  simp only [List.length_append, ethBytes_length, ip4Bytes_length, tcpBytes_length, Nat.zero_add, Nat.reduceAdd,
    ← hoff] at htcp hpay
  obtain rfl : tcpAt m (tcpOffset m) = tcp := tcpAt_of_shows htcp
  have hdoff : 5 ≤ doff m := ht
  have hend : payloadOffset m = tcpOffset m + 20 + tcpOptions.length := by
    rw [hto]
    change tcpOffset m + 4 * doff m = tcpOffset m + 20 + 4 * (doff m - 5)
    omega
  exact ⟨rfl, rfl, rfl, rfl, hend ▸ hpay⟩

/-- The lengths and the offset of a frame's record are not cut off by their 32 bits. -/
theorem frameRecord_toNat {m : List Host.Cell} {n cap : U32} (h : payloadOffset m ≤ n.toNat) :
    (frameRecord m n cap).payloadOff.toNat = payloadOffset m ∧
    (frameRecord m n cap).payloadLen.toNat = n.toNat - payloadOffset m ∧
    (frameRecord m n cap).previewLen.toNat = min cap.toNat (n.toNat - payloadOffset m) := by
  have hn := n.isLt
  have hcap := cap.isLt
  exact ⟨Nat.mod_eq_of_lt (by omega), Nat.mod_eq_of_lt (by omega), Nat.mod_eq_of_lt (by omega)⟩

/-- What is read once a frame is decoded whose payload the buffer shows: the payload, and its first bytes (R55,
R117). -/
theorem payloadView_decodedState {s : State} {payload : List Byte} (hp : Shows s.mem (payloadOffset s.mem) payload)
    (hn : payloadOffset s.mem + payload.length = s.caplen.toNat) :
    payloadView (decodedState s) = some payload ∧
      previewView (decodedState s) = some (payload.take s.previewCap.toNat) := by
  obtain ⟨hoff, hlen, hpre⟩ := frameRecord_toNat (cap := s.previewCap) (hn ▸ Nat.le_add_right _ payload.length)
  have hrest : s.caplen.toNat - payloadOffset s.mem = payload.length := by omega
  constructor
  · exact (congrArg (readSpan s.mem · _) hoff).trans (readSpan_of_shows hp (hlen.trans hrest))
  · refine (congrArg (readSpan s.mem · _) hoff).trans (readSpan_of_shows (shows_take hp _) ?_)
    rw [hpre, hrest, List.length_take]

end Sys2Proof.Machine

/-! ### The obligations of a whole frame -/

namespace Sys2Proof.Proofs

open Sys2Proof.Machine Sys2Proof.Safety

/-- Settles O31: header by header, the readers make the tests of the list. -/
theorem frameDecodeFollowsTheDecisionList : Obligations.FrameDecodeFollowsTheDecisionList := by
  intro s hs hf
  rw [exec_frameDecode_ready hs]
  exact decodeFrame_endsAs hf

/-- Settles O38: the headers the buffer shows pass every test of the decision list, and the record is made of them. -/
theorem frameRoundTrip : Obligations.FrameRoundTrip := by
  rintro s eth ip tcp reserved ipOptions tcpOptions payload _ hs hty hv hi hp ht hio hto rfl hb hn
  have hf : Filled s.mem 0 s.caplen.toNat := hn ▸ filled_of_shows hb
  obtain ⟨rfl, rfl, rfl, hoff, hpay⟩ := showsFrame_of_shows hi ht hio hto hb
  have hend : payloadOffset s.mem + payload.length = s.caplen.toNat := by
    simp only [List.length_append, ethBytes_length, ip4Bytes_length, tcpBytes_length] at hn
    omega
  have hle : payloadOffset s.mem ≤ s.caplen.toNat := hend ▸ Nat.le_add_right _ payload.length
  have hdec := (frameDecodeFollowsTheDecisionList s hs hf).2 (decision_eq_none hty hv hi hp ht hle)
  obtain ⟨hoffNat, hlenNat, -⟩ := frameRecord_toNat (cap := s.previewCap) hle
  exact ⟨_, _, hdec, rfl, rfl, rfl, rfl, rfl, hoffNat.trans hoff, by omega, rfl, payloadView_decodedState hpay hend⟩

end Sys2Proof.Proofs

/-! SUPPORT. The seven steps and the one operation: from each phase on, what the steps that are left end in is what
`FRAME.DECODE` has left to do. The filter steps, whose wire rows set the cursor to where it already stands, move `PHASE`
alone. What else differs between two decodes, they cannot see. -/

namespace Sys2Proof.Machine

open Sys2Proof.Safety

/-! ### The filter steps -/

/-- An offset written to where the cursor stands changes nothing. -/
theorem curOff_of_toNat {s : State} {n : Nat} (h : s.curOff.toNat = n) : BitVec.ofNat 32 n = s.curOff := by
  rw [← h, BitVec.ofNat_toNat, BitVec.setWidth_eq]

section
variable {s : State}

theorem step2_notIpv4 (hl : 14 ≤ s.curLen.toNat) (hty : s.held.eth.etherType ≠ 0x0800#16) :
    step2 s = .next (skipped .notIpv4 s) := (if_neg hty).trans (if_neg (Nat.not_lt.mpr hl))

theorem step2_isIpv4 (hl : 14 ≤ s.curLen.toNat) (hc : s.curOff.toNat = 14) (hty : s.held.eth.etherType = 0x0800#16) :
    step2 s = .next { s with phase := .s3 } := by
  refine (if_pos hty).trans ((if_neg (Nat.not_lt.mpr hl)).trans ?_)
  rw [curOff_of_toNat hc]

theorem step4_notTcp (hl : ip4End s.held.ip ≤ s.curLen.toNat) (hp : s.held.ip.protocol ≠ 6#8) :
    step4 s = .next (skipped .notTcp s) := (if_neg hp).trans (if_neg (Nat.not_lt.mpr hl))

theorem step4_isTcp (hl : ip4End s.held.ip ≤ s.curLen.toNat) (hc : s.curOff.toNat = ip4End s.held.ip)
    (hp : s.held.ip.protocol = 6#8) : step4 s = .next { s with phase := .s5 } := by
  refine (if_pos hp).trans ((if_neg (Nat.not_lt.mpr hl)).trans ?_)
  rw [curOff_of_toNat hc]

end

/-! ### The steps a decode has left -/

/-- No operation is issued from outside and no start command stands: the machine is left to its control sequence. -/
structure Unattended (s : State) : Prop where
  nothingIssued : s.issue = []
  noCommand     : s.ctrlStart = false

/-- A machine in `IDLE` or `DONE` waits, however long. -/
theorem run_ready {s : State} (hu : Unattended s) (hb : busy s = false) (k : Nat) :
    Host.Core.run Sys2Proof.core k s = .next s := by
  have hstep : step s = .next s := by
    rw [step_nil s hu.nothingIssued, controlStep_ready hb, await_eq, hu.noCommand, if_neg Bool.false_ne_true]
  induction k with
  | zero => rfl
  | succ k ih => rw [run_succ k s s hstep, ih]

/-- A skipped frame waits through the steps that are left. -/
theorem run_skipped {s : State} (hu : Unattended s) {r : SkipReason} (h : step s = .next (skipped r s)) (k : Nat) :
    Host.Core.run Sys2Proof.core (k + 1) s = .next (skipped r s) :=
  (run_succ k s _ h).trans (run_ready (s := skipped r s) ⟨hu.nothingIssued, hu.noCommand⟩ rfl k)

/-- A step that reads a header and holds it: a failure ends the frame, and a success goes on with the steps left. -/
theorem run_reader {α : Type} {s : State} {x : Run SkipReason α} {next : α → State → State}
    {rest : α → State → Host.Outcome State Fault Refusal} (hu : Unattended s) (hx : OnlyMoves s x) (k : Nat)
    (h : step s = x.orSkipped fun v u => .next (next v u))
    (hk : ∀ v u, x = .value v u → Host.Core.run Sys2Proof.core k (next v u) = rest v u) :
    Host.Core.run Sys2Proof.core (k + 1) s = x.orSkipped rest := by
  cases x with
  | value v u => exact (run_succ k s _ h).trans (hk v u rfl)
  | fail r u =>
    obtain ⟨n, rfl, -⟩ := hx
    have hdone : Unattended (skipped r (moveCursor n s)) := ⟨hu.nothingIssued, hu.noCommand⟩
    exact (run_succ k s _ h).trans (run_ready hdone rfl k)
  | fault f => exact hx.elim
  | refused r =>
    have h : step s = .refused r := h
    simp only [Host.Core.run, Sys2Proof.core, h, Run.orSkipped]

/-- `PHASE` and the values held, as the steps have them on the way. -/
def onTheWay (p : Phase) (h : Held) (s : State) : State := { s with phase := p, held := h }

theorem onTheWay_blind (p : Phase) (h : Held) : Blind (onTheWay p h) := ⟨fun _ => rfl, fun _ => rfl, fun _ _ => rfl⟩

theorem agreeFor_onTheWay (p : Phase) (h : Held) (k : Nat) (s : State) : AgreeFor (onTheWay p h) k s :=
  fun _ _ _ _ => rfl

@[simp] theorem mapNext_id (o : Host.Outcome State Fault Refusal) : mapNext id o = o := by
  cases o <;> rfl

/-- What `FRAME.DECODE` has left to do looks at neither, and its ends overwrite both. -/
theorem decodeTcp_onTheWay (p : Phase) (h : Held) (eth : EthernetHeader) (ip : Ipv4Header) (s : State) :
    decodeTcp eth ip (onTheWay p h s) = decodeTcp eth ip s := by
  have hx := readTcp_blind (onTheWay_blind p h) s (agreeFor_onTheWay p h 20 s)
  exact (Run.orSkipped_mapState (f := onTheWay p h) (g := id) (fun _ _ => rfl) hx fun _ _ _ => rfl).trans (mapNext_id _)

theorem decodeIp4_onTheWay (p : Phase) (h : Held) (eth : EthernetHeader) (s : State) :
    decodeIp4 eth (onTheWay p h s) = decodeIp4 eth s := by
  have hx := readIpv4_blind (onTheWay_blind p h) s (agreeFor_onTheWay p h 20 s)
  refine (Run.orSkipped_mapState (f := onTheWay p h) (g := id) (fun _ _ => rfl) hx fun ip t _ => ?_).trans
    (mapNext_id _)
  rw [mapNext_id, decodeTcp_onTheWay]
  rfl

section
variable {s : State} (hu : Unattended s)
include hu

/-- Steps 6 and 7. -/
theorem run_of_s6 (hp : s.phase = .s6) :
    Host.Core.run Sys2Proof.core 2 s =
      .next (decoded { s with held := { s.held with payloadLen := remainingWord s } }) := by
  have h6 : step s = .next { s with phase := .s7, held := { s.held with payloadLen := remainingWord s } } := by
    rw [step_nil s hu.nothingIssued, controlStep, hp]
    rfl
  exact (run_succ 1 s _ h6).trans (run_succ 0 _ _ (step_nil _ hu.nothingIssued))

/-- Steps 5 to 7: what step 6 finds to remain is the payload's length (R110). -/
theorem run_of_s5 (hp : s.phase = .s5) (hc : s.curOff.toNat = ip4End s.held.ip) :
    Host.Core.run Sys2Proof.core 3 s = decodeTcp s.held.eth s.held.ip s := by
  have h5 : step s = step5 s := by rw [step_nil s hu.nothingIssued, controlStep, hp]
  refine run_reader hu (readTcp_onlyMoves s) 2 h5 fun tcp u hv => ?_
  obtain ⟨hl, -, -, -, rfl⟩ := readTcp_success hv
  have hrem : remainingWord (moveCursor (headerBytes tcp.dataOffsetWords) s) =
      payloadLength (moveCursor (headerBytes tcp.dataOffsetWords) s) s.held.ip tcp := BitVec.eq_of_toNat_eq <| by
    rw [remainingWord_toNat, payloadLength_toNat, moveCursor_toNat _ s hl, hc]
    rfl
  rw [← hrem]
  exact run_of_s6 ⟨hu.nothingIssued, hu.noCommand⟩ rfl

/-- Steps 4 to 7. -/
theorem run_of_s4 (hp : s.phase = .s4) (hl : ip4End s.held.ip ≤ s.curLen.toNat)
    (hc : s.curOff.toNat = ip4End s.held.ip) :
    Host.Core.run Sys2Proof.core 4 s =
      if s.held.ip.protocol ≠ 6#8 then .next (skipped .notTcp s) else decodeTcp s.held.eth s.held.ip s := by
  have h4 : step s = step4 s := by rw [step_nil s hu.nothingIssued, controlStep, hp]
  split_ifs with hproto
  · exact run_skipped hu (h4.trans (step4_notTcp hl hproto)) 3
  · refine (run_succ 3 s _ (h4.trans (step4_isTcp hl hc (not_not.mp hproto)))).trans ?_
    rw [← decodeTcp_onTheWay .s5 s.held]
    exact run_of_s5 ⟨hu.nothingIssued, hu.noCommand⟩ rfl hc

/-- Steps 3 to 7. -/
theorem run_of_s3 (hp : s.phase = .s3) (hc : s.curOff.toNat = 14) :
    Host.Core.run Sys2Proof.core 5 s = decodeIp4 s.held.eth s := by
  have h3 : step s = step3 s := by rw [step_nil s hu.nothingIssued, controlStep, hp]
  refine run_reader hu (readIpv4_onlyMoves s) 4 h3 fun ip u hv => ?_
  obtain ⟨hl, -, -, -, -, rfl⟩ := readIpv4_success hv
  have hoff := moveCursor_toNat _ s hl
  rw [hc] at hl hoff
  rw [← decodeTcp_onTheWay .s4 { s.held with ip := ip }]
  exact run_of_s4 ⟨hu.nothingIssued, hu.noCommand⟩ rfl hl hoff

/-- Steps 2 to 7. -/
theorem run_of_s2 (hp : s.phase = .s2) (hl : 14 ≤ s.curLen.toNat) (hc : s.curOff.toNat = 14) :
    Host.Core.run Sys2Proof.core 6 s =
      if s.held.eth.etherType ≠ 0x0800#16 then .next (skipped .notIpv4 s) else decodeIp4 s.held.eth s := by
  have h2 : step s = step2 s := by rw [step_nil s hu.nothingIssued, controlStep, hp]
  split_ifs with hty
  · exact run_skipped hu (h2.trans (step2_notIpv4 hl hty)) 5
  · refine (run_succ 5 s _ (h2.trans (step2_isIpv4 hl hc (not_not.mp hty)))).trans ?_
    rw [← decodeIp4_onTheWay .s3 s.held]
    exact run_of_s3 ⟨hu.nothingIssued, hu.noCommand⟩ rfl hc

/-- All seven steps. -/
theorem run_of_s1 (hp : s.phase = .s1) (hc : s.curOff.toNat = 0) :
    Host.Core.run Sys2Proof.core 7 s = decodeFrame s := by
  have h1 : step s = step1 s := by rw [step_nil s hu.nothingIssued, controlStep, hp]
  rw [decodeFrame_eq]
  refine run_reader hu (readEthernet_onlyMoves s) 6 h1 fun eth u hv => ?_
  obtain ⟨hl, -, -, rfl⟩ := readEthernet_success hv
  have hoff := moveCursor_toNat _ s hl
  rw [hc] at hl hoff
  rw [← decodeIp4_onTheWay .s2 { s.held with eth := eth }]
  exact run_of_s2 ⟨hu.nothingIssued, hu.noCommand⟩ rfl (Nat.zero_add 14 ▸ hl) hoff

end

/-! ### What two decodes cannot see of each other -/

/-- `s` with all of `s'` that a decode carries along or overwrites: `WIRELEN`, the buffer, what is issued, and the
outcome of the frame before. -/
def withPastOf (s' s : State) : State :=
  { s with wirelen := s'.wirelen, mem := s'.mem, issue := s'.issue, outcome := s'.outcome, reason := s'.reason }

theorem withPastOf_blind (s' : State) : Blind (withPastOf s') := ⟨fun _ => rfl, fun _ => rfl, fun _ _ => rfl⟩

/-- A decode sees of the buffer the bytes below the `CAPLEN` it sampled. -/
theorem agreeFor_withPastOf {s s' t : State} (h : SameBelow s.mem s'.mem s.caplen.toNat) (hm : t.mem = s.mem)
    (hl : t.curLen = s.caplen) (k : Nat) : AgreeFor (withPastOf s') k t := fun a _ _ ha =>
  hm ▸ (h a (hl ▸ ha)).symm

/-- Another cap, before and after it is sampled. -/
def withCap (cap : U32) (s : State) : State := { s with previewCap := cap, capLatch := cap }

theorem withCap_blind (cap : U32) : Blind (withCap cap) := ⟨fun _ => rfl, fun _ => rfl, fun _ _ => rfl⟩

theorem agreeFor_withCap (cap : U32) (k : Nat) (s : State) : AgreeFor (withCap cap) k s := fun _ _ _ _ => rfl

/-- Another cap in a terminal state: `PREVIEW_LEN` is that of it (R117). -/
def withCapAndPreview (cap : U32) (s : State) : State :=
  { withCap cap s with
    record := s.record.map fun r => { r with previewLen := BitVec.ofNat 32 (min cap.toNat r.payloadLen.toNat) } }

theorem decoded_withCap (cap : U32) (s : State) :
    decoded (withCap cap s) = withCapAndPreview cap (decoded s) := by
  have hpre : previewLength cap s.held.payloadLen = BitVec.ofNat 32 (min cap.toNat s.held.payloadLen.toNat) :=
    previewLength_eq _ _
  rw [withCapAndPreview, decoded_record, Option.map_some, recordOf, ← hpre]
  rfl

end Sys2Proof.Machine

/-! ### The obligations of `FRAME.DECODE` and its steps -/

namespace Sys2Proof.Proofs

open Sys2Proof.Machine Sys2Proof.Safety

/-- Settles O32: phase by phase, from the last, the steps left are what the one operation has left to do. -/
theorem atomicDecodeEqualsTheSevenSteps : Obligations.AtomicDecodeEqualsTheSevenSteps := fun s _ hs hi hv =>
  have hrun : Host.Core.run Sys2Proof.core 7 (accept s) = decodeFrame (accept s) := run_of_s1 ⟨hi, rfl⟩ rfl rfl
  ⟨accept s, hostAct_start hs hv, hrun.trans (exec_frameDecode_ready hs).symm⟩

/-- Settles O34: the readers see the same bytes, and the end of a decode overwrites the outcome of the one before. -/
theorem decodeIsIdempotent : Obligations.DecodeIsIdempotent := by
  intro s s' hs hs' hlen hcap hm
  have hstart : accept s' = withPastOf s' (accept s) := by simp only [accept, withPastOf, hlen, hcap]
  rw [exec_frameDecode_ready hs, exec_frameDecode_ready hs', hstart]
  have hagree : ∀ n k, AgreeFor (withPastOf s') k (moveCursor n (accept s)) := fun _ =>
    agreeFor_withPastOf hm rfl rfl
  refine decodeFrame_mapState (withPastOf_blind s') (fun _ _ => rfl) (fun _ _ => rfl) (hagree 0 14) (hagree 14 20)
    fun ip t ht => ?_
  obtain ⟨-, -, -, -, -, rfl⟩ := readIpv4_success ht
  rw [moveCursor_moveCursor]
  exact hagree _ 20

/-- Settles O35: a change of `WIRELEN` passes through every instruction and every step. -/
theorem wirelenIsNeverRead : Obligations.WirelenIsNeverRead := fun _ w =>
  ⟨exec_reframe id (fun _ => w) (fun _ _ => rfl) (fun _ _ => rfl),
    step_reframe id (fun _ => w) (fun _ _ => rfl) (fun _ _ => rfl)⟩

/-- Settles O36: the readers cannot see the cap, a skip empties the record, and step 7 takes it into `PREVIEW_LEN`
alone. -/
theorem previewCapChangesOnlyPreviewLen : Obligations.PreviewCapChangesOnlyPreviewLen := fun s cap =>
  mapNext_ite rfl <| decodeFrame_mapState (s := accept s) (g := withCapAndPreview cap) (withCap_blind cap)
    (fun _ _ => rfl) (fun h t => decoded_withCap cap { t with held := h }) (agreeFor_withCap cap 14 _)
    (agreeFor_withCap cap 20 _) fun _ t _ => agreeFor_withCap cap 20 t

/-- Settles O51: in a run the header that a filter step looks at lies within `caplen`, the cursor at its end. -/
theorem filterSteps : Obligations.FilterSteps := by
  intro s hs
  have hok := hs.phaseOk
  rw [step_nil s hs.nothingIssued, controlStep]
  refine ⟨fun hp => ?_, fun hp => ?_⟩ <;> simp only [PhaseOk, hp] at hok ⊢
  · obtain ⟨⟨-, hl, -⟩, hc⟩ := hok
    exact ⟨step2_notIpv4 hl, step2_isIpv4 hl hc⟩
  · obtain ⟨⟨-, hl, -⟩, hc⟩ := hok
    exact ⟨step4_notTcp hl, step4_isTcp hl hc⟩

/-- Settles O52: in a run the cursor has consumed the three headers, and `c.len` is `CAPLEN`. -/
theorem payloadLengthStep : Obligations.PayloadLengthStep := by
  intro s hs hp
  have hok := hs.phaseOk
  simp only [PhaseOk, hp] at hok
  obtain ⟨⟨-, hin, -, -⟩, hc⟩ := hok
  have hlen : s.curLen = s.caplen := hs.lenSampled (congrArg Phase.busy hp)
  have hrem := remainingWord_toNat s
  rw [tcpEnd_eq, hlen] at hin
  rw [hc, tcpEnd_eq, hlen] at hrem
  refine ⟨hin, remainingWord s, by omega, ?_⟩
  rw [step_nil s hs.nothingIssued, controlStep, hp]
  rfl

/-- Settles O53: step 7 is `Decoded` with the record of what is held, its preview length the lesser of the two. -/
theorem produceStep : Obligations.ProduceStep := by
  intro s hi hp
  refine ⟨_, Held.empty, previewLength_toNat s.capLatch s.held.payloadLen, ?_⟩
  rw [step_nil s hi, controlStep, hp]
  rfl

/-- Settles O49: the acceptance makes the machine busy and empties the record, so that no result can be read. -/
theorem startIsAccepted : Obligations.StartIsAccepted := fun s _ hs hv =>
  ⟨accept s, hostAct_start hs hv, rfl, statusBit_busy (accept s), statusBit_done (accept s),
    fun _ h2 h5 => statusBit_noValue rfl h2 h5, fun _ hr => hostRead_noValue hr (.inl rfl)⟩

end Sys2Proof.Proofs

/-! SUPPORT. The reason a frame is skipped with, phase by phase: a reader fails with its own reasons alone, and in a run
a filter step, whose header lies within `caplen`, skips for its own reason alone. Then what `DONE` says of the reason,
and what an action on one of several instances leaves of the others. -/

namespace Sys2Proof.Machine

open Sys2Proof.Safety

/-! ### The reasons a reader fails with -/

/-- Where the operation fails, its reason is one of `rs`. -/
def FailsWith {α : Type} (rs : List SkipReason) (x : Run SkipReason α) : Prop := ∀ r t, x = .fail r t → r ∈ rs

section
variable {α β : Type} {rs : List SkipReason}

theorem FailsWith.value (v : α) (s : State) : FailsWith rs (.value v s) := fun _ _ => nofun

theorem FailsWith.fail {r : SkipReason} (hr : r ∈ rs) (s : State) : FailsWith rs (.fail r s : Run SkipReason α) := by
  rintro _ _ ⟨⟩
  exact hr

theorem FailsWith.orFail {ε : Type} {r : SkipReason} (hr : r ∈ rs) (x : Run ε α) : FailsWith rs (x.orFail r) := by
  cases x with
  | value v s => exact .value v s
  | fail e s => exact .fail hr s
  | fault f => exact fun _ _ => nofun
  | refused r => exact fun _ _ => nofun

theorem FailsWith.bind {x : Run SkipReason α} {k : α → State → Run SkipReason β} (hx : FailsWith rs x)
    (hk : ∀ v s, FailsWith rs (k v s)) : FailsWith rs (x.bind k) := by
  cases x with
  | value v s => exact hk v s
  | fail r s => exact .fail (hx r s rfl) s
  | fault f => exact fun _ _ => nofun
  | refused r => exact fun _ _ => nofun

/-- `x <- op or fail r; …` (R16). -/
theorem FailsWith.orFail_bind {ε : Type} {r : SkipReason} {x : Run ε α} {k : α → State → Run SkipReason β}
    (hr : r ∈ rs) (hk : ∀ v s, FailsWith rs (k v s)) : FailsWith rs ((x.orFail r).bind k) := .bind (.orFail hr x) hk

theorem FailsWith.ite {c : Prop} [Decidable c] {x y : Run SkipReason α} (hx : FailsWith rs x) (hy : FailsWith rs y) :
    FailsWith rs (if c then x else y) := by
  split
  · exact hx
  · exact hy

end

/-- `ETH.READ` fails with the reason of step 1 (R123). -/
theorem readEthernet_failsWith (s : State) : FailsWith (raises .s1) (readEthernet s) :=
  have hr : .tooShortForEthernet ∈ raises .s1 := by decide
  .ite (.fail hr s) <| .orFail_bind hr fun _ _ => .orFail_bind hr fun _ _ => .orFail_bind hr fun _ _ => .value _ _

/-- `IP4.READ` fails with a reason of step 3 (R123). -/
theorem readIpv4_failsWith (s : State) : FailsWith (raises .s3) (readIpv4 s) :=
  have hr : .tooShortForIp ∈ raises .s3 := by decide
  have hfixed (v l : U4) (s : State) : FailsWith (raises .s3) (readIpv4Fixed v l s) :=
    .orFail_bind hr fun _ _ => .orFail_bind hr fun _ _ => .orFail_bind hr fun _ _ => .orFail_bind hr fun _ _ =>
    .orFail_bind hr fun _ _ => .orFail_bind hr fun _ _ => .orFail_bind hr fun _ _ => .orFail_bind hr fun _ _ =>
    .orFail_bind hr fun _ _ => .value _ _
  .ite (.fail hr s) <| .orFail_bind hr fun _ _ => .ite (.fail (by decide) _) <| .ite (.fail (by decide) _) <|
    .bind (hfixed _ _ _) fun _ _ => .ite (.orFail_bind hr fun _ _ => .value _ _) (.value _ _)

/-- `TCP.READ` fails with a reason of step 5 (R123). -/
theorem readTcp_failsWith (s : State) : FailsWith (raises .s5) (readTcp s) :=
  have hr : .tooShortForTcp ∈ raises .s5 := by decide
  have hfixed (s : State) : FailsWith (raises .s5) (readTcpFixed s) :=
    .orFail_bind hr fun _ _ => .orFail_bind hr fun _ _ => .orFail_bind hr fun _ _ => .orFail_bind hr fun _ _ =>
    .orFail_bind hr fun _ _ => .orFail_bind hr fun _ _ => .orFail_bind hr fun _ _ => .orFail_bind hr fun _ _ =>
    .orFail_bind hr fun _ _ => .value _ _
  .ite (.fail hr s) <| .bind (hfixed s) fun _ _ => .ite (.fail (by decide) _) <|
    .ite (.orFail_bind hr fun _ _ => .value _ _) (.value _ _)

/-! ### The one entry of a failure -/

/-- `t` is `s` skipped for a reason its phase can raise, the cursor left anywhere (R127). -/
def IsSkipOf (s t : State) : Prop := ∃ r ∈ raises s.phase, ∃ off : U32, t = skipped r { s with curOff := off }

/-- A step that reads a header ends in `DONE` by its reader's failure alone: what follows a success goes on. -/
theorem isSkipOf_of_orSkipped {α : Type} {s t : State} {x : Run SkipReason α}
    {k : α → State → Host.Outcome State Fault Refusal} (hm : OnlyMoves s x) (hx : FailsWith (raises s.phase) x)
    (h : x.orSkipped k = .next t) (hd : t.phase = .done) (hk : ∀ v u, k v u = .next t → t.phase ≠ .done) :
    IsSkipOf s t := by
  rcases Run.orSkipped_next h with ⟨r, u, rfl, rfl⟩ | ⟨v, u, -, ht⟩
  · obtain ⟨n, rfl, -⟩ := hm
    exact ⟨r, hx r _ rfl, _, rfl⟩
  · exact absurd hd (hk v u ht)

/-- In a run a step that ends a decode as `Skipped` skips for a reason of its phase (R123, R127). The two filter steps
never find their header cut short, which `PhaseOk` says of `S2` and `S4`. -/
theorem isSkipOf_of_controlStep {s t : State} (hok : PhaseOk s) (hb : busy s = true) (h : controlStep s = .next t)
    (hd : t.phase = .done) (ho : t.outcome = false) : IsSkipOf s t := by
  unfold controlStep at h
  unfold PhaseOk at hok
  cases hp : s.phase <;> simp only [hp] at h hok
  case idle | done => simp [busy, hp, Phase.busy] at hb
  case s1 =>
    exact isSkipOf_of_orSkipped (readEthernet_onlyMoves s) (hp ▸ readEthernet_failsWith s) h hd
      fun _ _ hk => by cases hk; nofun
  case s2 =>
    obtain ⟨⟨-, hl, -⟩, hc⟩ := hok
    by_cases hty : s.held.eth.etherType = 0x0800#16
    · rw [step2_isIpv4 hl hc hty] at h
      cases h; cases hd
    · rw [step2_notIpv4 hl hty] at h
      cases h
      exact ⟨.notIpv4, by rw [hp]; decide, s.curOff, rfl⟩
  case s3 =>
    exact isSkipOf_of_orSkipped (readIpv4_onlyMoves s) (hp ▸ readIpv4_failsWith s) h hd
      fun _ _ hk => by cases hk; nofun
  case s4 =>
    obtain ⟨⟨-, hl, -⟩, hc⟩ := hok
    by_cases hpr : s.held.ip.protocol = 6#8
    · rw [step4_isTcp hl hc hpr] at h
      cases h; cases hd
    · rw [step4_notTcp hl hpr] at h
      cases h
      exact ⟨.notTcp, by rw [hp]; decide, s.curOff, rfl⟩
  case s5 =>
    exact isSkipOf_of_orSkipped (readTcp_onlyMoves s) (hp ▸ readTcp_failsWith s) h hd
      fun _ _ hk => by cases hk; nofun
  case s6 => cases h; cases hd
  case s7 => cases h; cases ho

/-! ### The codes of `REASON` -/

/-- The code 0 stands for no reason alone (R124). -/
theorem reasonCode_eq_zero_iff (r : Option SkipReason) : reasonCode r = 0 ↔ r = none := by
  rcases r with _ | r
  · exact iff_of_true rfl rfl
  · cases r <;> decide

/-- The legal pairs of `OUTCOME` and `REASON` (R124). -/
theorem atDone_outcome_iff {s : State} (h : AtDone s) : s.outcome = true ↔ s.reason = none := by
  rcases h with ⟨ho, hr, -⟩ | ⟨ho, hr, -⟩
  · exact iff_of_true ho hr
  · exact iff_of_false (by simp [ho]) (fun hn => by simp [hn] at hr)

/-- What the invariant says while the host reads `DONE = 1`. -/
theorem inv_atDone {s : State} (hs : Inv s) (hd : isDone s = true) : AtDone s := by
  have hp : s.phase = .done := of_decide_eq_true hd
  have hok := hs.phaseOk
  simp only [PhaseOk, hp] at hok
  exact hok

/-! ### Several instances -/

/-- What one of several blocks answers alone it answers among the others, which stay as they were (R136). -/
theorem onInstance_next {ss : List State} {k : Nat} {s t : State} {f : State → Host.Outcome State Fault Refusal}
    (hk : ss[k]? = some s) (hf : f s = .next t) :
    ∃ ss', onInstance k f ss = .next ss' ∧ ss'.length = ss.length ∧ ss'[k]? = some t ∧
      ∀ j, j ≠ k → ss'[j]? = ss[j]? := by
  obtain ⟨hlt, -⟩ := List.getElem?_eq_some_iff.mp hk
  exact ⟨ss.set k t, by simp only [onInstance, hk, hf], List.length_set, List.getElem?_set_self hlt,
    fun _ hj => List.getElem?_set_ne hj.symm⟩

end Sys2Proof.Machine

/-! ### The obligations of the exceptions -/

namespace Sys2Proof.Proofs

open Sys2Proof.Machine Sys2Proof.Safety

/-- Settles O50: every failure of a decode in progress is one `skipped`, for a reason of the phase it ends. -/
theorem everyFailureIsOneSkip : Obligations.EveryFailureIsOneSkip := by
  intro s t hs hb h hd ho
  rw [step_nil s hs.nothingIssued] at h
  obtain ⟨r, hr, off, rfl⟩ := isSkipOf_of_controlStep hs.phaseOk hb h hd ho
  exact ⟨r, hr, rfl⟩

/-- Settles O59: the codes by the table, the pairs by what the invariant says of `DONE`. -/
theorem reasonCodes : Obligations.ReasonCodes :=
  ⟨rfl, rfl, rfl, rfl, rfl, rfl, rfl, rfl, fun s hs hd => by
    rw [reasonCode_eq_zero_iff]
    exact atDone_outcome_iff (inv_atDone hs hd)⟩

/-- Settles O60: a step and a host's action are both an action on the one block. -/
theorem instancesAreIndependent : Obligations.InstancesAreIndependent := fun _ _ _ hk =>
  ⟨fun _ h => onInstance_next hk h, fun _ _ h => onInstance_next hk h⟩

/-- Settles O48: with nothing issued the control sequence waits, and no start command stands to be accepted. -/
theorem idleAndDoneWait : Obligations.IdleAndDoneWait := fun s hb hi hc => by
  rw [step_nil s hi, controlStep_ready hb, await_eq, hc, if_neg Bool.false_ne_true]

end Sys2Proof.Proofs

/-! SUPPORT. What the host may do between the steps, and what it cannot upset: a start and a write of an input are
refused while busy, and so is a buffer write below the captured length. What the readers have held lies below that
length, so that an answered action keeps the invariant of a run. -/

namespace Sys2Proof.Machine

open Sys2Proof.Safety

/-! ### A byte that was never filled -/

/-- R141, U4: a read inside the bounds of a span with an unfilled byte is refused by name. -/
theorem ReturnsBytes.exec_unfilled {i : Instr} {n : Nat} {g : State → List Byte → Ret} {s : State}
    (h : ReturnsBytes i n g) (hb : s.curOff.toNat + n ≤ s.curLen.toNat) (hf : ¬ Filled s.mem s.curOff.toNat n) :
    exec i s = .refused .unfilledFrameByte := by
  have hr : readSpan s.mem s.curOff.toNat n = none :=
    Option.eq_none_iff_forall_ne_some.mpr fun bs hr => hf (filled_of_readSpan _ _ _ bs hr)
  rw [h s, takeBytes_unfilled n s hb hr, Run.finish_refused]

theorem not_filled_of_read {m : List Host.Cell} {a n k : Nat} (hk : k < n) (hr : Memory.read m (a + k) = none) :
    ¬ Filled m a n := fun hf => by simpa [hr] using hf k hk

/-! ### What the host is refused -/

section
variable {s t : State} {v offset : U32} {b : Byte}

theorem exec_frameDecode_busy (hb : busy s = true) : exec .frameDecode s = .refused .startWhileBusy := if_pos hb

theorem hostAct_writeCtrl_busy (hb : busy s = true) : hostAct (.writeCtrl v) s = .refused .startWhileBusy := if_pos hb

theorem hostAct_writeInput_busy (r : InputReg) (hb : busy s = true) :
    hostAct (.writeInput r v) s = .refused .writeWhileBusy := if_pos hb

theorem hostAct_writeInput_ready (r : InputReg) (hb : busy s = false) :
    hostAct (.writeInput r v) s = .next (setInput r v s) := if_neg (by simp [hb])

theorem hostAct_noStart (hb : busy s = false) (hv : v.getLsbD 0 = false) : hostAct (.writeCtrl v) s = .next s :=
  (if_neg (by simp [hb])).trans (if_neg (ne_true_of_eq_false hv))

theorem hostAct_writeBuffer_refused (hb : busy s = true) (ho : offset.toNat < s.curLen.toNat) :
    hostAct (.writeBuffer offset b) s = .refused .bufferWriteWhileBusy :=
  if_pos (by simp [hb, BitVec.lt_def, ho])

theorem hostAct_writeBuffer_answered (h : busy s = false ∨ s.curLen.toNat ≤ offset.toNat) :
    hostAct (.writeBuffer offset b) s = .next { s with mem := Memory.write s.mem offset.toNat b } :=
  if_neg (by rcases h with h | h <;> simp [h, BitVec.lt_def])

/-! ### What an answered write has done -/

/-- An answered start command is the acceptance (R104). -/
theorem eq_accept_of_start (hv : v.getLsbD 0 = true) (h : hostAct (.writeCtrl v) s = .next t) : t = accept s := by
  cases hb : busy s with
  | true => rw [hostAct_writeCtrl_busy hb] at h; cases h
  | false => exact (Host.Outcome.next.inj ((hostAct_start hb hv).symm.trans h)).symm

theorem eq_write_of_writeBuffer (h : hostAct (.writeBuffer offset b) s = .next t) :
    t = { s with mem := Memory.write s.mem offset.toNat b } := by
  rcases hostAct_cases h with ⟨_, ha, -⟩ | ⟨_, _, ha, -⟩ | ⟨_, _, ha, -, ht⟩ | ⟨ha, -⟩ <;> cases ha
  exact ht

end

/-! ### The invariant under the host -/

section
variable {s : State} {m' : List Host.Cell} (hm : SameBelow s.mem m' s.curLen.toNat)
include hm

theorem readSpan_below {a n : Nat} (h : a + n ≤ s.curLen.toNat) : readSpan m' a n = readSpan s.mem a n :=
  readSpan_congr _ _ a n fun x _ hx => (hm x (by omega)).symm

/-! What has been established of a frame stays so while the bytes below the captured length do. -/

theorem atS2_mem (h : AtS2 s) : AtS2 { s with mem := m' } := by
  obtain ⟨hrec, hl, heth⟩ := h
  exact ⟨hrec, hl, (congrArg (·.bind ethOfBytes) (readSpan_below hm hl)).trans heth⟩

theorem atS3_mem (h : AtS3 s) : AtS3 { s with mem := m' } := ⟨atS2_mem hm h.1, h.2⟩

theorem atS4_mem (h : AtS4 s) : AtS4 { s with mem := m' } := by
  obtain ⟨h3, hl, hip, hv, hw⟩ := h
  have hin : 14 + 20 ≤ s.curLen.toNat := by rw [ip4End_eq] at hl; omega
  exact ⟨atS3_mem hm h3, hl, (congrArg (·.bind ip4OfBytes) (readSpan_below hm hin)).trans hip, hv, hw⟩

theorem atS5_mem (h : AtS5 s) : AtS5 { s with mem := m' } := ⟨atS4_mem hm h.1, h.2⟩

theorem atS6_mem (h : AtS6 s) : AtS6 { s with mem := m' } := by
  obtain ⟨h5, hl, htcp, hw⟩ := h
  have hin : tcpStart s + 20 ≤ s.curLen.toNat := by unfold tcpEnd headerBytes at hl; omega
  exact ⟨atS5_mem hm h5, hl,
    (congrArg (fun o => (o.bind tcpOfBytes).map fun p => (p.1.1, p.2)) (readSpan_below hm hin)).trans htcp, hw⟩

end

/-- What a phase relies on depends on no byte of the buffer while the machine waits, and on none at or beyond the
captured length during a decode. -/
theorem phaseOk_mem {s : State} {m' : List Host.Cell} (hm : busy s = true → SameBelow s.mem m' s.curLen.toNat)
    (h : PhaseOk s) : PhaseOk { s with mem := m' } := by
  unfold PhaseOk at h ⊢
  unfold busy at hm
  cases hp : s.phase <;> simp only [hp] at h hm ⊢
  case idle | s1 | done => exact h
  case s2 => exact ⟨atS2_mem (hm rfl) h.1, h.2⟩
  case s3 => exact ⟨atS3_mem (hm rfl) h.1, h.2⟩
  case s4 => exact ⟨atS4_mem (hm rfl) h.1, h.2⟩
  case s5 => exact ⟨atS5_mem (hm rfl) h.1, h.2⟩
  case s6 => exact ⟨atS6_mem (hm rfl) h.1, h.2⟩
  case s7 => exact ⟨atS6_mem (hm rfl) h.1, h.2⟩

/-- No phase relies on an input register: the sampled values are in `c.len` and the latch. -/
theorem phaseOk_setInput (r : InputReg) (v : U32) (s : State) : PhaseOk (setInput r v s) ↔ PhaseOk s := by
  cases r <;> rfl

/-- The acceptance samples the registers and sets the cursor to 0 (R104). -/
theorem inv_accept {s : State} (hs : Inv s) : Inv (accept s) where
  nothingIssued := hs.nothingIssued
  bufferWf := hs.bufferWf
  cursorInside := Nat.zero_le _
  noCommand := rfl
  lenSampled _ := rfl
  capSampled _ := rfl
  phaseOk := ⟨rfl, rfl⟩

/-- The registers of a waiting machine need not be the sampled values. -/
theorem inv_setInput {s : State} (hs : Inv s) (hb : busy s = false) (r : InputReg) (v : U32) :
    Inv (setInput r v s) := by
  have hb' : ¬ busy (setInput r v s) = true := by simpa [busy] using hb
  exact
    { nothingIssued := by simpa using hs.nothingIssued
      bufferWf := by simpa using hs.bufferWf
      cursorInside := by simpa using hs.cursorInside
      noCommand := by simpa using hs.noCommand
      lenSampled := fun h => absurd h hb'
      capSampled := fun h => absurd h hb'
      phaseOk := (phaseOk_setInput r v s).mpr hs.phaseOk }

/-- R144: a buffer write that is answered does not touch what a decode in progress has read. -/
theorem inv_writeBuffer {s : State} (hs : Inv s) {offset : U32} (ho : busy s = true → s.curLen.toNat ≤ offset.toNat)
    (b : Byte) : Inv { s with mem := Memory.write s.mem offset.toNat b } where
  nothingIssued := hs.nothingIssued
  bufferWf := Memory.write_wf _ _ _ offset.isLt hs.bufferWf
  cursorInside := hs.cursorInside
  noCommand := hs.noCommand
  lenSampled := hs.lenSampled
  capSampled := hs.capSampled
  phaseOk := phaseOk_mem (fun hb a ha =>
    have hne : a ≠ offset.toNat := Nat.ne_of_lt (ha.trans_le (ho hb))
    (Memory.read_write_other s.mem offset.toNat a b hne).symm) hs.phaseOk

theorem inv_resetState {s : State} (hs : Inv s) : Inv (resetState s) where
  nothingIssued := rfl
  bufferWf := hs.bufferWf
  cursorInside := Nat.le_refl 0
  noCommand := rfl
  lenSampled hb := nomatch hb
  capSampled hb := nomatch hb
  phaseOk := ⟨rfl, rfl, rfl⟩

end Sys2Proof.Machine

/-! ### The obligations of reset and the hazards -/

namespace Sys2Proof.Proofs

open Sys2Proof.Machine Sys2Proof.Safety

/-- Settles O14: the four reads take one span each, and it is not filled. -/
theorem unfilledByteIsRefused : Obligations.UnfilledByteIsRefused := by
  intro s n k i hi hb hk hr
  have hf : ¬ Filled s.mem s.curOff.toNat n := not_filled_of_read hk hr
  rcases hi with ⟨rfl, rfl⟩ | ⟨rfl, rfl⟩ | ⟨rfl, rfl⟩ | ⟨m, rfl, rfl⟩
  · exact curReadU8_returnsBytes.exec_unfilled hb hf
  · exact curReadU16Be_returnsBytes.exec_unfilled hb hf
  · exact curReadU32Be_returnsBytes.exec_unfilled hb hf
  · exact (curReadBytes_returnsBytes m).exec_unfilled hb hf

/-- Settles O46: each answered action keeps the invariant. -/
theorem hostKeepsTheInvariant : Obligations.HostKeepsTheInvariant := by
  intro s t a hs h
  rcases hostAct_cases h with
    ⟨v, -, -, ⟨-, rfl⟩ | ⟨-, rfl⟩⟩ | ⟨r, v, -, hb, rfl⟩ | ⟨offset, b, -, ho, rfl⟩ | ⟨-, rfl⟩
  · exact inv_accept hs
  · exact hs
  · exact inv_setInput hs hb r v
  · exact inv_writeBuffer hs ho b
  · exact inv_resetState hs

/-- Settles O54. -/
theorem hostWrites : Obligations.HostWrites := fun s _ =>
  ⟨fun hb => ⟨hostAct_writeCtrl_busy hb, fun r => hostAct_writeInput_busy r hb⟩,
   fun hb => ⟨fun hv => ⟨accept s, hostAct_start hb hv, rfl, rfl, rfl, rfl, rfl, rfl⟩, hostAct_noStart hb,
     hostAct_writeInput_ready .caplen hb, hostAct_writeInput_ready .wirelen hb,
     hostAct_writeInput_ready .previewCap hb⟩⟩

/-- Settles O55: the test is against `c.len`, which the invariant and an accepted start make equal to `CAPLEN`. -/
theorem hostBufferWrites : Obligations.HostBufferWrites := by
  intro s offset b
  refine ⟨fun hs hb ho => ?_, fun h => ?_, fun v t hv h ho => ?_, fun t h => ?_⟩
  · exact hostAct_writeBuffer_refused hb (by rwa [hs.lenSampled hb])
  · cases hb : busy s with
    | false => exact ⟨_, hostAct_writeBuffer_answered (.inl hb)⟩
    | true =>
      obtain ⟨hs, ho⟩ := h.resolve_left (by simp [hb])
      exact ⟨_, hostAct_writeBuffer_answered (.inr (by rwa [hs.lenSampled hb]))⟩
  · obtain rfl := eq_accept_of_start hv h
    exact hostAct_writeBuffer_refused rfl ho
  · obtain rfl := eq_write_of_writeBuffer h
    exact ⟨rfl, Memory.read_write_same _ _ _, fun a ha => Memory.read_write_other _ _ _ _ ha⟩

/-- Settles O39. -/
theorem startWhileBusyIsRefused : Obligations.StartWhileBusyIsRefused := fun _ hb => exec_frameDecode_busy hb

end Sys2Proof.Proofs
